-- ==== Sys2Proof/Word.lean ====
section
/-! DEFINITION. The word types of the spec (00_scope.md R8) and the packing of elements into a vector. -/

namespace Sys2Proof

/-- A byte of memory or of an instruction (10_state.md R19). -/
abbrev Byte := BitVec 8

/-- A 64-bit register or a linear address (10_state.md R14, R19). -/
abbrev Word64 := BitVec 64

/-- A whole vector register: `MAXVL = 512` bits (00_scope.md R6). -/
abbrev Vec := BitVec 512

end Sys2Proof
end

