-- ==== Sys2Proof/Config.lean ====
section
/-! DEFINITION. What an implementation fixes, and the values and choices the spec leaves open. -/

namespace Sys2Proof.Config

/-- `STRICT_IGNORED_BITS` (00_scope.md R6, 30_encoding.md R73, decision D10): whether the decoder refuses an
encoding whose ignored prefix bits are stored as 0. DESIGN CHOICE `false`: such an instruction runs and the bits
have no effect, as R73 says the processor does (log 10). -/
def strictIgnoredBits : Bool := false

/-- What an unlisted byte of memory reads as. DESIGN CHOICE, unsafe: 10_state.md R25 leaves memory after reset
unspecified (log 5). -/
def unlistedByte : Byte := 0#8

/-- `FAULT_SUPPRESSION` (20_memory.md R42, D15): whether the memory read numbered `n` reports a fault that lies only
in bytes of masked-off elements. Open: both answers are admitted (log 11). `true` suppresses the fault. -/
opaque suppressMaskedFault (n : Nat) : Bool

/-- Whether the misaligned memory read numbered `n` raises #AC(0) when alignment checking is enabled
(60_exceptions.md R128, D5). Open: both answers are admitted (log 12). -/
opaque alignmentFault (n : Nat) : Bool

/-- Whether #AC is reported rather than #PF by the memory read numbered `n` when both apply
(60_exceptions.md R130, D29). Open (log 13). -/
opaque alignmentFaultFirst (n : Nat) : Bool

/-- Which of the byte addresses that `Translate` refuses a page fault of the memory read numbered `n` reports
(60_exceptions.md R127). Open (log 14). -/
opaque pageFaultByte (n : Nat) : Nat

/-- Which of several different segment overrides counts; `ns` are the override bytes in order. The spec does not say
(30_encoding.md R70, 20_memory.md R39). Open (log 15). -/
opaque overrideChoice (ns : List Byte) : Nat

end Sys2Proof.Config
end

