-- ==== Sys2Proof/Syntax.lean ====
section
/-! DEFINITION. The twelve instructions (00_scope.md R1) and their operands, one constructor of `Instr` for each row
of spec/opcode_table.json. -/

namespace Sys2Proof

/-- The segments a memory operand can be addressed through (10_state.md R15, 30_encoding.md R70). -/
inductive SegReg
  | es | cs | ss | ds | fs | gs
  deriving DecidableEq, Repr

/-- A vector register number, 0 to 31 (30_encoding.md R61). -/
abbrev VReg := BitVec 5

/-- A general register number, 0 to 15 (10_state.md R14, 30_encoding.md R61). -/
abbrev GReg := BitVec 4

/-- The writemask field `aaa`: 0 is "no writemask", 1 to 7 name k1 to k7 (30_encoding.md R66). -/
abbrev KReg := BitVec 3

/-- The displacement as the instruction holds it (30_encoding.md R62 to R64): none, one byte (which is scaled by N
when the address is formed), or four bytes. -/
inductive Disp
  | absent
  | d8 (v : BitVec 8)
  | d32 (v : BitVec 32)
  deriving DecidableEq, Repr

/-- The memory operand of ModRM, SIB and displacement (30_encoding.md R62, R74). -/
inductive MemOp
  /-- `mod = 00`, `rm = 101` in 64-bit mode: relative to the next instruction. -/
  | ripRel (d : BitVec 32)
  /-- `mod = 00`, `rm = 101` in 32-bit modes: the displacement alone (R74). -/
  | abs32 (d : BitVec 32)
  /-- A base register and no SIB byte. -/
  | base (b : GReg) (d : Disp)
  /-- A SIB byte: scale `2 ^ ss`, optional index, optional base. -/
  | sib (ss : BitVec 2) (index : Option GReg) (base : Option GReg) (d : Disp)
  deriving DecidableEq, Repr

/-- The operand in ModRM:r/m (20_memory.md R30): a register, or memory, read whole or (`bcst`) as one element copied to
every position (30_encoding.md R67). -/
inductive RmOperand
  | reg (r : VReg)
  | mem (bcst : Bool) (m : MemOp)
  deriving DecidableEq, Repr

/-- What every form carries beside its operands: the segment-override bytes before the EVEX prefix, in order
(30_encoding.md R70), the writemask field and the zeroing bit (R66). -/
structure Evex where
  overrides : List SegReg
  aaa : KReg
  z : Bool
  deriving DecidableEq, Repr

/-- The instructions: one constructor for each row of spec/opcode_table.json. The immediate forms (Op/En A,
30_encoding.md R59) have a destination, a source and an immediate; the variable forms (Op/En B, R60) a destination, a
first source and the counts. -/
inductive Instr
  | vprord128 (e : Evex) (dst : VReg) (src : RmOperand) (imm : BitVec 8)
  | vprord256 (e : Evex) (dst : VReg) (src : RmOperand) (imm : BitVec 8)
  | vprord512 (e : Evex) (dst : VReg) (src : RmOperand) (imm : BitVec 8)
  | vprorvd128 (e : Evex) (dst : VReg) (src : VReg) (cnt : RmOperand)
  | vprorvd256 (e : Evex) (dst : VReg) (src : VReg) (cnt : RmOperand)
  | vprorvd512 (e : Evex) (dst : VReg) (src : VReg) (cnt : RmOperand)
  | vprorq128 (e : Evex) (dst : VReg) (src : RmOperand) (imm : BitVec 8)
  | vprorq256 (e : Evex) (dst : VReg) (src : RmOperand) (imm : BitVec 8)
  | vprorq512 (e : Evex) (dst : VReg) (src : RmOperand) (imm : BitVec 8)
  | vprorvq128 (e : Evex) (dst : VReg) (src : VReg) (cnt : RmOperand)
  | vprorvq256 (e : Evex) (dst : VReg) (src : VReg) (cnt : RmOperand)
  | vprorvq512 (e : Evex) (dst : VReg) (src : VReg) (cnt : RmOperand)
  deriving DecidableEq, Repr

/-- The element of a form: doubleword or quadword (00_scope.md R5); `EVEX.W` (30_encoding.md R54). -/
inductive ElemWidth
  | dword | qword
  deriving DecidableEq, Repr

/-- The vector length of a form (00_scope.md R5, 30_encoding.md R68). -/
inductive VLen
  | l128 | l256 | l512
  deriving DecidableEq, Repr

/-- What tells the two operand encodings apart (30_encoding.md R59, R60): Op/En A ends in an immediate, Op/En B names
its first source in `EVEX.vvvv`. -/
inductive OpEn
  | a (imm : BitVec 8)
  | b (src1 : VReg)
  deriving DecidableEq, Repr

/-- An instruction by its parts. `Instr.fields` and `Fields.toInstr` go between the two views. -/
structure Fields where
  w : ElemWidth
  vl : VLen
  e : Evex
  dst : VReg
  rm : RmOperand
  op : OpEn
  deriving DecidableEq, Repr

/-- Whether code is decoded by the rules of 64-bit mode or of 32-bit modes (30_encoding.md R74), and in the latter whether
it addresses memory with 32 bits or with 16 (`bits16`, log 9). -/
inductive CodeSize
  | bits64 | bits32 | bits16
  deriving DecidableEq, Repr

/-- Element width in bits (00_scope.md R5). -/
def ElemWidth.bits : ElemWidth → Nat
  | .dword => 32
  | .qword => 64

/-- Vector length `VL` in bits (00_scope.md R5). -/
def VLen.bits : VLen → Nat
  | .l128 => 128
  | .l256 => 256
  | .l512 => 512

/-- The parts of an instruction. -/
def Instr.fields : Instr → Fields
  | .vprord128 e d r i => ⟨.dword, .l128, e, d, r, .a i⟩
  | .vprord256 e d r i => ⟨.dword, .l256, e, d, r, .a i⟩
  | .vprord512 e d r i => ⟨.dword, .l512, e, d, r, .a i⟩
  | .vprorvd128 e d s r => ⟨.dword, .l128, e, d, r, .b s⟩
  | .vprorvd256 e d s r => ⟨.dword, .l256, e, d, r, .b s⟩
  | .vprorvd512 e d s r => ⟨.dword, .l512, e, d, r, .b s⟩
  | .vprorq128 e d r i => ⟨.qword, .l128, e, d, r, .a i⟩
  | .vprorq256 e d r i => ⟨.qword, .l256, e, d, r, .a i⟩
  | .vprorq512 e d r i => ⟨.qword, .l512, e, d, r, .a i⟩
  | .vprorvq128 e d s r => ⟨.qword, .l128, e, d, r, .b s⟩
  | .vprorvq256 e d s r => ⟨.qword, .l256, e, d, r, .b s⟩
  | .vprorvq512 e d s r => ⟨.qword, .l512, e, d, r, .b s⟩

/-- The instruction made of the given parts. -/
def Fields.toInstr (f : Fields) : Instr :=
  match f.op, f.w, f.vl with
  | .a i, .dword, .l128 => .vprord128 f.e f.dst f.rm i
  | .a i, .dword, .l256 => .vprord256 f.e f.dst f.rm i
  | .a i, .dword, .l512 => .vprord512 f.e f.dst f.rm i
  | .b s, .dword, .l128 => .vprorvd128 f.e f.dst s f.rm
  | .b s, .dword, .l256 => .vprorvd256 f.e f.dst s f.rm
  | .b s, .dword, .l512 => .vprorvd512 f.e f.dst s f.rm
  | .a i, .qword, .l128 => .vprorq128 f.e f.dst f.rm i
  | .a i, .qword, .l256 => .vprorq256 f.e f.dst f.rm i
  | .a i, .qword, .l512 => .vprorq512 f.e f.dst f.rm i
  | .b s, .qword, .l128 => .vprorvq128 f.e f.dst s f.rm
  | .b s, .qword, .l256 => .vprorvq256 f.e f.dst s f.rm
  | .b s, .qword, .l512 => .vprorvq512 f.e f.dst s f.rm

end Sys2Proof
end

