-- ==== Sys2Proof/WellFormed.lean ====
section
/-! DEFINITION. Which terms of `Instr` an encoding can name, in 64-bit mode and in 32-bit modes, and the length of an
instruction. -/

namespace Sys2Proof

/-- The bytes a displacement takes (30_encoding.md R62). -/
def Disp.len : Disp → Nat
  | .absent => 0
  | .d8 _ => 1
  | .d32 _ => 4

/-- The bytes after ModRM that a memory operand takes: SIB and displacement (30_encoding.md R62, R69). -/
def MemOp.len : MemOp → Nat
  | .ripRel _ => 4
  | .abs32 _ => 4
  | .base _ d => d.len
  | .sib _ _ _ d => 1 + d.len

/-- The bytes after ModRM that the ModRM:r/m operand takes. -/
def RmOperand.len : RmOperand → Nat
  | .reg _ => 0
  | .mem _ m => m.len

/-- The bytes of the immediate: one for Op/En A, none for Op/En B (30_encoding.md R65). -/
def OpEn.len : OpEn → Nat
  | .a _ => 1
  | .b _ => 0

/-- The length of an instruction in bytes (30_encoding.md R69): override bytes, four of EVEX, opcode, ModRM, then SIB,
displacement and immediate. -/
def Fields.len (f : Fields) : Nat :=
  f.e.overrides.length + 6 + f.rm.len + f.op.len

/-- The length of an instruction in bytes (30_encoding.md R69). -/
def Instr.length (i : Instr) : Nat := i.fields.len

/-- In 32-bit modes only general registers 0 to 7 exist (30_encoding.md R74). -/
def GReg.valid (cs : CodeSize) (r : GReg) : Bool :=
  cs == .bits64 || !r.getLsbD 3

/-- In 32-bit modes only vector registers 0 to 7 exist (30_encoding.md R74). -/
def VReg.valid (cs : CodeSize) (r : VReg) : Bool :=
  cs == .bits64 || (!r.getLsbD 4 && !r.getLsbD 3)

/-- The low three bits of a register number, which the tests of R62 look at. -/
def GReg.low3 (r : GReg) : BitVec 3 := r.setWidth 3

/-- A base can stand without a displacement unless its low three bits are 101 (30_encoding.md R62). -/
def Disp.okForBase (d : Disp) (b : GReg) : Bool :=
  d != .absent || GReg.low3 b != 5#3

/-- The memory operands an encoding can name (30_encoding.md R62, R74): a base without SIB has low bits other than 100;
an index is not register 4; no base means a four-byte displacement. -/
def MemOp.wf (cs : CodeSize) : MemOp → Bool
  | .ripRel _ => cs == .bits64
  | .abs32 _ => cs == .bits32
  | .base b d => GReg.valid cs b && GReg.low3 b != 4#3 && d.okForBase b
  | .sib _ idx bs d =>
    (match idx with
      | none => true
      | some r => GReg.valid cs r && r != 4#4) &&
    (match bs, d with
      | none, .d32 _ => true
      | none, _ => false
      | some b, d => GReg.valid cs b && d.okForBase b)

/-- The ModRM:r/m operands an encoding can name. Code with 16-bit addressing names no memory operand of the model
(00_scope.md section 3, log 9). -/
def RmOperand.wf (cs : CodeSize) : RmOperand → Bool
  | .reg r => VReg.valid cs r
  | .mem _ m => cs != .bits16 && m.wf cs

/-- Op/En B names a register that exists. -/
def OpEn.wf (cs : CodeSize) : OpEn → Bool
  | .a _ => true
  | .b s => VReg.valid cs s

/-- Zeroing needs a writemask (30_encoding.md R66, R71). -/
def Evex.wf (e : Evex) : Bool := !(e.z && e.aaa == 0#3)

/-- The parts an encoding of at most 15 bytes can name (30_encoding.md R69). -/
def Fields.wf (cs : CodeSize) (f : Fields) : Bool :=
  f.e.wf && VReg.valid cs f.dst && f.rm.wf cs && f.op.wf cs && decide (f.len ≤ 15)

/-- The instructions an encoding of at most 15 bytes can name, in code of the given size. -/
def Instr.wellFormed (cs : CodeSize) (i : Instr) : Bool := i.fields.wf cs

end Sys2Proof
end

