-- ==== Sys2Proof/Decode.lean ====
section
/-! DEFINITION. The decoder (30_encoding.md R50 to R75), total on any bytes, and after it the encoder. -/

namespace Sys2Proof

/-- Why an encoding is an invalid opcode (30_encoding.md R70, R71, R74). All raise #UD; the order among them does not
matter (R75). -/
inductive UdCause
  | forbiddenLegacy | reservedBit | vectorLength | zeroingWithoutMask | broadcastRegister | vPrimeIn32BitMode
  deriving DecidableEq, Repr

/-- Why the decoder refuses bytes, which is neither a fault nor a no-op (30_encoding.md R70, R72, R73). -/
inductive DecodeRefusal
  | notInScope | addressSizeOverride | ignoredBit
  deriving DecidableEq, Repr

/-- What the decoder answers: an instruction, an invalid opcode, an instruction longer than 15 bytes, a refusal, a memory
form with 16-bit addresses, which is refused if it is enabled, or that the bytes end before the instruction does. -/
inductive Decoded
  | instr (i : Instr)
  | ud (c : UdCause)
  | tooLong
  | refused (r : DecodeRefusal)
  | addressing16 (vl : VLen)
  | short
  deriving DecidableEq, Repr

/-! ## Bits and bytes -/

/-- The byte with the given bits, bit 7 first. -/
def byteOf (b7 b6 b5 b4 b3 b2 b1 b0 : Bool) : Byte :=
  BitVec.ofNat 8 (b7.toNat * 128 + b6.toNat * 64 + b5.toNat * 32 + b4.toNat * 16
    + b3.toNat * 8 + b2.toNat * 4 + b1.toNat * 2 + b0.toNat)

/-- The three-bit field with the given bits, highest first. -/
def bits3 (b2 b1 b0 : Bool) : BitVec 3 :=
  BitVec.ofNat 3 (b2.toNat * 4 + b1.toNat * 2 + b0.toNat)

/-- The four-bit register number with the given bits, highest first (30_encoding.md R61). -/
def bits4 (b3 b2 b1 b0 : Bool) : BitVec 4 :=
  BitVec.ofNat 4 (b3.toNat * 8 + b2.toNat * 4 + b1.toNat * 2 + b0.toNat)

/-- The five-bit register number with the given bits, highest first (30_encoding.md R61). -/
def bits5 (b4 b3 b2 b1 b0 : Bool) : BitVec 5 :=
  BitVec.ofNat 5 (b4.toNat * 16 + b3.toNat * 8 + b2.toNat * 4 + b1.toNat * 2 + b0.toNat)

/-- Bits `lo + 2` to `lo` of a byte: a three-bit field of ModRM, SIB, P0 or P2. -/
def field3 (b : Byte) (lo : Nat) : BitVec 3 :=
  bits3 (b.getLsbD (lo + 2)) (b.getLsbD (lo + 1)) (b.getLsbD lo)

/-- Bits 7 and 6 of a byte: `mod` of ModRM, `ss` of SIB (30_encoding.md R58, R62). -/
def field2 (b : Byte) : BitVec 2 :=
  BitVec.ofNat 2 ((b.getLsbD 7).toNat * 2 + (b.getLsbD 6).toNat)

/-- Four bytes as a 32-bit value, least significant first (30_encoding.md R63). -/
def le32 (b0 b1 b2 b3 : Byte) : BitVec 32 := b3 ++ b2 ++ b1 ++ b0

/-! ## Legacy prefixes (R70) -/

/-- The segment an override byte names (30_encoding.md R70). -/
def SegReg.ofByte (b : Byte) : Option SegReg :=
  if b = 0x26#8 then some .es
  else if b = 0x2E#8 then some .cs
  else if b = 0x36#8 then some .ss
  else if b = 0x3E#8 then some .ds
  else if b = 0x64#8 then some .fs
  else if b = 0x65#8 then some .gs
  else none

/-- The override byte of a segment (30_encoding.md R70). -/
def SegReg.toByte : SegReg → Byte
  | .es => 0x26#8
  | .cs => 0x2E#8
  | .ss => 0x36#8
  | .ds => 0x3E#8
  | .fs => 0x64#8
  | .gs => 0x65#8

/-- The bytes that make an EVEX instruction after them #UD: LOCK, 66H, F2H, F3H, and in 64-bit mode the REX bytes 40H
to 4FH (30_encoding.md R70; in 32-bit modes 40H to 4FH are no such bytes, log 8). -/
def isForbiddenLegacy (cs : CodeSize) (b : Byte) : Bool :=
  b == 0xF0#8 || b == 0x66#8 || b == 0xF2#8 || b == 0xF3#8 ||
    (cs == .bits64 && decide (0x40 ≤ b.toNat ∧ b.toNat ≤ 0x4F))

/-- The address-size byte 67H (30_encoding.md R70). -/
def isAddressSize (b : Byte) : Bool := b == 0x67#8

/-- A memory operand has 16-bit addresses: in a 32-bit mode with 67H (30_encoding.md R74), and in code whose addresses are
16 bits wide by default without it. That 67H selects 32-bit addresses in such code is PRESUMED (log 9). -/
def usesAddressing16 (cs : CodeSize) (legacy : List Byte) : Bool :=
  match cs with
  | .bits64 => false
  | .bits32 => legacy.any isAddressSize
  | .bits16 => !legacy.any isAddressSize

/-- The bytes the decoder skips before 62H (30_encoding.md R75). -/
def isLegacy (cs : CodeSize) (b : Byte) : Bool :=
  (SegReg.ofByte b).isSome || isAddressSize b || isForbiddenLegacy cs b

/-! ## The tail: SIB, displacement, immediate (R62 to R65, R69) -/

/-- The bytes after ModRM. `len` counts them. -/
structure Tail where
  sib : Byte
  disp : Disp
  imm : BitVec 8
  len : Nat
  deriving DecidableEq, Repr

/-- A SIB byte follows: `mod` is not 11 and `rm = 100` (30_encoding.md R69). -/
def hasSib (md : BitVec 2) (rm : BitVec 3) : Bool := md != 3#2 && rm == 4#3

/-- Reads the immediate of Op/En A as the last byte (30_encoding.md R65). -/
def readImm (opA : Bool) (sib : Byte) (disp : Disp) (len : Nat) (bytes : List Byte) : Option Tail :=
  if opA then
    match bytes with
    | i :: _ => some ⟨sib, disp, i, len + 1⟩
    | [] => none
  else some ⟨sib, disp, 0, len⟩

/-- Reads the displacement by the table of 30_encoding.md R62: one byte for `mod = 01`; four for `mod = 10`, for
`mod = 00` with `rm = 101`, and for `mod = 00` with a SIB byte whose base is 101; else none. -/
def readDisp (opA : Bool) (md : BitVec 2) (rm : BitVec 3) (sib : Byte) (len : Nat) (bytes : List Byte) : Option Tail :=
  if md = 1#2 then
    match bytes with
    | d :: rest => readImm opA sib (.d8 d) (len + 1) rest
    | _ => none
  else if md = 2#2 ∨ (md = 0#2 ∧ (rm = 5#3 ∨ (rm = 4#3 ∧ field3 sib 0 = 5#3))) then
    match bytes with
    | d0 :: d1 :: d2 :: d3 :: rest => readImm opA sib (.d32 (le32 d0 d1 d2 d3)) (len + 4) rest
    | _ => none
  else readImm opA sib .absent len bytes

/-- Reads what follows ModRM, or `none` if the bytes end too soon. -/
def readTail (opA : Bool) (md : BitVec 2) (rm : BitVec 3) (bytes : List Byte) : Option Tail :=
  if hasSib md rm then
    match bytes with
    | s :: rest => readDisp opA md rm s 1 rest
    | [] => none
  else readDisp opA md rm 0 0 bytes

/-! ## Operands (R61, R62) -/

/-- The displacement of a form that has four bytes of it. -/
def Disp.value32 : Disp → BitVec 32
  | .d32 v => v
  | _ => 0

/-- The memory operand of `mod ≠ 11` (30_encoding.md R62; R74 for 32-bit modes). `x` and `b` are the values of
`EVEX.X` and `EVEX.B`. -/
def memOperand (cs : CodeSize) (x b : Bool) (md : BitVec 2) (rm : BitVec 3) (t : Tail) : MemOp :=
  if rm = 4#3 then
    let idx := bits4 x (t.sib.getLsbD 5) (t.sib.getLsbD 4) (t.sib.getLsbD 3)
    let bs := bits4 b (t.sib.getLsbD 2) (t.sib.getLsbD 1) (t.sib.getLsbD 0)
    .sib (field2 t.sib)
      (if idx = 4#4 then none else some idx)
      (if md = 0#2 ∧ field3 t.sib 0 = 5#3 then none else some bs)
      t.disp
  else if md = 0#2 ∧ rm = 5#3 then
    if cs == .bits64 then .ripRel t.disp.value32 else .abs32 t.disp.value32
  else .base (bits4 b (rm.getLsbD 2) (rm.getLsbD 1) (rm.getLsbD 0)) t.disp

/-- The operand in ModRM:r/m (30_encoding.md R58, R61, R67). -/
def rmOperand (cs : CodeSize) (x b : Bool) (bcst : Bool) (md : BitVec 2) (rm : BitVec 3) (t : Tail) : RmOperand :=
  if md = 3#2 then .reg (bits5 x b (rm.getLsbD 2) (rm.getLsbD 1) (rm.getLsbD 0))
  else .mem bcst (memOperand cs x b md rm t)

/-- The vector length of `L'L`; `none` for 11b (30_encoding.md R68). -/
def vlenOf (p2 : Byte) : Option VLen :=
  match p2.getLsbD 6, p2.getLsbD 5 with
  | false, false => some .l128
  | false, true => some .l256
  | true, false => some .l512
  | true, true => none

/-- Which operand encoding the map, opcode byte, `pp` and ModRM.reg select: `some true` is Op/En A (opcode 72H /0 in map
0F), `some false` Op/En B (opcode 14H in map 0F38), `none` another instruction (30_encoding.md R56, R72, R75). -/
def opEnOf (p0 p1 op modrm : Byte) : Option Bool :=
  if (p1.getLsbD 1, p1.getLsbD 0) ≠ (false, true) then none
  else if field3 p0 0 = 1#3 ∧ op = 0x72#8 ∧ field3 modrm 3 = 0#3 then some true
  else if field3 p0 0 = 2#3 ∧ op = 0x14#8 then some false
  else none

/-- Some ignored prefix bit is stored as 0 (30_encoding.md R73; R74 for 32-bit modes). -/
def ignoredBitStored (cs : CodeSize) (opA : Bool) (p0 p1 modrm : Byte) (t : Tail) : Bool :=
  let md := field2 modrm
  let rm := field3 modrm 0
  let noX := md != 3#2 && rm != 4#3
  let noB := md == 0#2 && (rm == 5#3 || (rm == 4#3 && field3 t.sib 0 == 5#3))
  (opA && (!p0.getLsbD 7 || !p0.getLsbD 4)) || (noX && !p0.getLsbD 6) || (noB && !p0.getLsbD 5) ||
    (cs != .bits64 && (!p0.getLsbD 5 || !p0.getLsbD 4 || !p1.getLsbD 6))

/-- The parts of the instruction, every field assembled (30_encoding.md R53 to R61). In 32-bit modes the register
numbers have three bits: B, R' and the top bit of vvvv are ignored (R74). -/
def assemble (cs : CodeSize) (opA : Bool) (vl : VLen) (overrides : List SegReg) (p0 p1 p2 modrm : Byte) (t : Tail) :
    Fields :=
  let long := cs == .bits64
  let x := !p0.getLsbD 6
  let b := long && !p0.getLsbD 5
  let reg := bits5 (long && !p0.getLsbD 4) (!p0.getLsbD 7) (modrm.getLsbD 5) (modrm.getLsbD 4) (modrm.getLsbD 3)
  let vvvv := bits5 (!p2.getLsbD 3) (long && !p1.getLsbD 6) (!p1.getLsbD 5) (!p1.getLsbD 4) (!p1.getLsbD 3)
  { w := if p1.getLsbD 7 then .qword else .dword
    vl := vl
    e := ⟨overrides, field3 p2 0, p2.getLsbD 7⟩
    dst := if opA then vvvv else reg
    rm := rmOperand cs x b (p2.getLsbD 4) (field2 modrm) (field3 modrm 0) t
    op := if opA then .a t.imm else .b vvvv }

/-! ## The decoder (R75) -/

/-- The invalid encodings of a form (30_encoding.md R70, R71, R74), or the vector length of a valid one. -/
def checkForm (cs : CodeSize) (legacy : List Byte) (p0 p1 p2 modrm : Byte) : Except UdCause VLen :=
  if legacy.any (isForbiddenLegacy cs) then .error .forbiddenLegacy
  else if p0.getLsbD 3 || !p1.getLsbD 2 then .error .reservedBit
  else match vlenOf p2 with
    | none => .error .vectorLength
    | some vl =>
      if p2.getLsbD 7 && field3 p2 0 == 0#3 then .error .zeroingWithoutMask
      else if field2 modrm == 3#2 && p2.getLsbD 4 then .error .broadcastRegister
      else if cs != .bits64 && !p2.getLsbD 3 then .error .vPrimeIn32BitMode
      else .ok vl

/-- The checks and the assembly once the form's operand encoding and all its bytes are known. An instruction longer than
15 bytes comes before the #UD causes (60_exceptions.md R130). Under the strict reading it also comes before the refusal for
an ignored bit stored as 0, which R75 lists ahead of the length and R130 does not order: DESIGN CHOICE (log 10). -/
def decodeForm (strict : Bool) (cs : CodeSize) (legacy : List Byte) (opA : Bool) (p0 p1 p2 modrm : Byte) (t : Tail) :
    Decoded :=
  if 15 < legacy.length + 6 + t.len then .tooLong
  else match checkForm cs legacy p0 p1 p2 modrm with
    | .error c => .ud c
    | .ok vl =>
      if strict && ignoredBitStored cs opA p0 p1 modrm t then .refused .ignoredBit
      else .instr (assemble cs opA vl (legacy.filterMap SegReg.ofByte) p0 p1 p2 modrm t).toInstr

/-- A memory form with 16-bit addresses: the spec does not say which bytes follow ModRM, so none is read, and the length
counts only what R69 gives every form, its bytes up to ModRM and the immediate: DESIGN CHOICE (log 9). Ignored bits are not
looked at: the form stops in the same way under either reading (log 10). -/
def decodeForm16 (cs : CodeSize) (legacy : List Byte) (opA : Bool) (p0 p1 p2 modrm : Byte) : Decoded :=
  if 15 < legacy.length + 6 + opA.toNat then .tooLong
  else match checkForm cs legacy p0 p1 p2 modrm with
    | .error c => .ud c
    | .ok vl => .addressing16 vl

/-- Decoding after the byte 62H and P0: the rest of the EVEX bytes, the opcode and ModRM select the operand encoding;
other instructions are refused unless a #UD cause of R70 or R71 already shows (30_encoding.md R75); their length is not
known, so nothing after ModRM is read before either (log 21). -/
def decodeEvex (strict : Bool) (cs : CodeSize) (legacy : List Byte) (p0 : Byte) (bytes : List Byte) : Decoded :=
  match bytes with
  | p1 :: p2 :: op :: modrm :: tail =>
    match opEnOf p0 p1 op modrm with
    | none =>
      if legacy.any (isForbiddenLegacy cs) then .ud .forbiddenLegacy
      else if p0.getLsbD 3 || !p1.getLsbD 2 then .ud .reservedBit
      else .refused .notInScope
    | some opA =>
      if usesAddressing16 cs legacy && field2 modrm != 3#2 then decodeForm16 cs legacy opA p0 p1 p2 modrm
      else match readTail opA (field2 modrm) (field3 modrm 0) tail with
        | none => .short
        | some t => decodeForm strict cs legacy opA p0 p1 p2 modrm t
  | _ => .short

/-- The decode procedure of 30_encoding.md R75, on the bytes from the program counter upward. In 32-bit modes 62H is
another instruction unless the two top bits of the next byte are set (R74). 67H is refused as soon as P0 is read; with a
forbidden byte beside it the instruction is #UD, but only after all its bytes have been read and counted, as
60_exceptions.md R130 orders the faults: DESIGN CHOICE (log 19). Where 14 or more legacy bytes leave P0 outside the 15
bytes of an instruction the answer is `short`, 67H among them or not (log 19). -/
def decode (strict : Bool) (cs : CodeSize) (bytes : List Byte) : Decoded :=
  let legacy := bytes.takeWhile (isLegacy cs)
  match bytes.dropWhile (isLegacy cs) with
  | [] => .short
  | b :: afterB =>
    if b ≠ 0x62#8 then
      .refused (if legacy.any isAddressSize then .addressSizeOverride else .notInScope)
    else match afterB with
      | [] => .short
      | p0 :: rest =>
        if cs != .bits64 && !(p0.getLsbD 7 && p0.getLsbD 6) then .refused .notInScope
        else if legacy.any isAddressSize && !legacy.any (isForbiddenLegacy cs) then .refused .addressSizeOverride
        else decodeEvex strict cs legacy p0 rest

/-- The bytes of a number, least significant first: byte 0 is bits 7 to 0. -/
def bytesOfNat : Nat → Nat → List Byte
  | 0, _ => []
  | n + 1, w => BitVec.ofNat 8 w :: bytesOfNat n (w / 256)

/-- The 15 bytes of an instruction whose first `nbits` bits are given and whose other bits are 0. -/
def instructionBytes (nbits w : Nat) : List Byte := bytesOfNat 15 (w % 2 ^ nbits)

/-- The instruction the decoder of 64-bit mode reads from an instruction whose bits are `w`, bit 0 the least significant
bit of the first byte. -/
def decodeTableWord (nbits w : Nat) : Option Instr :=
  match decode Config.strictIgnoredBits .bits64 (instructionBytes nbits w) with
  | .instr i => some i
  | _ => none

/-! ## The encoder (R50 to R65) -/

/-- What a ModRM:r/m operand puts into the encoding: X, B, `b`, `mod`, `rm`, and the bytes after ModRM. -/
structure RmEncoding where
  x : Bool
  b : Bool
  bcst : Bool
  md : BitVec 2
  rm : BitVec 3
  bytes : List Byte
  deriving DecidableEq, Repr

/-- The displacement bytes, least significant first (30_encoding.md R63, R64). -/
def Disp.bytes : Disp → List Byte
  | .absent => []
  | .d8 v => [v]
  | .d32 v => [v.extractLsb' 0 8, v.extractLsb' 8 8, v.extractLsb' 16 8, v.extractLsb' 24 8]

/-- `mod` of a memory operand with a base (30_encoding.md R62). -/
def Disp.md : Disp → BitVec 2
  | .absent => 0#2
  | .d8 _ => 1#2
  | .d32 _ => 2#2

/-- The SIB byte (30_encoding.md R62): index field 100 with X = 0 is "no index", base field 101 with `mod = 00` is "no
base". -/
def sibByte (ss : BitVec 2) (idx bs : GReg) : Byte :=
  byteOf (ss.getLsbD 1) (ss.getLsbD 0) (idx.getLsbD 2) (idx.getLsbD 1) (idx.getLsbD 0)
    (bs.getLsbD 2) (bs.getLsbD 1) (bs.getLsbD 0)

/-- The encoding of a ModRM:r/m operand (30_encoding.md R61, R62). -/
def RmOperand.encoding : RmOperand → RmEncoding
  | .reg r => ⟨r.getLsbD 4, r.getLsbD 3, false, 3#2, bits3 (r.getLsbD 2) (r.getLsbD 1) (r.getLsbD 0), []⟩
  | .mem bc (.ripRel d) => ⟨false, false, bc, 0#2, 5#3, (Disp.d32 d).bytes⟩
  | .mem bc (.abs32 d) => ⟨false, false, bc, 0#2, 5#3, (Disp.d32 d).bytes⟩
  | .mem bc (.base b d) => ⟨false, b.getLsbD 3, bc, d.md, bits3 (b.getLsbD 2) (b.getLsbD 1) (b.getLsbD 0), d.bytes⟩
  | .mem bc (.sib ss idx bs d) =>
    let i := idx.getD 4#4
    let b := bs.getD 5#4
    ⟨i.getLsbD 3, b.getLsbD 3, bc, if bs = none then 0#2 else d.md, 4#3, sibByte ss i b :: d.bytes⟩

/-- The bits of `L'L` (30_encoding.md R68). -/
def VLen.encoding : VLen → Bool × Bool
  | .l128 => (false, false)
  | .l256 => (false, true)
  | .l512 => (true, false)

/-- The form is of Op/En A: opcode 72H /0 in map 0F. -/
def OpEn.isA : OpEn → Bool
  | .a _ => true
  | .b _ => false

/-- The register number in `R':R:ModRM.reg`: the destination of Op/En B, 0 (the `/0` of the opcode) for Op/En A
(30_encoding.md R59, R60). -/
def Fields.regSlot (f : Fields) : VReg :=
  match f.op with
  | .a _ => 0#5
  | .b _ => f.dst

/-- The register number in `V':EVEX.vvvv`: the destination of Op/En A, the first source of Op/En B (30_encoding.md R59,
R60). -/
def Fields.vvvvSlot (f : Fields) : VReg :=
  match f.op with
  | .a _ => f.dst
  | .b src1 => src1

/-- The byte P0 (30_encoding.md R53). -/
def Fields.p0 (f : Fields) : Byte :=
  byteOf (!f.regSlot.getLsbD 3) (!f.rm.encoding.x) (!f.rm.encoding.b) (!f.regSlot.getLsbD 4) false false (!f.op.isA)
    f.op.isA

/-- The byte P1 (30_encoding.md R54). -/
def Fields.p1 (f : Fields) : Byte :=
  byteOf (f.w == .qword) (!f.vvvvSlot.getLsbD 3) (!f.vvvvSlot.getLsbD 2) (!f.vvvvSlot.getLsbD 1)
    (!f.vvvvSlot.getLsbD 0) true false true

/-- The byte P2 (30_encoding.md R55). -/
def Fields.p2 (f : Fields) : Byte :=
  byteOf f.e.z f.vl.encoding.1 f.vl.encoding.2 f.rm.encoding.bcst (!f.vvvvSlot.getLsbD 4)
    (f.e.aaa.getLsbD 2) (f.e.aaa.getLsbD 1) (f.e.aaa.getLsbD 0)

/-- The opcode byte (30_encoding.md R57). -/
def Fields.opcode (f : Fields) : Byte := if f.op.isA then 0x72#8 else 0x14#8

/-- The ModRM byte (30_encoding.md R58). -/
def Fields.modrm (f : Fields) : Byte :=
  byteOf (f.rm.encoding.md.getLsbD 1) (f.rm.encoding.md.getLsbD 0)
    (f.regSlot.getLsbD 2) (f.regSlot.getLsbD 1) (f.regSlot.getLsbD 0)
    (f.rm.encoding.rm.getLsbD 2) (f.rm.encoding.rm.getLsbD 1) (f.rm.encoding.rm.getLsbD 0)

/-- The six bytes 62 P0 P1 P2 opcode ModRM of an instruction (30_encoding.md R52 to R61). -/
def Fields.coreBytes (f : Fields) : List Byte := [0x62#8, f.p0, f.p1, f.p2, f.opcode, f.modrm]

/-- The immediate byte of Op/En A, the last byte (30_encoding.md R65). -/
def OpEn.bytes : OpEn → List Byte
  | .a i => [i]
  | .b _ => []

/-- The bytes of an instruction from its parts (30_encoding.md R50). -/
def Fields.encode (f : Fields) : List Byte :=
  f.e.overrides.map SegReg.toByte ++ f.coreBytes ++ f.rm.encoding.bytes ++ f.op.bytes

/-- The bytes of a well-formed instruction, in increasing address order (30_encoding.md R50). The same in 64-bit mode
and in 32-bit modes. Every ignored inverted bit is stored as 1 (R73). -/
def encode (i : Instr) : List Byte := i.fields.encode

/-! ## The opcode table -/

/-- One row of spec/opcode_table.json: the form, and `match` and `mask` over the six bytes 62 P0 P1 P2 opcode ModRM. -/
structure OpcodeRow where
  w : ElemWidth
  opA : Bool
  vl : VLen
  pattern : List Byte
  mask : List Byte
  deriving DecidableEq, Repr

/-- The mask of the rows of Op/En A: all of 62H, mmm, W and pp, L'L, the opcode, ModRM.reg. -/
def maskA : List Byte := [0xFF#8, 0x07#8, 0x83#8, 0x60#8, 0xFF#8, 0x38#8]

/-- The mask of the rows of Op/En B: the same without ModRM.reg. -/
def maskB : List Byte := [0xFF#8, 0x07#8, 0x83#8, 0x60#8, 0xFF#8, 0x00#8]

/-- The twelve rows of spec/opcode_table.json, in its order (R100 to R111). -/
def opcodeTable : List OpcodeRow :=
  [⟨.dword, true, .l128, [0x62#8, 0x01#8, 0x01#8, 0x00#8, 0x72#8, 0x00#8], maskA⟩,
   ⟨.dword, true, .l256, [0x62#8, 0x01#8, 0x01#8, 0x20#8, 0x72#8, 0x00#8], maskA⟩,
   ⟨.dword, true, .l512, [0x62#8, 0x01#8, 0x01#8, 0x40#8, 0x72#8, 0x00#8], maskA⟩,
   ⟨.dword, false, .l128, [0x62#8, 0x02#8, 0x01#8, 0x00#8, 0x14#8, 0x00#8], maskB⟩,
   ⟨.dword, false, .l256, [0x62#8, 0x02#8, 0x01#8, 0x20#8, 0x14#8, 0x00#8], maskB⟩,
   ⟨.dword, false, .l512, [0x62#8, 0x02#8, 0x01#8, 0x40#8, 0x14#8, 0x00#8], maskB⟩,
   ⟨.qword, true, .l128, [0x62#8, 0x01#8, 0x81#8, 0x00#8, 0x72#8, 0x00#8], maskA⟩,
   ⟨.qword, true, .l256, [0x62#8, 0x01#8, 0x81#8, 0x20#8, 0x72#8, 0x00#8], maskA⟩,
   ⟨.qword, true, .l512, [0x62#8, 0x01#8, 0x81#8, 0x40#8, 0x72#8, 0x00#8], maskA⟩,
   ⟨.qword, false, .l128, [0x62#8, 0x02#8, 0x81#8, 0x00#8, 0x14#8, 0x00#8], maskB⟩,
   ⟨.qword, false, .l256, [0x62#8, 0x02#8, 0x81#8, 0x20#8, 0x14#8, 0x00#8], maskB⟩,
   ⟨.qword, false, .l512, [0x62#8, 0x02#8, 0x81#8, 0x40#8, 0x14#8, 0x00#8], maskB⟩]

/-- Six bytes select a row: the bytes under the mask are the pattern. -/
def OpcodeRow.selects (r : OpcodeRow) (bytes : List Byte) : Bool :=
  List.zipWith (fun b m => b &&& m) bytes r.mask == r.pattern

/-- The rows of the opcode table that six bytes select. -/
def selectedRows (bytes : List Byte) : List OpcodeRow := opcodeTable.filter fun r => r.selects bytes

end Sys2Proof
end

