-- ==== Sys2Proof/Machine/State.lean ====
section
/-! DEFINITION. The machine's state (10_state.md) as plain data, its value after reset, and the reasons a step stops. -/

namespace Sys2Proof.Machine

/-- One segment register as the forms see it: base, limit, and whether it is null or readable (10_state.md R15,
20_memory.md R39, 60_exceptions.md R126). In 64-bit mode only the bases of FS and GS are used. The spec gives the limit no
width: 32 bits is the family's, PRESUMED (log 31). -/
structure Segment where
  base : Word64
  limit : BitVec 32
  null : Bool
  readable : Bool
  deriving DecidableEq, Repr

/-- The six segment registers (10_state.md R15). -/
structure Segments where
  es : Segment
  cs : Segment
  ss : Segment
  ds : Segment
  fs : Segment
  gs : Segment
  deriving DecidableEq, Repr

/-- A region of linear addresses that `Translate` admits (20_memory.md R40): `size` addresses from `base`. A region that
is not `user` is refused at privilege level 3, one that is not `exec` is refused to instruction fetch, one that is
`rsvd` has a reserved bit set in its paging entry (60_exceptions.md R127), and one that is `device` has read side
effects (20_memory.md R37). An address in no region is not present. -/
structure Region where
  base : Nat
  size : Nat
  user : Bool
  exec : Bool
  rsvd : Bool
  device : Bool
  deriving DecidableEq, Repr

/-- The linear memory (10_state.md R19): the listed bytes, in the canonical form of `Memory.wf`. -/
structure Memory where
  cells : List Host.Cell
  deriving DecidableEq, Repr

/-- The x87 state, which 10_state.md R27 names as untouched by every form: eight data registers, the control, status and
tag words, the last opcode, and the last instruction and data pointers with their selectors. The layout is the family's,
PRESUMED (log 30). -/
structure X87 where
  st : Vector (BitVec 80) 8
  control : BitVec 16
  status : BitVec 16
  tag : BitVec 16
  opcode : BitVec 11
  instrSelector : BitVec 16
  instrPointer : Word64
  dataSelector : BitVec 16
  dataPointer : Word64
  deriving DecidableEq, Repr

/-- One model-specific register: its number and its value (10_state.md R27; the widths are the family's, log 30). -/
structure Msr where
  number : BitVec 32
  value : Word64
  deriving DecidableEq, Repr

/-- The registers that the spec names only in the list of what every form leaves untouched (10_state.md R27): the x87
state, the model-specific registers other than IA32_EFER, and the control registers that no rule describes (CR3 and CR8
of the family; CR2 is left out by 60_exceptions.md R132). No form reads or writes them (log 30). -/
structure Untouched where
  x87 : X87
  msrs : List Msr
  cr3 : Word64
  cr8 : Word64
  deriving DecidableEq, Repr

/-- The machine. The spec gives bit numbers and reset values of RFLAGS, MXCSR and the control registers and no width:
the widths are the family's, PRESUMED (log 31). -/
structure State where
  /-- ZMM0 to ZMM31 (10_state.md R10); XMMn and YMMn are the low 128 and 256 bits (R11). -/
  zmm : Vector Vec 32
  /-- k0 to k7 (10_state.md R12). -/
  k : Vector Word64 8
  /-- The general registers, RAX to R15 (10_state.md R14). -/
  x : Vector Word64 16
  /-- The program counter (10_state.md R13). -/
  rip : Word64
  segs : Segments
  /-- The L bit of the code-segment descriptor (10_state.md R20, R23). -/
  csL : Bool
  /-- The D bit of the code-segment descriptor (10_state.md R23). -/
  csD : Bool
  /-- RFLAGS (10_state.md R16); 64 bits is PRESUMED (log 31). -/
  rflags : Word64
  /-- MXCSR (10_state.md R17); 32 bits is PRESUMED (log 31). -/
  mxcsr : BitVec 32
  /-- CR0 (10_state.md R20); 64 bits is PRESUMED (log 31). -/
  cr0 : Word64
  /-- CR4 (10_state.md R20); 64 bits is PRESUMED (log 31). -/
  cr4 : Word64
  /-- XCR0 (10_state.md R21); 64 bits is PRESUMED (log 31). -/
  xcr0 : Word64
  /-- IA32_EFER (10_state.md R20); 64 bits is PRESUMED (log 31). -/
  efer : Word64
  /-- What R27 names and no other rule describes (log 30). -/
  untouched : Untouched
  /-- The current privilege level (60_exceptions.md R137). -/
  cpl : BitVec 2
  /-- CPUID.(EAX=07H, ECX=0):EBX, read-only (10_state.md R22). -/
  cpuid7ebx : BitVec 32
  /-- CPUID.01H:ECX, read-only (70_reset_and_hazards.md R152). -/
  cpuid1ecx : BitVec 32
  mem : Memory
  /-- The translation oracle `Translate` (20_memory.md R40). -/
  map : List Region
  /-- The AVX-512 state components are marked in use (10_state.md R24). -/
  avx512InUse : Bool
  /-- The model's own counter of memory operands read; the open choices of `Config` are functions of it (log 16). -/
  choices : Nat
  deriving DecidableEq, Repr

/-- Why the machine stops with a fault: the terminal outcome `Fault(exception, error code, address)` of
60_exceptions.md R131. Safe: the faulted instruction has changed nothing. -/
inductive Fault
  /-- #UD, raised by the decoder and by every form when it is not enabled (60_exceptions.md R121). Safe. -/
  | ud
  /-- #NM, raised by every form when CR0.TS = 1 (60_exceptions.md R122). Safe. -/
  | nm
  /-- #SS(0), raised by a memory form for a bad address through SS (60_exceptions.md R125). Safe. -/
  | ss
  /-- #GP(0), raised by a memory form for a bad address through another segment, by the fetch, and for a length over 15
  bytes (60_exceptions.md R126, R129). Safe. -/
  | gp
  /-- #PF(code), with the linear address, raised by a memory form and by the fetch (60_exceptions.md R127). Safe. -/
  | pf (code : BitVec 32) (address : Word64)
  /-- #AC(0), raised by a memory form under alignment checking (60_exceptions.md R128). Safe. -/
  | ac
  deriving DecidableEq, Repr

/-- Why the machine refuses, which is neither a fault nor a no-op. -/
inductive Refusal
  /-- Raised by an arm of `exec` for an instruction without a meaning. Safe. No arm answers with it. -/
  | notModelled (mnemonic : String)
  /-- Raised by `step` for bytes that are no in-scope instruction (30_encoding.md R72). Safe. -/
  | notInScope
  /-- Raised by `step` for the address-size byte 67H before the EVEX prefix (30_encoding.md R70, D23). Safe. -/
  | addressSizeOverride
  /-- Raised by `step` under the strict reading for an ignored prefix bit stored as 0 (30_encoding.md R73). Safe. -/
  | ignoredBit
  /-- Raised by `step` and by a meaning for a memory form in code with 16-bit addressing, which 00_scope.md section 3
  leaves out. Safe. -/
  | addressing16
  /-- Raised by a memory form, and by the fetch, on a region with read side effects (20_memory.md R37). Safe. -/
  | deviceMemory
  /-- Raised by `step` for an instruction that begins at a good address and has a byte past the wrap or at an address
  that is not canonical, and by `runProgram` for a program with such a byte (10_state.md R13). Safe. -/
  | fetchWrap
  deriving DecidableEq, Repr

/-- What a step or a meaning answers. -/
abbrev Result := Host.Outcome State Fault Refusal

/-- A segment register after reset but for its base: PRESUMED, the family's real-address values (log 3). -/
def Segment.ofBase (base : Word64) : Segment := ⟨base, 0xFFFF#32, false, true⟩

/-- The x87 state after power-up: PRESUMED, the family's values (log 30). -/
def X87.reset : X87 where
  st := Vector.replicate 8 0
  control := 0x40#16
  status := 0
  tag := 0x5555#16
  opcode := 0
  instrSelector := 0
  instrPointer := 0
  dataSelector := 0
  dataPointer := 0

/-- What R27 names and no other rule describes, after power-up (log 30). -/
def Untouched.reset : Untouched := ⟨X87.reset, [], 0, 0⟩

/-- The machine after power-up or RESET (10_state.md R25, 70_reset_and_hazards.md R150). RDX holds a processor
signature whose value the spec does not give: PRESUMED (log 2). -/
def State.reset : State where
  zmm := Vector.replicate 32 0
  k := Vector.replicate 8 0
  x := (Vector.replicate 16 0).set 2 0x00050654#64
  rip := 0xFFF0#64
  segs :=
    { es := Segment.ofBase 0
      cs := Segment.ofBase 0xFFFF0000#64
      ss := Segment.ofBase 0
      ds := Segment.ofBase 0
      fs := Segment.ofBase 0
      gs := Segment.ofBase 0 }
  csL := false
  csD := false
  rflags := 0x2#64
  mxcsr := 0x1F80#32
  cr0 := 0x60000010#64
  cr4 := 0
  xcr0 := 1
  efer := 0
  untouched := Untouched.reset
  cpl := 0
  cpuid7ebx := 0x80010000#32
  cpuid1ecx := 0x04000000#32
  mem := ⟨[]⟩
  map := []
  avx512InUse := false
  choices := 0

end Sys2Proof.Machine
end

