-- ==== Sys2Proof/Machine/Flags.lean ====
section
/-! DEFINITION. The bits of the status, control and feature registers that bear on the forms (10_state.md R16, R20 to
R23), and the operating mode. No form writes a flag (10_state.md R16), so there is no flag computation. -/

namespace Sys2Proof.Machine

/-- The operating mode (10_state.md R23). -/
inductive Mode
  | real | virtual8086 | mode32 | mode64
  deriving DecidableEq, Repr

/-- CR0.PE, bit 0 (10_state.md R20). -/
def State.cr0PE (s : State) : Bool := s.cr0.getLsbD 0

/-- CR0.TS, bit 3 (10_state.md R20). -/
def State.cr0TS (s : State) : Bool := s.cr0.getLsbD 3

/-- CR0.AM, bit 18 (10_state.md R20). -/
def State.cr0AM (s : State) : Bool := s.cr0.getLsbD 18

/-- CR0.PG, bit 31 (10_state.md R20). -/
def State.cr0PG (s : State) : Bool := s.cr0.getLsbD 31

/-- CR4.OSXSAVE, bit 18 (10_state.md R20). -/
def State.cr4OSXSAVE (s : State) : Bool := s.cr4.getLsbD 18

/-- CR4.LA57, bit 12 (10_state.md R20). -/
def State.cr4LA57 (s : State) : Bool := s.cr4.getLsbD 12

/-- IA32_EFER.LMA, bit 10 (10_state.md R20). -/
def State.eferLMA (s : State) : Bool := s.efer.getLsbD 10

/-- RFLAGS.AC, bit 18 (10_state.md R16). -/
def State.rflagsAC (s : State) : Bool := s.rflags.getLsbD 18

/-- RFLAGS.VM (10_state.md R23). PRESUMED: bit 17 (log 7). -/
def State.rflagsVM (s : State) : Bool := s.rflags.getLsbD 17

/-- RFLAGS.TF (60_exceptions.md R141). PRESUMED: bit 8 (log 7). -/
def State.rflagsTF (s : State) : Bool := s.rflags.getLsbD 8

/-- XCR0[7:5] = 111b and XCR0[2:1] = 11b: the needed state components are enabled (10_state.md R21). -/
def State.xcr0Enabled (s : State) : Bool :=
  s.xcr0.getLsbD 7 && s.xcr0.getLsbD 6 && s.xcr0.getLsbD 5 && s.xcr0.getLsbD 2 && s.xcr0.getLsbD 1

/-- `HAS_AVX512F`: CPUID.(EAX=07H, ECX=0):EBX bit 16 (10_state.md R22). -/
def State.hasAvx512f (s : State) : Bool := s.cpuid7ebx.getLsbD 16

/-- `HAS_AVX512VL`: CPUID.(EAX=07H, ECX=0):EBX bit 31 (10_state.md R22). -/
def State.hasAvx512vl (s : State) : Bool := s.cpuid7ebx.getLsbD 31

/-- The operating mode as a function of the control state (10_state.md R20, R23): CR0.PE = 0 is real-address mode, LMA
with CS.L is 64-bit mode. PRESUMED: RFLAGS.VM counts only outside IA-32e mode (log 7). -/
def State.mode (s : State) : Mode :=
  if s.cr0PE then
    if s.eferLMA then (if s.csL then .mode64 else .mode32)
    else if s.rflagsVM then .virtual8086
    else .mode32
  else .real

/-- The processor is in 64-bit mode. -/
def State.long (s : State) : Bool := s.mode == .mode64

/-- By which rules code is decoded (30_encoding.md R74). Memory is addressed with 32 bits in a 32-bit mode whose code
segment has D = 1 (10_state.md R23), and with 16 bits where D = 0 (log 9) and in real-address and virtual-8086 mode
(PRESUMED, log 28). -/
def State.codeSize (s : State) : CodeSize :=
  match s.mode with
  | .mode64 => .bits64
  | .mode32 => if s.csD then .bits32 else .bits16
  | .real => .bits16
  | .virtual8086 => .bits16

/-- `LA_BITS`: 57 when CR4.LA57 is set, else 48 (10_state.md R20). -/
def State.laBits (s : State) : Nat := if s.cr4LA57 then 57 else 48

/-- The form's CPUID flags are set: AVX512F, and AVX512VL too for the 128- and 256-bit forms (00_scope.md R2). -/
def State.hasForm (s : State) (vl : VLen) : Bool :=
  s.hasAvx512f && (vl == .l512 || s.hasAvx512vl)

/-- Privilege level 3. -/
def State.userLevel (s : State) : Bool := s.cpl == 3#2

/-- `AC_ENABLED`: CR0.AM = 1, RFLAGS.AC = 1, privilege level 3 (60_exceptions.md R128). -/
def State.alignmentChecking (s : State) : Bool := s.cr0AM && s.rflagsAC && s.userLevel

end Sys2Proof.Machine
end

