-- ==== Sys2Proof/Machine/Ops.lean ====
section
/-! DEFINITION. The named operations over registers and memory, translation, and the raising of an exception. -/

namespace Sys2Proof.Machine

/-! ## Exceptions -/

/-- Takes an exception: the terminal outcome of 60_exceptions.md R131. The state before the instruction stands; there is
no delivery and no return (00_scope.md section 3, R134, R135). -/
def raise (f : Fault) : Result := .fault f

/-- The vector number of an exception (60_exceptions.md R129). -/
def Fault.vector : Fault → Nat
  | .ud => 6
  | .nm => 7
  | .ss => 12
  | .gp => 13
  | .pf _ _ => 14
  | .ac => 17

/-- The error code an exception records, if it records one (60_exceptions.md R132). -/
def Fault.errorCode : Fault → Option (BitVec 32)
  | .ud => none
  | .nm => none
  | .ss => some 0
  | .gp => some 0
  | .pf c _ => some c
  | .ac => some 0

/-- The linear address a page fault records (60_exceptions.md R132). -/
def Fault.address : Fault → Option Word64
  | .pf _ a => some a
  | _ => none

/-- What stops an instruction before it completes: a fault or a refusal. -/
inductive Stop
  | fault (f : Fault)
  | refuse (r : Refusal)
  deriving DecidableEq, Repr

/-- The outcome of an instruction that stops: an exception taken, or a refusal. -/
def Stop.result : Stop → Result
  | .fault f => raise f
  | .refuse r => .refused r

/-! ## Packed elements -/

/-- Elements 0 to `n - 1` of width `w`, element `j` in bits `j*w + w - 1` to `j*w`, zeros above (00_scope.md R8). -/
def packElems (w : Nat) (f : Nat → BitVec w) : Nat → Vec
  | 0 => 0
  | n + 1 => packElems w f n ||| ((f n).setWidth 512 <<< (n * w))

/-- Element `j` of width `w` of a vector (20_memory.md R34). -/
def elem (w : Nat) (v : Vec) (j : Nat) : BitVec w := v.extractLsb' (j * w) w

/-! ## Registers -/

/-- `zmm[n]` (00_scope.md R9). -/
def State.readZmm (s : State) (n : VReg) : Vec :=
  s.zmm[n.toNat]'(by have := n.isLt; omega)

/-- `zmm[n] <- v` (00_scope.md R9): all 512 bits (10_state.md R11). Writing a vector register marks the AVX-512 state
components as in use (10_state.md R24). -/
def State.writeZmm (s : State) (n : VReg) (v : Vec) : State :=
  { s with zmm := s.zmm.set n.toNat v (by have := n.isLt; omega), avx512InUse := true }

/-- `k[n]` (00_scope.md R9). -/
def State.readK (s : State) (n : KReg) : Word64 :=
  s.k[n.toNat]'(by have := n.isLt; omega)

/-- `x[n]` (00_scope.md R9). -/
def State.readX (s : State) (n : GReg) : Word64 :=
  s.x[n.toNat]'(by have := n.isLt; omega)

/-- A segment register (10_state.md R15). -/
def State.segment (s : State) : SegReg → Segment
  | .es => s.segs.es
  | .cs => s.segs.cs
  | .ss => s.segs.ss
  | .ds => s.segs.ds
  | .fs => s.segs.fs
  | .gs => s.segs.gs

/-- The address of the next instruction: `pc + len` truncated to 64 bits, in other modes to 32 (10_state.md R13). -/
def State.nextRip (s : State) (len : Nat) : Word64 :=
  if s.long then s.rip + BitVec.ofNat 64 len
  else ((s.rip + BitVec.ofNat 64 len).setWidth 32).setWidth 64

/-- `pc <- pc + len` (40_rotate_common.md R90). -/
def State.advance (s : State) (len : Nat) : State := { s with rip := s.nextRip len }

/-- One more memory operand has been read: the next open choice is a new one (log 16). -/
def State.countRead (s : State) (isMem : Bool) : State :=
  if isMem then { s with choices := s.choices + 1 } else s

/-! ## Memory -/

/-- The byte listed for address `a`, or what an unlisted byte reads as. -/
def readCells (a : Nat) : List Host.Cell → Byte
  | [] => Config.unlistedByte
  | (b, v) :: rest => if b = a then v else readCells a rest

/-- The cells with `v` at address `a`; writing what an unlisted byte reads as removes the cell. -/
def writeCells (a : Nat) (v : Byte) : List Host.Cell → List Host.Cell
  | [] => if v = Config.unlistedByte then [] else [(a, v)]
  | (b, u) :: rest =>
    if a < b then (if v = Config.unlistedByte then (b, u) :: rest else (a, v) :: (b, u) :: rest)
    else if a = b then (if v = Config.unlistedByte then rest else (a, v) :: rest)
    else (b, u) :: writeCells a v rest

/-- The cells stand in rising order above `lo`, below 2^64, and none equals what an unlisted byte reads as. -/
def cellsWf (lo : Nat) : List Host.Cell → Bool
  | [] => true
  | (b, v) :: rest => decide (lo ≤ b) && decide (b < 2 ^ 64) && v != Config.unlistedByte && cellsWf (b + 1) rest

/-- The canonical form of memory: addresses strictly rising and below 2^64, no cell equal to what an unlisted byte reads
as. -/
def Memory.wf (m : Memory) : Bool := cellsWf 0 m.cells

/-- The byte at a linear address (10_state.md R19). -/
def Memory.read (m : Memory) (a : Word64) : Byte := readCells a.toNat m.cells

/-- Stores one byte. No instruction uses it (20_memory.md R36); a program is loaded with it. -/
def Memory.write (m : Memory) (a : Word64) (v : Byte) : Memory := ⟨writeCells a.toNat v m.cells⟩

/-- Stores bytes at rising addresses (`MemWrite` of 00_scope.md R9). -/
def Memory.writeBytes (m : Memory) (a : Word64) : List Byte → Memory
  | [] => m
  | b :: rest => (m.write a b).writeBytes (a + 1) rest

/-- Stores bytes, byte `i` on at the addresses that `addr` gives. -/
def Memory.writeEach (m : Memory) (addr : Nat → Word64) (i : Nat) : List Byte → Memory
  | [] => m
  | b :: rest => (m.write (addr i) b).writeEach addr (i + 1) rest

/-! ## Addresses and translation -/

/-- An address in 64 bits, in other modes its low 32 bits (20_memory.md R39). -/
def State.truncAddr (s : State) (a : Word64) : Word64 :=
  if s.long then a else (a.setWidth 32).setWidth 64

/-- Bits 63 down to `bits - 1` of the address are all equal (20_memory.md R39). -/
def canonical (bits : Nat) (a : Word64) : Bool :=
  decide (a.toNat < 2 ^ (bits - 1) ∨ 2 ^ 64 - 2 ^ (bits - 1) ≤ a.toNat)

/-- What an access asks of `Translate`: a read of an operand, or the fetch of an instruction byte. -/
inductive AccessKind
  | read | fetch
  deriving DecidableEq, Repr

/-- What `Translate` answers for one byte: admitted, admitted in a region with read side effects, or refused with a
page-fault code (20_memory.md R37, R40). -/
inductive Translation
  | admitted
  | device
  | pageFault (code : BitVec 32)
  deriving DecidableEq, Repr

/-- The region holds the address. -/
def Region.holds (r : Region) (a : Nat) : Bool := decide (r.base ≤ a ∧ a < r.base + r.size)

/-- The page-fault code (60_exceptions.md R127): bit 0 P, bit 1 W/R = 0, bit 2 U/S, bit 3 RSVD, bit 4 I/D. -/
def pageFaultCode (p us rsvd id : Bool) : BitVec 32 :=
  BitVec.ofNat 32 (p.toNat + us.toNat * 4 + rsvd.toNat * 8 + id.toNat * 16)

/-- `Translate` for one byte (20_memory.md R40): the first region that holds the address decides. Without paging
(CR0.PG = 0, 10_state.md R20) nothing is refused. -/
def State.translate (s : State) (kind : AccessKind) (a : Word64) : Translation :=
  let us := s.userLevel
  let id := kind == .fetch
  match s.map.find? (fun r => r.holds a.toNat) with
  | none => if s.cr0PG then .pageFault (pageFaultCode false us false id) else .admitted
  | some r =>
    if s.cr0PG && r.rsvd then .pageFault (pageFaultCode true us true id)
    else if s.cr0PG && ((us && !r.user) || (id && !r.exec)) then .pageFault (pageFaultCode true us false id)
    else if r.device then .device
    else .admitted

/-! ## The enabling state -/

/-- The fault of a form that is not enabled: #UD in real-address and virtual-8086 mode, without OSXSAVE, the XCR0 bits
or the form's CPUID flags (60_exceptions.md R121); else #NM with CR0.TS (R122). CR0.EM = 1 has no effect on a form:
DESIGN CHOICE, since 70_reset_and_hazards.md R152 asks for EM = 0 and no rule says what happens otherwise (log 32). -/
def State.enableFault (s : State) (vl : VLen) : Option Fault :=
  if s.mode == .real || s.mode == .virtual8086 || !s.cr4OSXSAVE || !s.xcr0Enabled || !s.hasForm vl then some .ud
  else if s.cr0TS then some .nm
  else none

end Sys2Proof.Machine
end

