-- ==== Sys2Proof/Machine/Operands.lean ====
section
/-! DEFINITION. The operand forms: effective and linear addresses, the one memory read and its faults, and the writemask
(20_memory.md R30 to R42). -/

namespace Sys2Proof.Machine

/-! ## The writemask (R66, R85) -/

/-- Element `j` is to be computed: there is no writemask, or its bit `j` is 1 (40_rotate_common.md R84). -/
def State.active (s : State) (e : Evex) (j : Nat) : Bool :=
  e.aaa == 0#3 || (s.readK e.aaa).getLsbD j

/-! ## Addresses (R38, R39) -/

/-- The number of elements `KL` (00_scope.md R5). -/
def numElems (w : ElemWidth) (vl : VLen) : Nat := vl.bits / w.bits

/-- The bytes a memory operand takes, which is also N of a one-byte displacement: the element with broadcast, else the
vector (20_memory.md R31, R32, 30_encoding.md R64). -/
def operandBytes (w : ElemWidth) (vl : VLen) (bcst : Bool) : Nat :=
  if bcst then w.bits / 8 else vl.bits / 8

/-- The displacement in 64 bits: a single byte is scaled by `n` (30_encoding.md R63, R64). -/
def dispValue (n : Nat) : Disp → Word64
  | .absent => 0
  | .d8 v => v.signExtend 64 * BitVec.ofNat 64 n
  | .d32 v => v.signExtend 64

/-- The effective address (20_memory.md R38); all additions wrap modulo 2^64, in 32-bit modes modulo 2^32
(30_encoding.md R74). `len` is the instruction's length, `n` the factor of a one-byte displacement. -/
def State.effectiveAddress (s : State) (len n : Nat) (m : MemOp) : Word64 :=
  s.truncAddr <|
    match m with
    | .ripRel d => s.rip + BitVec.ofNat 64 len + d.signExtend 64
    | .abs32 d => d.signExtend 64
    | .base b d => s.readX b + dispValue n d
    | .sib ss idx bs d =>
      (match bs with
        | some b => s.readX b
        | none => 0) +
      (match idx with
        | some i => s.readX i <<< ss.toNat
        | none => 0) + dispValue n d

/-- The base register of a memory operand, if it has one. -/
def memBase : MemOp → Option GReg
  | .ripRel _ => none
  | .abs32 _ => none
  | .base b _ => some b
  | .sib _ _ bs _ => bs

/-- SS for a base of RSP or RBP, else DS (20_memory.md R39). -/
def defaultSegment (m : MemOp) : SegReg :=
  if memBase m = some 4#4 ∨ memBase m = some 5#4 then .ss else .ds

/-- The override that counts among several: the only one named, or, where different segments are named, an open choice
(log 15). -/
def chooseOverride (dflt : SegReg) : List SegReg → SegReg
  | [] => dflt
  | o :: os =>
    if os.all (· == o) then o
    else ((o :: os)[Config.overrideChoice ((o :: os).map SegReg.toByte) % (os.length + 1)]?).getD o

/-- The segment of a memory operand (20_memory.md R39, 30_encoding.md R70): in 64-bit mode only FS and GS overrides have
an effect; in 32-bit modes all six have (log 27). -/
def State.operandSegment (s : State) (overrides : List SegReg) (m : MemOp) : SegReg :=
  chooseOverride (defaultSegment m)
    (if s.long then overrides.filter (fun o => o == .fs || o == .gs) else overrides)

/-- The base that is added: in 64-bit mode 0 but for FS and GS (10_state.md R15). -/
def State.segmentBase (s : State) (seg : SegReg) : Word64 :=
  if s.long && !(seg == .fs || seg == .gs) then 0 else (s.segment seg).base

/-- A memory operand with its address computed: segment, effective address, and the number of bytes read. -/
structure MemRef where
  seg : SegReg
  ea : Word64
  size : Nat
  deriving DecidableEq, Repr

/-- The memory operand of a form (20_memory.md R38, R39). -/
def State.memRef (s : State) (w : ElemWidth) (vl : VLen) (len : Nat) (e : Evex) (bcst : Bool) (m : MemOp) : MemRef :=
  { seg := s.operandSegment e.overrides m
    ea := s.effectiveAddress len (operandBytes w vl bcst) m
    size := operandBytes w vl bcst }

/-- The linear address `LA` (20_memory.md R39). -/
def State.linear (s : State) (r : MemRef) : Word64 := s.truncAddr (s.segmentBase r.seg + r.ea)

/-- The linear address of byte `i` of the operand: `LA + i` (20_memory.md R34), within the address width (log 22). -/
def State.byteAddr (s : State) (r : MemRef) (i : Nat) : Word64 := s.truncAddr (s.linear r + BitVec.ofNat 64 i)

/-! ## The faults of the read (R125 to R128, R130) -/

/-- Byte `i` of the operand has a good address (20_memory.md R39): canonical in 64-bit mode; in 32-bit modes within the
limit of a segment that is not null and is readable (60_exceptions.md R126). -/
def State.addressOk (s : State) (r : MemRef) (i : Nat) : Bool :=
  if s.long then canonical s.laBits (s.byteAddr r i)
  else !(s.segment r.seg).null && (s.segment r.seg).readable &&
    decide (r.ea.toNat + i ≤ (s.segment r.seg).limit.toNat)

/-- #SS(0) for a bad address through SS, #GP(0) through another segment (60_exceptions.md R125, R126). -/
def segmentFault (seg : SegReg) : Fault := if seg == .ss then .ss else .gp

/-- The page faults of the given bytes of the operand: code and linear address of each byte that `Translate` refuses. -/
def State.pageFaults (s : State) (r : MemRef) (offs : List Nat) : List (BitVec 32 × Word64) :=
  offs.filterMap fun i =>
    match s.translate .read (s.byteAddr r i) with
    | .pageFault c => some (c, s.byteAddr r i)
    | _ => none

/-- The page fault that is reported, of one or more: some refused byte, open which (60_exceptions.md R127, log 14). -/
def pickPageFault (n : Nat) (first : BitVec 32 × Word64) (rest : List (BitVec 32 × Word64)) : Fault :=
  match rest with
  | [] => .pf first.1 first.2
  | _ :: _ =>
    let p := ((first :: rest)[Config.pageFaultByte n % (rest.length + 1)]?).getD first
    .pf p.1 p.2

/-- The operand is not aligned and alignment checking is on, and the open choice is to fault (60_exceptions.md R128,
log 12). -/
def State.alignmentFaults (s : State) (r : MemRef) : Bool :=
  s.alignmentChecking && (s.linear r).toNat % r.size != 0 && Config.alignmentFault s.choices

/-- The fault of reading the given bytes of the operand, in the order of 60_exceptions.md R130: a bad address, then #AC
or #PF, whose order is open (log 13). -/
def State.bytesFault (s : State) (r : MemRef) (offs : List Nat) : Option Fault :=
  if offs.any (fun i => !s.addressOk r i) then some (segmentFault r.seg)
  else
    match s.pageFaults r offs with
    | [] => if s.alignmentFaults r then some .ac else none
    | p :: ps =>
      if s.alignmentFaults r && Config.alignmentFaultFirst s.choices then some .ac
      else some (pickPageFault s.choices p ps)

/-- Byte `i` of the operand belongs to an element that is to be computed; with broadcast, to the one element that any
computed element uses (20_memory.md R42). -/
def State.byteActive (s : State) (w : ElemWidth) (vl : VLen) (e : Evex) (bcst : Bool) (i : Nat) : Bool :=
  if bcst then (List.range (numElems w vl)).any (s.active e) else s.active e (i / (w.bits / 8))

/-- The fault of the memory read. Where some bytes belong to masked-off elements only, it is open whether the faults of
those bytes are reported (20_memory.md R42, log 11). -/
def State.memFault (s : State) (r : MemRef) (act : Nat → Bool) : Option Fault :=
  match s.bytesFault r (List.range r.size) with
  | none => none
  | some f =>
    if (List.range r.size).all act then some f
    else if Config.suppressMaskedFault s.choices then s.bytesFault r ((List.range r.size).filter act)
    else some f

/-- Some byte of the operand that has a good address lies in a region with read side effects (20_memory.md R37). -/
def State.touchesDevice (s : State) (r : MemRef) : Bool :=
  (List.range r.size).any fun i => s.addressOk r i && s.translate .read (s.byteAddr r i) == .device

/-- `MemRead(LA, n)` (00_scope.md R9): little-endian (20_memory.md R33), as the low bits of a vector. -/
def State.readBytes (s : State) (r : MemRef) : Vec :=
  packElems 8 (fun i => s.mem.read (s.byteAddr r i)) r.size

/-- The operand vector a memory operand gives: the bytes as they stand, or the one element copied to every position
(20_memory.md R31, R32). -/
def State.memVector (s : State) (w : ElemWidth) (vl : VLen) (bcst : Bool) (r : MemRef) : Vec :=
  if bcst then packElems w.bits (fun _ => elem w.bits (s.readBytes r) 0) (numElems w vl) else s.readBytes r

/-- The ModRM:r/m operand as a vector, or why the instruction stops (40_rotate_common.md R91 step 3). 16-bit addressing,
which a code segment with D = 0 selects outside 64-bit mode, is refused (00_scope.md section 3, log 9). -/
def State.readRm (s : State) (w : ElemWidth) (vl : VLen) (len : Nat) (e : Evex) : RmOperand → Except Stop Vec
  | .reg n => .ok (s.readZmm n)
  | .mem bcst m =>
    if !s.long && !s.csD then .error (.refuse .addressing16)
    else
      let r := s.memRef w vl len e bcst m
      match s.memFault r (s.byteActive w vl e bcst) with
      | some f => .error (.fault f)
      | none => if s.touchesDevice r then .error (.refuse .deviceMemory) else .ok (s.memVector w vl bcst r)

/-- The ModRM:r/m operand is in memory (30_encoding.md R58). -/
def isMem : RmOperand → Bool
  | .reg _ => false
  | .mem _ _ => true

end Sys2Proof.Machine
end

