-- ==== Sys2Proof/Machine/Rotate.lean ====
section
/-! DEFINITION. The rotate, the element loop, and the two operand encodings over them (40_rotate_common.md). -/

namespace Sys2Proof.Machine

/-- `ROR_w(v, c)` (40_rotate_common.md R80, R81): with `n = c mod w`, `(v >> n) | (v << (w - n))` on unbounded naturals,
truncated to `w` bits (R83). -/
def ror (w : Nat) (v : BitVec w) (c : Nat) : BitVec w :=
  BitVec.ofNat w ((v.toNat >>> (c % w)) ||| (v.toNat <<< (w - c % w)))

/-- Element `j` of the new value: rotated, kept (merging-masking), or zero (zeroing-masking) (40_rotate_common.md R84,
R85). -/
def newElem (w : ElemWidth) (src : Vec) (count : Nat → Nat) (active : Nat → Bool) (z : Bool) (old : Vec) (j : Nat) :
    BitVec w.bits :=
  if active j then ror w.bits (elem w.bits src j) (count j)
  else if z then 0
  else elem w.bits old j

/-- The value `NEW` of 40_rotate_common.md R84: elements 0 to `KL - 1`, and zeros in bits 511 to `VL` (R86). -/
def rotateVector (w : ElemWidth) (vl : VLen) (src : Vec) (count : Nat → Nat) (active : Nat → Bool) (z : Bool)
    (old : Vec) : Vec :=
  packElems w.bits (newElem w src count active z old) (numElems w vl)

/-- The state after a form has completed: `zmm[dest] <- NEW; pc <- pc + len` (40_rotate_common.md R91 steps 4 to 6). All
inputs are read before the write (R87). -/
def State.complete (s : State) (w : ElemWidth) (vl : VLen) (len : Nat) (e : Evex) (dst : VReg) (src : Vec)
    (count : Nat → Nat) (readMem : Bool) : State :=
  ((s.writeZmm dst (rotateVector w vl src count (s.active e) e.z (s.readZmm dst))).advance len).countRead readMem

/-- One execution of a form (40_rotate_common.md R91): the enabling state, then the ModRM:r/m operand, then the result,
where `operands` gives the vector to rotate and the counts from the ModRM:r/m vector. -/
def execForm (w : ElemWidth) (vl : VLen) (len : Nat) (e : Evex) (dst : VReg) (rm : RmOperand)
    (operands : Vec → Vec × (Nat → Nat)) (s : State) : Result :=
  match s.enableFault vl with
  | some f => raise f
  | none =>
    match s.readRm w vl len e rm with
    | .error stop => stop.result
    | .ok v => .next (s.complete w vl len e dst (operands v).1 (operands v).2 (isMem rm))

/-- An immediate form (Op/En A): the ModRM:r/m vector is rotated, every count is imm8 (41_vprord.md, 43_vprorq.md). -/
def execImmediate (w : ElemWidth) (vl : VLen) (len : Nat) (e : Evex) (dst : VReg) (src : RmOperand) (imm : BitVec 8)
    (s : State) : Result :=
  execForm w vl len e dst src (fun v => (v, fun _ => imm.toNat)) s

/-- A variable form (Op/En B): the register in EVEX.vvvv is rotated, count `j` is element `j` of the ModRM:r/m vector
(42_vprorvd.md, 44_vprorvq.md). -/
def execVariable (w : ElemWidth) (vl : VLen) (len : Nat) (e : Evex) (dst src : VReg) (cnt : RmOperand) (s : State) :
    Result :=
  execForm w vl len e dst cnt (fun v => (s.readZmm src, fun j => (elem w.bits v j).toNat)) s

end Sys2Proof.Machine
end

