-- ==== Sys2Proof/Machine/Vprord.lean ====
section
/-! DEFINITION. The meanings of the three forms of VPRORD (41_vprord.md R100 to R102). -/

namespace Sys2Proof.Machine

/-- VPRORD, 128-bit form (41_vprord.md R100). -/
def execVprord128 (e : Evex) (dst : VReg) (src : RmOperand) (imm : BitVec 8) (s : State) : Result :=
  execImmediate .dword .l128 (Instr.vprord128 e dst src imm).length e dst src imm s

/-- VPRORD, 256-bit form (41_vprord.md R101). -/
def execVprord256 (e : Evex) (dst : VReg) (src : RmOperand) (imm : BitVec 8) (s : State) : Result :=
  execImmediate .dword .l256 (Instr.vprord256 e dst src imm).length e dst src imm s

/-- VPRORD, 512-bit form (41_vprord.md R102). -/
def execVprord512 (e : Evex) (dst : VReg) (src : RmOperand) (imm : BitVec 8) (s : State) : Result :=
  execImmediate .dword .l512 (Instr.vprord512 e dst src imm).length e dst src imm s

end Sys2Proof.Machine
end

