-- ==== Sys2Proof/Machine/Vprorq.lean ====
section
/-! DEFINITION. The meanings of the three forms of VPRORQ (43_vprorq.md R106 to R108). -/

namespace Sys2Proof.Machine

/-- VPRORQ, 128-bit form (43_vprorq.md R106). -/
def execVprorq128 (e : Evex) (dst : VReg) (src : RmOperand) (imm : BitVec 8) (s : State) : Result :=
  execImmediate .qword .l128 (Instr.vprorq128 e dst src imm).length e dst src imm s

/-- VPRORQ, 256-bit form (43_vprorq.md R107). -/
def execVprorq256 (e : Evex) (dst : VReg) (src : RmOperand) (imm : BitVec 8) (s : State) : Result :=
  execImmediate .qword .l256 (Instr.vprorq256 e dst src imm).length e dst src imm s

/-- VPRORQ, 512-bit form (43_vprorq.md R108). -/
def execVprorq512 (e : Evex) (dst : VReg) (src : RmOperand) (imm : BitVec 8) (s : State) : Result :=
  execImmediate .qword .l512 (Instr.vprorq512 e dst src imm).length e dst src imm s

end Sys2Proof.Machine
end

