-- ==== Sys2Proof/Machine/Vprorvd.lean ====
section
/-! DEFINITION. The meanings of the three forms of VPRORVD (42_vprorvd.md R103 to R105). -/

namespace Sys2Proof.Machine

/-- VPRORVD, 128-bit form (42_vprorvd.md R103). -/
def execVprorvd128 (e : Evex) (dst src : VReg) (cnt : RmOperand) (s : State) : Result :=
  execVariable .dword .l128 (Instr.vprorvd128 e dst src cnt).length e dst src cnt s

/-- VPRORVD, 256-bit form (42_vprorvd.md R104). -/
def execVprorvd256 (e : Evex) (dst src : VReg) (cnt : RmOperand) (s : State) : Result :=
  execVariable .dword .l256 (Instr.vprorvd256 e dst src cnt).length e dst src cnt s

/-- VPRORVD, 512-bit form (42_vprorvd.md R105). -/
def execVprorvd512 (e : Evex) (dst src : VReg) (cnt : RmOperand) (s : State) : Result :=
  execVariable .dword .l512 (Instr.vprorvd512 e dst src cnt).length e dst src cnt s

end Sys2Proof.Machine
end

