-- ==== Sys2Proof/Machine/Vprorvq.lean ====
section
/-! DEFINITION. The meanings of the three forms of VPRORVQ (44_vprorvq.md R109 to R111). -/

namespace Sys2Proof.Machine

/-- VPRORVQ, 128-bit form (44_vprorvq.md R109). -/
def execVprorvq128 (e : Evex) (dst src : VReg) (cnt : RmOperand) (s : State) : Result :=
  execVariable .qword .l128 (Instr.vprorvq128 e dst src cnt).length e dst src cnt s

/-- VPRORVQ, 256-bit form (44_vprorvq.md R110). -/
def execVprorvq256 (e : Evex) (dst src : VReg) (cnt : RmOperand) (s : State) : Result :=
  execVariable .qword .l256 (Instr.vprorvq256 e dst src cnt).length e dst src cnt s

/-- VPRORVQ, 512-bit form (44_vprorvq.md R111). -/
def execVprorvq512 (e : Evex) (dst src : VReg) (cnt : RmOperand) (s : State) : Result :=
  execVariable .qword .l512 (Instr.vprorvq512 e dst src cnt).length e dst src cnt s

end Sys2Proof.Machine
end

