-- ==== Sys2Proof/Machine/Dispatch.lean ====
section
/-! DEFINITION. The dispatch of each instruction to its meaning. -/

namespace Sys2Proof.Machine

def exec (i : Instr) (s : State) : Host.Outcome State Fault Refusal :=
  match i with
  | .vprord128 e dst src imm => Sys2Proof.Machine.execVprord128 e dst src imm s
  | .vprord256 e dst src imm => Sys2Proof.Machine.execVprord256 e dst src imm s
  | .vprord512 e dst src imm => Sys2Proof.Machine.execVprord512 e dst src imm s
  | .vprorvd128 e dst src cnt => Sys2Proof.Machine.execVprorvd128 e dst src cnt s
  | .vprorvd256 e dst src cnt => Sys2Proof.Machine.execVprorvd256 e dst src cnt s
  | .vprorvd512 e dst src cnt => Sys2Proof.Machine.execVprorvd512 e dst src cnt s
  | .vprorq128 e dst src imm => Sys2Proof.Machine.execVprorq128 e dst src imm s
  | .vprorq256 e dst src imm => Sys2Proof.Machine.execVprorq256 e dst src imm s
  | .vprorq512 e dst src imm => Sys2Proof.Machine.execVprorq512 e dst src imm s
  | .vprorvq128 e dst src cnt => Sys2Proof.Machine.execVprorvq128 e dst src cnt s
  | .vprorvq256 e dst src cnt => Sys2Proof.Machine.execVprorvq256 e dst src cnt s
  | .vprorvq512 e dst src cnt => Sys2Proof.Machine.execVprorvq512 e dst src cnt s

end Sys2Proof.Machine
end

