-- ==== Sys2Proof/Machine/Fetch.lean ====
section
/-! DEFINITION. Fetching and decoding at the program counter (40_rotate_common.md R91 step 1), the launch of a run
(70_reset_and_hazards.md R152, R153) and the loading of a program (R158). -/

namespace Sys2Proof.Machine

/-! ## Fetch (R13, R46, R129, R130) -/

/-- The linear address of byte `i` of the instruction: in 64-bit mode `pc + i`, in other modes the base of CS plus
`EIP + i` (10_state.md R13, R25). -/
def State.fetchAddr (s : State) (i : Nat) : Word64 :=
  if s.long then s.rip + BitVec.ofNat 64 i
  else s.truncAddr (s.segs.cs.base + s.truncAddr s.rip + BitVec.ofNat 64 i)

/-- The offset of byte `i` of the instruction does not pass the wrap of the program counter (10_state.md R13). -/
def State.fetchInRange (s : State) (i : Nat) : Bool :=
  if s.long then decide (s.rip.toNat + i < 2 ^ 64) else decide ((s.truncAddr s.rip).toNat + i < 2 ^ 32)

/-- The address of byte `i` of the instruction is good: canonical in 64-bit mode, within the limit of CS in other modes
(60_exceptions.md R126, R129). -/
def State.fetchAddressOk (s : State) (i : Nat) : Bool :=
  if s.long then canonical s.laBits (s.fetchAddr i)
  else decide ((s.truncAddr s.rip).toNat + i ≤ s.segs.cs.limit.toNat)

/-- Byte `i` from the program counter on stands where a program may have it: below the wrap, and in 64-bit mode at a
canonical address (10_state.md R13). -/
def State.fetchPlaced (s : State) (i : Nat) : Bool :=
  s.fetchInRange i && (!s.long || canonical s.laBits (s.fetchAddr i))

/-- Byte `i` of the instruction at the program counter, or why it cannot be fetched (60_exceptions.md R127, R129). A
program counter that is not canonical is #GP(0) (R129); an instruction that begins at a good address and goes on past the
canonical range or the wrap is refused (10_state.md R13, log 21). -/
def State.fetchByte (s : State) (i : Nat) : Except Stop Byte :=
  if i != 0 && !s.fetchPlaced i then .error (.refuse .fetchWrap)
  else if !s.fetchAddressOk i then .error (.fault .gp)
  else
    match s.translate .fetch (s.fetchAddr i) with
    | .pageFault c => .error (.fault (.pf c (s.fetchAddr i)))
    | .device => .error (.refuse .deviceMemory)
    | .admitted => .ok (s.mem.read (s.fetchAddr i))

/-- Up to `n` bytes from byte `i` on, as far as they can be fetched, and why the next one cannot be, if it is so. -/
def State.fetchBytes (s : State) : Nat → Nat → List Byte × Option Stop
  | 0, _ => ([], none)
  | n + 1, i =>
    match s.fetchByte i with
    | .error stop => ([], some stop)
    | .ok b => (b :: (s.fetchBytes n (i + 1)).1, (s.fetchBytes n (i + 1)).2)

/-- The refusal the decoder names. -/
def refusalOf : DecodeRefusal → Refusal
  | .notInScope => .notInScope
  | .addressSizeOverride => .addressSizeOverride
  | .ignoredBit => .ignoredBit

/-- The instruction at the program counter, or why the step stops (40_rotate_common.md R91 step 1). At most 15 bytes are
fetched; where the instruction does not end within them it is too long, and where a byte it needs cannot be fetched the
step stops for that byte (60_exceptions.md R129, R130). So 67H among 14 or more legacy bytes, where P0 is not among the
15 bytes, is #GP(0) and not refused: DESIGN CHOICE (log 19). A memory form with 16-bit addresses is refused without a byte
after ModRM, if it is enabled (log 9). -/
def State.instrAt (s : State) : Except Stop Instr :=
  match decode Config.strictIgnoredBits s.codeSize (s.fetchBytes 15 0).1 with
  | .instr i => .ok i
  | .ud _ => .error (.fault .ud)
  | .tooLong => .error (.fault .gp)
  | .refused r => .error (.refuse (refusalOf r))
  | .addressing16 vl =>
    match s.enableFault vl with
    | some f => .error (.fault f)
    | none => .error (.refuse .addressing16)
  | .short => .error ((s.fetchBytes 15 0).2.getD (.fault .gp))

/-! ## Launch (R152, R153) and loading (R158) -/

/-- The enabling state of the launch premise (70_reset_and_hazards.md R153 (a), (b), (f)): 64-bit mode, OSXSAVE, the XCR0
bits, CR0.TS = 0, no single-stepping. -/
def State.launched (s : State) : Bool :=
  s.long && s.cr4OSXSAVE && s.xcr0Enabled && !s.cr0TS && !s.rflagsTF

/-- What system software has done before a program runs (70_reset_and_hazards.md R152): protected mode, paging, long mode
with a 64-bit code segment; OSXSAVE; the XCR0 bits; CR0.TS = CR0.EM = 0; memory mapped, here every address, readable and
executable at every privilege level. The bits of PAE, LME and EM are the family's, PRESUMED (log 1). -/
def State.launch (s : State) : State :=
  { s with
    cr0 := (s.cr0 ||| 0x80000001#64) &&& ~~~0xC#64
    cr4 := s.cr4 ||| 0x40020#64
    xcr0 := s.xcr0 ||| 0xE6#64
    efer := s.efer ||| 0x500#64
    rflags := s.rflags &&& ~~~0x20100#64
    csL := true
    csD := false
    map := [⟨0, 2 ^ 64, true, true, false, false⟩] }

/-- Stores a program's bytes at a base address (70_reset_and_hazards.md R158). -/
def State.loadCode (s : State) (base : Word64) (bytes : List Byte) : State :=
  { s with mem := s.mem.writeBytes base bytes }

/-- A program (70_reset_and_hazards.md R158): a byte string and the value of the program counter at its first byte. -/
structure Program where
  base : Word64
  bytes : List Byte
  deriving DecidableEq, Repr

/-- The state with the program counter at a program's first byte. The base is cut to the width of the program counter; a
program whose base does not fit it is not placed (`State.programPlaced`, log 26). -/
def State.atProgram (s : State) (p : Program) : State := { s with rip := s.truncAddr p.base }

/-- All bytes of a program are at canonical addresses below the wrap; another program is refused (10_state.md R13).
Outside 64-bit mode a base that does not fit the 32 bits of the program counter is past the wrap: DESIGN CHOICE (log
26). -/
def State.programPlaced (s : State) (p : Program) : Bool :=
  s.truncAddr p.base == p.base && (List.range p.bytes.length).all (s.atProgram p).fetchPlaced

/-- The state in which a program starts: its bytes loaded at its base, and the program counter there
(70_reset_and_hazards.md R158). -/
def State.startProgram (s : State) (p : Program) : State :=
  { s.atProgram p with mem := s.mem.writeEach (s.atProgram p).fetchAddr 0 p.bytes }

/-- The program counter just after a program's last byte (70_reset_and_hazards.md R158). -/
def State.programEnd (s : State) (p : Program) : Word64 := (s.atProgram p).nextRip p.bytes.length

/-- Byte `i` of the instruction could be fetched if it were there. -/
def State.fetchable (s : State) (i : Nat) : Bool :=
  match s.fetchByte i with
  | .ok _ => true
  | .error _ => false

/-- Makes the 15 bytes at the program counter fetchable: nothing where they are; else every address is mapped, and the
program counter is put to 0 where its own addresses are not canonical. -/
def State.fetchReady (s : State) : State :=
  if (List.range 15).all s.fetchable then s
  else
    let t := { s with map := [⟨0, 2 ^ 64, true, true, false, false⟩] }
    if (List.range 15).all t.fetchable then t else { t with rip := 0 }

/-- A program of one instruction loaded from outside, in a launched machine, at the program counter (log 1). -/
def State.loadAtFetch (s : State) (bytes : List Byte) : State :=
  let t := (if s.launched then s else s.launch).fetchReady
  t.loadCode t.rip bytes

end Sys2Proof.Machine
end

