-- ==== Sys2Proof/Machine/Step.lean ====
section
/-! DEFINITION. One step of the machine (40_rotate_common.md R91). -/

namespace Sys2Proof.Machine

/-- One step: fetch and decode at the program counter, then execute. The meaning advances the program counter (R90). -/
def step (s : State) : Host.Outcome State Fault Refusal :=
  match s.instrAt with
  | .ok i => exec i s
  | .error stop => stop.result

/-- The state with an instruction, given by its first `nbits` bits and zeros above, stored where `step` fetches its next
instruction. It stands for the launch and the load of a program from outside (log 1). -/
def State.withFetchWord (s : State) (nbits w : Nat) : State :=
  s.loadAtFetch (instructionBytes nbits w)

end Sys2Proof.Machine
end

