-- ==== Sys2Proof/Machine/Run.lean ====
section
/-! DEFINITION. The run of a program and its end (70_reset_and_hazards.md R158). -/

namespace Sys2Proof.Machine

/-- How a run ends (70_reset_and_hazards.md R158): normally, at a fault or a refusal in some state, or not yet. -/
inductive RunEnd
  | finished (s : State)
  | faulted (s : State) (f : Fault)
  | refused (s : State) (r : Refusal)
  | running (s : State)
  deriving DecidableEq, Repr

/-- At most `n` steps from a state, to the first fault or refusal, or to where an instruction falls through to `stopAt`
(70_reset_and_hazards.md R158). A state that merely stands at `stopAt` at the start has not got there by a fall-through,
so its run goes on. -/
def runFrom (stopAt : Word64) : Nat → State → RunEnd
  | 0, s => .running s
  | n + 1, s =>
    match step s with
    | .next t => if t.rip = stopAt then .finished t else runFrom stopAt n t
    | .fault f => .faulted s f
    | .refused r => .refused s r

/-- A run of at most `n` steps of a program that is loaded and started in `s`; it ends normally at the address just after
the program's bytes (70_reset_and_hazards.md R158). A program whose bytes are not all at canonical addresses below the
wrap is refused before its first step (10_state.md R13). -/
def runProgram (p : Program) (n : Nat) (s : State) : RunEnd :=
  if s.programPlaced p then runFrom (s.programEnd p) n (s.startProgram p) else .refused s .fetchWrap

/-- The state in which a run stands at its end. -/
def RunEnd.state : RunEnd → State
  | .finished s => s
  | .faulted s _ => s
  | .refused s _ => s
  | .running s => s

end Sys2Proof.Machine
end

