-- ==== Sys2Proof/Safety.lean ====
section
/-! DEFINITION. The terms in which statements speak: an enabled form, a readable operand, the operand's value, the
canonical invariant, and the end of a run. -/

namespace Sys2Proof.Machine

/-- A byte that may stand before the EVEX prefix (30_encoding.md R70): a segment override, 67H, or a forbidden byte. -/
def SkippedByte (cs : CodeSize) (b : Byte) : Prop :=
  b ∈ [0x26#8, 0x2E#8, 0x36#8, 0x3E#8, 0x64#8, 0x65#8, 0x67#8, 0xF0#8, 0x66#8, 0xF2#8, 0xF3#8] ∨
    (cs = .bits64 ∧ 0x40 ≤ b.toNat ∧ b.toNat ≤ 0x4F)

/-- A byte that makes an instruction after it #UD (30_encoding.md R70): LOCK, 66H, F2H, F3H, and in 64-bit mode REX. -/
def ForbiddenByte (cs : CodeSize) (b : Byte) : Prop :=
  b ∈ [0xF0#8, 0x66#8, 0xF2#8, 0xF3#8] ∨ (cs = .bits64 ∧ 0x40 ≤ b.toNat ∧ b.toNat ≤ 0x4F)

/-- The length by the formula of 30_encoding.md R69: `p` legacy bytes, and the ModRM and SIB bytes of a form of Op/En A
(`opA`) or B. -/
def lengthByFormula (p : Nat) (opA : Bool) (modrm sib : Byte) : Nat :=
  p + 4 + 1 + 1 +
    (if modrm.extractLsb' 6 2 ≠ 3#2 ∧ modrm.extractLsb' 0 3 = 4#3 then 1 else 0) +
    (if modrm.extractLsb' 6 2 = 1#2 then 1 else 0) +
    (if modrm.extractLsb' 6 2 = 2#2 ∨ (modrm.extractLsb' 6 2 = 0#2 ∧ modrm.extractLsb' 0 3 = 5#3) ∨
        (modrm.extractLsb' 6 2 = 0#2 ∧ modrm.extractLsb' 0 3 = 4#3 ∧ sib.extractLsb' 0 3 = 5#3) then 4 else 0) +
    (if opA then 1 else 0)

/-- The bytes `pre` come before an EVEX instruction that the decoder measures before it judges: legacy bytes, with 67H
only beside a forbidden byte (log 19), in 32-bit modes a P0 that makes 62H an EVEX prefix (30_encoding.md R74), and no
memory operand with 16-bit addresses, which is not measured (log 9). -/
def MeasuredPrefix (cs : CodeSize) (pre : List Byte) (p0 modrm : Byte) : Prop :=
  (∀ b ∈ pre, SkippedByte cs b) ∧ (0x67#8 ∈ pre → ∃ b ∈ pre, ForbiddenByte cs b) ∧
    (cs ≠ .bits64 → p0.extractLsb' 6 2 = 3#2) ∧
    (cs = .bits32 → 0x67#8 ∈ pre → modrm.extractLsb' 6 2 = 3#2) ∧
    (cs = .bits16 → 0x67#8 ∉ pre → modrm.extractLsb' 6 2 = 3#2)

/-- N of a one-byte displacement, by the table of 30_encoding.md R64: `EVEX.b`, element width, vector length. -/
def factorByTable : Bool → ElemWidth → VLen → Int
  | false, _, .l128 => 16
  | false, _, .l256 => 32
  | false, _, .l512 => 64
  | true, .dword, _ => 4
  | true, .qword, _ => 8

/-- The displacement as an integer, one byte scaled by `n` (30_encoding.md R63, R64). -/
def displacement (n : Int) : Disp → Int
  | .absent => 0
  | .d8 v => v.toInt * n
  | .d32 v => v.toInt

/-- Byte `j` of the operand can fault, and with what: a bad address, or a refusal by `Translate` (60_exceptions.md R125 to
R127). -/
def State.ByteFault (s : State) (r : MemRef) (j : Nat) (f : Fault) : Prop :=
  (s.addressOk r j = false ∧ f = segmentFault r.seg) ∨
    ∃ c, s.translate .read (s.byteAddr r j) = .pageFault c ∧ f = .pf c (s.byteAddr r j)

/-- A form of vector length `vl` is enabled: 64-bit mode or a 32-bit mode, OSXSAVE, the XCR0 bits, the form's CPUID
flags, and CR0.TS = 0 (60_exceptions.md R121, R122; 70_reset_and_hazards.md R153 (a) to (c)). -/
def State.Enabled (s : State) (vl : VLen) : Prop :=
  (s.mode = .mode64 ∨ s.mode = .mode32) ∧ s.cr4OSXSAVE = true ∧ s.xcr0Enabled = true ∧ s.hasForm vl = true ∧
    s.cr0TS = false

/-- The memory operand `r` can be read: every byte has a good address and is admitted by `Translate`, in ordinary
memory, and the operand is aligned or alignment checking is off (20_memory.md R35, R37, R39, R40). -/
def State.Readable (s : State) (r : MemRef) : Prop :=
  (∀ i, i < r.size → s.addressOk r i = true ∧ s.translate .read (s.byteAddr r i) = .admitted) ∧
    (s.alignmentChecking = true → r.size ∣ (s.linear r).toNat)

/-- The ModRM:r/m operand can be read: a register always; a memory operand in 64-bit mode or with 32-bit addressing, when
its bytes can be read. -/
def State.OperandReadable (s : State) (w : ElemWidth) (vl : VLen) (len : Nat) (e : Evex) : RmOperand → Prop
  | .reg _ => True
  | .mem bcst m => (s.long = true ∨ s.csD = true) ∧ s.Readable (s.memRef w vl len e bcst m)

/-- The vector the ModRM:r/m operand stands for (20_memory.md R30 to R32). -/
def State.operandVector (s : State) (w : ElemWidth) (vl : VLen) (len : Nat) (e : Evex) : RmOperand → Vec
  | .reg n => s.readZmm n
  | .mem bcst m => s.memVector w vl bcst (s.memRef w vl len e bcst m)

/-- The vector that is rotated: the ModRM:r/m operand for Op/En A, the register in EVEX.vvvv for Op/En B
(30_encoding.md R59, R60). -/
def State.rotatedVector (s : State) (f : Fields) : Vec :=
  match f.op with
  | .a _ => s.operandVector f.w f.vl f.len f.e f.rm
  | .b src1 => s.readZmm src1

/-- The count of element `j`: imm8 for Op/En A, element `j` of the ModRM:r/m operand for Op/En B (40_rotate_common.md
R84). -/
def State.countOf (s : State) (f : Fields) (j : Nat) : Nat :=
  match f.op with
  | .a imm => imm.toNat
  | .b _ => (elem f.w.bits (s.operandVector f.w f.vl f.len f.e f.rm) j).toNat

/-- What `t` must be after an instruction of parts `f` has completed in `s`, bit by bit (40_rotate_common.md R80, R81,
R84 to R86, R90): bit `p` of element `j` of the destination; zeros above the vector length; the next program counter;
and nothing else changed but the mark of R24 and the model's counter of reads. -/
def RotateEffect (f : Fields) (s t : State) : Prop :=
  (∀ j p, j < numElems f.w f.vl → p < f.w.bits →
    (t.readZmm f.dst).getLsbD (j * f.w.bits + p) =
      if s.active f.e j then (s.rotatedVector f).getLsbD (j * f.w.bits + (p + s.countOf f j) % f.w.bits)
      else if f.e.z then false
      else (s.readZmm f.dst).getLsbD (j * f.w.bits + p)) ∧
  (∀ p, f.vl.bits ≤ p → (t.readZmm f.dst).getLsbD p = false) ∧
  (∀ n, n ≠ f.dst → t.readZmm n = s.readZmm n) ∧
  t.rip = s.nextRip f.len ∧
  t = { s with
    zmm := t.zmm
    rip := t.rip
    avx512InUse := true
    choices := if isMem f.rm then s.choices + 1 else s.choices }

/-- Everything but the vector registers, the program counter, the mark of R24 and the model's counter is the same in `t`
as in `s` (10_state.md R27). -/
def SameElsewhere (s t : State) : Prop :=
  t.k = s.k ∧ t.x = s.x ∧ t.segs = s.segs ∧ t.csL = s.csL ∧ t.csD = s.csD ∧ t.rflags = s.rflags ∧
    t.mxcsr = s.mxcsr ∧ t.cr0 = s.cr0 ∧ t.cr4 = s.cr4 ∧ t.xcr0 = s.xcr0 ∧ t.efer = s.efer ∧ t.cpl = s.cpl ∧
    t.untouched = s.untouched ∧ t.cpuid7ebx = s.cpuid7ebx ∧ t.cpuid1ecx = s.cpuid1ecx ∧ t.mem = s.mem ∧ t.map = s.map

/-- The invariant of the machine: memory is in canonical form, and outside 64-bit mode the program counter has 32 bits
(10_state.md R13, R19). -/
def State.Inv (s : State) : Prop :=
  s.mem.wf = true ∧ (s.long = false → s.rip.toNat < 2 ^ 32)

/-- The bytes of `i` stand at the program counter and each of them can be fetched. -/
def State.CodeAt (s : State) (bytes : List Byte) : Prop :=
  ∀ k, (h : k < bytes.length) → s.fetchByte k = .ok bytes[k]

end Sys2Proof.Machine
end

