-- ==== Sys2Proof/Certificates/Slice0/Obligations.lean ====
section
/-! DEFINITION. The statements for the provers. -/

open Sys2Proof Sys2Proof.Machine

/-! ## Encoding -/

/-- Words written out in the spec decode to the instructions they stand for (30_encoding.md section 8,
95_test_vectors.md section 2.3, rows E1, E17, E20, E25, E35). -/
def Obligations.DecodeOfSampleEncodings : Prop :=
  decode false .bits64 [0x62, 0xF1, 0x75, 0x08, 0x72, 0xC2, 0x08] =
    .instr (.vprord128 ⟨[], 0, false⟩ 1 (.reg 2) 8) ∧
  decode false .bits64 [0x62, 0xF1, 0xD5, 0x3A, 0x72, 0x00, 0x01] =
    .instr (.vprorq256 ⟨[], 2, false⟩ 5 (.mem true (.base 0 .absent)) 1) ∧
  decode false .bits64 [0x62, 0xF1, 0xBD, 0xCD, 0x72, 0x44, 0xCC, 0x40, 0x40] =
    .instr (.vprorq512 ⟨[], 5, true⟩ 8 (.mem false (.sib 3 (some 1) (some 4) (.d8 0x40))) 0x40) ∧
  decode false .bits64 [0x62, 0x42, 0x7D, 0x40, 0x14, 0xFF] =
    .instr (.vprorvd512 ⟨[], 0, false⟩ 31 16 (.reg 15)) ∧
  decode false .bits64 [0x62, 0xF2, 0xED, 0x08, 0x14, 0xCB] =
    .instr (.vprorvq128 ⟨[], 0, false⟩ 1 2 (.reg 3))

/-- Decoding the encoding of a well-formed instruction gives the instruction back, whatever bytes follow, in 64-bit and
in 32-bit code, under the strict and the lax reading of ignored bits. -/
def Obligations.DecodeOfEncodeIsInstruction : Prop :=
  ∀ (strict : Bool) (cs : CodeSize) (i : Instr) (rest : List Byte), i.wellFormed cs = true →
    decode strict cs (encode i ++ rest) = .instr i

/-- Under the strict reading (ignored bits stored as 1) the bytes of an instruction are its encoding: an instruction has
one encoding, and no other bytes stand for it. In 32-bit modes this rests on the model's choice that the strict reading
counts B, R' and P1[6], which R74 ignores there (log 8, over 30_encoding.md R74). -/
def Obligations.StrictDecodeReadsTheEncoding : Prop :=
  ∀ (cs : CodeSize) (bytes : List Byte) (i : Instr), decode true cs bytes = .instr i →
    bytes.take i.length = encode i

/-- Whatever the decoder accepts is an instruction an encoding of at most 15 bytes can name, and it stands within the
bytes given. -/
def Obligations.DecodedInstructionIsWellFormed : Prop :=
  ∀ (strict : Bool) (cs : CodeSize) (bytes : List Byte) (i : Instr), decode strict cs bytes = .instr i →
    i.wellFormed cs = true ∧ i.length ≤ bytes.length

/-- The six bytes 62 P0 P1 P2 opcode ModRM of an instruction select exactly one row of the opcode table, the row of its
element width, operand encoding and vector length. -/
def Obligations.EncodingSelectsItsTableRow : Prop :=
  ∀ i : Instr, (selectedRows i.fields.coreBytes).map (fun r => (r.w, r.opA, r.vl)) =
    [(i.fields.w, i.fields.op.isA, i.fields.vl)]

/-- LOCK, 66H, F2H or F3H, or in 64-bit mode REX, anywhere among the bytes before an instruction makes it an invalid
opcode, unless it is longer than 15 bytes: in 64-bit and in 32-bit code, and also where 67H stands beside it, which is the
model's choice (log 19; a memory form that 67H gives 16-bit addresses: log 9). -/
def Obligations.ForbiddenLegacyByteIsInvalidOpcode : Prop :=
  ∀ (strict : Bool) (cs : CodeSize) (pre : List Byte) (b : Byte) (i : Instr) (rest : List Byte),
    i.wellFormed cs = true → pre.length + i.length ≤ 15 → (∀ c ∈ pre, SkippedByte cs c) → b ∈ pre →
    ForbiddenByte cs b → ∃ c, decode strict cs (pre ++ encode i ++ rest) = .ud c

/-- The invalid encodings of the forms: a reserved bit of P0 or P1 at the wrong value, L'L = 11b, zeroing without a
writemask, or the broadcast bit with a register operand. -/
def Obligations.ReservedEncodingsAreInvalidOpcodes : Prop :=
  ∀ (strict : Bool) (opA : Bool) (p0 p1 p2 op modrm : Byte) (tail : List Byte),
    opEnOf p0 p1 op modrm = some opA → 6 ≤ tail.length →
    (p0.getLsbD 3 = true ∨ p1.getLsbD 2 = false ∨ (p2.getLsbD 6 = true ∧ p2.getLsbD 5 = true) ∨
      (p2.getLsbD 7 = true ∧ p2.extractLsb' 0 3 = 0#3) ∨ (modrm.extractLsb' 6 2 = 3#2 ∧ p2.getLsbD 4 = true)) →
    ∃ c, decode strict .bits64 (0x62#8 :: p0 :: p1 :: p2 :: op :: modrm :: tail) = .ud c

/-- What is not an instruction of the model is refused in 64-bit mode, as neither fault nor no-op, after any legacy bytes:
a first byte other than 62H; 67H before 62H, unless a forbidden byte stands beside it; and, after overrides, another `pp`,
another map and opcode, or another ModRM.reg with opcode 72H. The refusal of 67H before a byte other than 62H under its
own name is the model's choice (log 19). -/
def Obligations.OtherInstructionsAreRefused : Prop :=
  ∀ (strict : Bool) (pre : List Byte), (∀ c ∈ pre, SkippedByte .bits64 c) →
    (∀ (b : Byte) (rest : List Byte), ¬ SkippedByte .bits64 b → b ≠ 0x62#8 →
      decode strict .bits64 (pre ++ b :: rest) =
        .refused (if 0x67#8 ∈ pre then .addressSizeOverride else .notInScope)) ∧
    (∀ (p0 : Byte) (rest : List Byte), 0x67#8 ∈ pre → (∀ c ∈ pre, ¬ ForbiddenByte .bits64 c) →
      decode strict .bits64 (pre ++ 0x62#8 :: p0 :: rest) = .refused .addressSizeOverride) ∧
    (∀ (p0 p1 p2 op modrm : Byte) (tail : List Byte), 0x67#8 ∉ pre → (∀ c ∈ pre, ¬ ForbiddenByte .bits64 c) →
      p0.getLsbD 3 = false → p1.getLsbD 2 = true →
      (p1.extractLsb' 0 2 ≠ 1#2 ∨
        ¬ ((p0.extractLsb' 0 3 = 1#3 ∧ op = 0x72#8 ∧ modrm.extractLsb' 3 3 = 0#3) ∨
           (p0.extractLsb' 0 3 = 2#3 ∧ op = 0x14#8))) →
      decode strict .bits64 (pre ++ 0x62#8 :: p0 :: p1 :: p2 :: op :: modrm :: tail) = .refused .notInScope)

/-- An instruction that legacy bytes make longer than 15 bytes, by the formula of R69, is too long, whatever else is wrong
with its encoding: the decoder answers so on the whole of it, and a step at its first 15 bytes raises #GP(0). Three clauses
are the model's choice: that 67H beside a forbidden byte is measured before it is judged (log 19: R130 over R75), that under
the strict reading the length comes before the refusal for an ignored bit (log 10), and that the first 15 bytes suffice for
#GP(0), whatever the sixteenth is and whether or not it can be fetched (log 21). A memory
form with 16-bit addresses is not measured (log 9). -/
def Obligations.OverlongInstructionIsTooLong : Prop :=
  ∀ (strict : Bool) (cs : CodeSize) (pre : List Byte) (opA : Bool) (p0 p1 p2 op modrm : Byte) (tail : List Byte),
    MeasuredPrefix cs pre p0 modrm → opEnOf p0 p1 op modrm = some opA → 6 ≤ tail.length →
    15 < lengthByFormula pre.length opA modrm (tail.headD 0) →
    decode strict cs (pre ++ 0x62#8 :: p0 :: p1 :: p2 :: op :: modrm :: tail) = .tooLong ∧
    ∀ s : State, s.codeSize = cs →
      s.CodeAt ((pre ++ 0x62#8 :: p0 :: p1 :: p2 :: op :: modrm :: tail).take 15) → step s = .fault .gp

/-- Under the lax reading ignored bits have no effect. In 64-bit mode: R and R' of an immediate form, X of a memory
operand without SIB, and B of a RIP-relative operand or of a SIB byte without base. In 32-bit modes: B, R' and P1[6]. -/
def Obligations.IgnoredBitsHaveNoEffect : Prop :=
  (∀ (opA : Bool) (p0 q0 p1 p2 op modrm : Byte) (tail : List Byte), opEnOf p0 p1 op modrm = some opA →
    (∀ j, q0.getLsbD j = p0.getLsbD j ∨ ((j = 7 ∨ j = 4) ∧ opA = true) ∨
      (j = 6 ∧ modrm.extractLsb' 6 2 ≠ 3#2 ∧ modrm.extractLsb' 0 3 ≠ 4#3) ∨
      (j = 5 ∧ modrm.extractLsb' 6 2 = 0#2 ∧ (modrm.extractLsb' 0 3 = 5#3 ∨
        (modrm.extractLsb' 0 3 = 4#3 ∧ ∃ sib rest, tail = sib :: rest ∧ sib.extractLsb' 0 3 = 5#3)))) →
    decode false .bits64 (0x62#8 :: q0 :: p1 :: p2 :: op :: modrm :: tail) =
      decode false .bits64 (0x62#8 :: p0 :: p1 :: p2 :: op :: modrm :: tail)) ∧
  (∀ (cs : CodeSize) (p0 q0 p1 q1 p2 op modrm : Byte) (tail : List Byte), cs ≠ .bits64 →
    (∀ j, q0.getLsbD j = p0.getLsbD j ∨ j = 5 ∨ j = 4) → (∀ j, q1.getLsbD j = p1.getLsbD j ∨ j = 6) →
    decode false cs (0x62#8 :: q0 :: q1 :: p2 :: op :: modrm :: tail) =
      decode false cs (0x62#8 :: p0 :: p1 :: p2 :: op :: modrm :: tail))

/-- In 32-bit modes the byte 62H is another instruction unless the two top bits of the next byte are 11b, and a form with
V' = 1 (stored bit 0) is an invalid opcode. -/
def Obligations.EvexIn32BitModes : Prop :=
  ∀ (cs : CodeSize) (strict opA : Bool) (p0 p1 p2 op modrm : Byte) (tail : List Byte), cs ≠ .bits64 →
    (p0.extractLsb' 6 2 ≠ 3#2 →
      decode strict cs (0x62#8 :: p0 :: p1 :: p2 :: op :: modrm :: tail) = .refused .notInScope) ∧
    (p0.extractLsb' 6 2 = 3#2 → opEnOf p0 p1 op modrm = some opA → 6 ≤ tail.length → p2.getLsbD 3 = false →
      ∃ c, decode strict cs (0x62#8 :: p0 :: p1 :: p2 :: op :: modrm :: tail) = .ud c)

/-! ## The rotate -/

/-- R80: `ROR32` is the source's formula on unbounded naturals cut to 32 bits, and bit `p` of it is bit `(p + n) mod 32`
of the value, `n` the count modulo 32. -/
def Obligations.RotateDoublewordBits : Prop :=
  ∀ (v : BitVec 32) (c : Nat),
    ror 32 v c = BitVec.ofNat 32 ((v.toNat >>> (c % 32)) ||| (v.toNat <<< (32 - c % 32))) ∧
    ∀ p, p < 32 → (ror 32 v c).getLsbD p = v.getLsbD ((p + c % 32) % 32)

/-- R81: the same for `ROR64`. -/
def Obligations.RotateQuadwordBits : Prop :=
  ∀ (v : BitVec 64) (c : Nat),
    ror 64 v c = BitVec.ofNat 64 ((v.toNat >>> (c % 64)) ||| (v.toNat <<< (64 - c % 64))) ∧
    ∀ p, p < 64 → (ror 64 v c).getLsbD p = v.getLsbD ((p + c % 64) % 64)

/-- The laws of the rotate for both element widths: identity at 0 and at the width, the count modulo the width,
composition, inverse, and the fixed points. -/
def Obligations.RotateLaws : Prop :=
  ∀ (w : ElemWidth) (v : BitVec w.bits) (a b : Nat),
    ror w.bits v 0 = v ∧ ror w.bits v w.bits = v ∧ ror w.bits v a = ror w.bits v (a % w.bits) ∧
    ror w.bits (ror w.bits v a) b = ror w.bits v (a + b) ∧
    ror w.bits (ror w.bits v a) (w.bits - a % w.bits) = v ∧
    ror w.bits (0 : BitVec w.bits) a = 0 ∧
    ror w.bits (BitVec.allOnes w.bits) a = BitVec.allOnes w.bits

/-! ## The result of each instruction, and that it completes -/

/-- VPRORD completes, in each vector length, with every form of its operands, when it is enabled and its operand can be
read: each unmasked element of the destination is the source element rotated by imm8, each masked-off one is kept or
zero, the rest of the register is zero, the program counter moves past the instruction, and nothing else changes. -/
def Obligations.VprordCompletes : Prop :=
  ∀ (e : Evex) (dst : VReg) (src : RmOperand) (imm : BitVec 8) (s : State) (i : Instr),
    (i = .vprord128 e dst src imm ∨ i = .vprord256 e dst src imm ∨ i = .vprord512 e dst src imm) →
    s.Enabled i.fields.vl → s.OperandReadable .dword i.fields.vl i.length e src →
    ∃ t, exec i s = .next t ∧ RotateEffect i.fields s t

/-- VPRORVD completes likewise: each unmasked element of the first source is rotated by its own count. -/
def Obligations.VprorvdCompletes : Prop :=
  ∀ (e : Evex) (dst src : VReg) (cnt : RmOperand) (s : State) (i : Instr),
    (i = .vprorvd128 e dst src cnt ∨ i = .vprorvd256 e dst src cnt ∨ i = .vprorvd512 e dst src cnt) →
    s.Enabled i.fields.vl → s.OperandReadable .dword i.fields.vl i.length e cnt →
    ∃ t, exec i s = .next t ∧ RotateEffect i.fields s t

/-- VPRORQ completes likewise, on quadwords by imm8. -/
def Obligations.VprorqCompletes : Prop :=
  ∀ (e : Evex) (dst : VReg) (src : RmOperand) (imm : BitVec 8) (s : State) (i : Instr),
    (i = .vprorq128 e dst src imm ∨ i = .vprorq256 e dst src imm ∨ i = .vprorq512 e dst src imm) →
    s.Enabled i.fields.vl → s.OperandReadable .qword i.fields.vl i.length e src →
    ∃ t, exec i s = .next t ∧ RotateEffect i.fields s t

/-- VPRORVQ completes likewise, on quadwords by their own counts. -/
def Obligations.VprorvqCompletes : Prop :=
  ∀ (e : Evex) (dst src : VReg) (cnt : RmOperand) (s : State) (i : Instr),
    (i = .vprorvq128 e dst src cnt ∨ i = .vprorvq256 e dst src cnt ∨ i = .vprorvq512 e dst src cnt) →
    s.Enabled i.fields.vl → s.OperandReadable .qword i.fields.vl i.length e cnt →
    ∃ t, exec i s = .next t ∧ RotateEffect i.fields s t

/-- R84: the element loop. Element `j` of the new destination is the rotated element where it is not masked off, the old
element under merging-masking, and 0 under zeroing-masking; the bits above the vector length are 0. -/
def Obligations.ElementLoop : Prop :=
  ∀ (i : Instr) (s t : State), exec i s = .next t →
    (∀ j, j < i.fields.vl.bits / i.fields.w.bits →
      elem i.fields.w.bits (t.readZmm i.fields.dst) j =
        if i.fields.e.aaa = 0#3 ∨ (s.readK i.fields.e.aaa).getLsbD j = true then
          ror i.fields.w.bits (elem i.fields.w.bits (s.rotatedVector i.fields) j) (s.countOf i.fields j)
        else if i.fields.e.z = false then elem i.fields.w.bits (s.readZmm i.fields.dst) j
        else 0) ∧
    t.readZmm i.fields.dst = (t.readZmm i.fields.dst &&& BitVec.ofNat 512 (2 ^ i.fields.vl.bits - 1))

/-- R86: bits 511 to `VL` of the destination become 0 in every form, whatever the mask; with every mask bit 0 and
merging-masking the whole effect is to clear them. -/
def Obligations.UpperBitsAreZeroed : Prop :=
  ∀ (i : Instr) (s t : State), exec i s = .next t →
    (∀ p, i.fields.vl.bits ≤ p → (t.readZmm i.fields.dst).getLsbD p = false) ∧
    (i.fields.e.z = false → (∀ j, j < numElems i.fields.w i.fields.vl → s.active i.fields.e j = false) →
      (∀ p, p < i.fields.vl.bits → (t.readZmm i.fields.dst).getLsbD p = (s.readZmm i.fields.dst).getLsbD p) ∧
      (∀ n, n ≠ i.fields.dst → t.readZmm n = s.readZmm n) ∧ SameElsewhere s t)

/-- The memory operand, bit by bit: little-endian bytes at rising addresses for a full vector, and with broadcast the one
element at every position. Byte `i` stands at the linear address plus `i`; that this wraps at the width of addresses, 64
bits in 64-bit mode and 32 bits otherwise, is the model's choice (log 22). -/
def Obligations.MemoryOperandBits : Prop :=
  ∀ (s : State),
    (∀ (r : MemRef) (i : Nat),
      (s.byteAddr r i).toNat = ((s.linear r).toNat + i) % (if s.long then 2 ^ 64 else 2 ^ 32)) ∧
    ∀ (w : ElemWidth) (vl : VLen) (len : Nat) (e : Evex) (m : MemOp) (p : Nat), p < vl.bits →
      (s.operandVector w vl len e (.mem false m)).getLsbD p =
        (s.mem.read (s.byteAddr (s.memRef w vl len e false m) (p / 8))).getLsbD (p % 8) ∧
      (s.operandVector w vl len e (.mem true m)).getLsbD p =
        (s.mem.read (s.byteAddr (s.memRef w vl len e true m) (p % w.bits / 8))).getLsbD (p % 8)

/-- The effective address of a memory operand as an integer, modulo 2^64 in 64-bit mode and modulo 2^32 in 32-bit modes, in
every addressing form: base, index times scale, each where there is one, and the displacement, of which one byte is scaled
by N of the table of R64; in 64-bit mode also the address of the next instruction and the displacement; in 32-bit modes also
the displacement alone. -/
def Obligations.EffectiveAddressModuloAddressSize : Prop :=
  ∀ (s : State) (w : ElemWidth) (vl : VLen) (len : Nat) (e : Evex) (bcst : Bool) (size : Int),
    size = (if s.long then 2 ^ 64 else 2 ^ 32) →
    (s.long = true → ∀ d, ((s.memRef w vl len e bcst (.ripRel d)).ea.toNat : Int) =
      (s.rip.toNat + len + d.toInt) % size) ∧
    (s.long = false → ∀ d, (s.memRef w vl len e bcst (.abs32 d)).ea.toNat = d.toNat) ∧
    (∀ b d, ((s.memRef w vl len e bcst (.base b d)).ea.toNat : Int) =
      ((s.readX b).toNat + displacement (factorByTable bcst w vl) d) % size) ∧
    (∀ ss i b d, ((s.memRef w vl len e bcst (.sib ss (some i) (some b) d)).ea.toNat : Int) =
      ((s.readX b).toNat + (s.readX i).toNat * 2 ^ ss.toNat + displacement (factorByTable bcst w vl) d) % size) ∧
    (∀ ss b d, ((s.memRef w vl len e bcst (.sib ss none (some b) d)).ea.toNat : Int) =
      ((s.readX b).toNat + displacement (factorByTable bcst w vl) d) % size) ∧
    (∀ ss i d, ((s.memRef w vl len e bcst (.sib ss (some i) none d)).ea.toNat : Int) =
      ((s.readX i).toNat * 2 ^ ss.toNat + displacement (factorByTable bcst w vl) d) % size) ∧
    (∀ ss d, ((s.memRef w vl len e bcst (.sib ss none none d)).ea.toNat : Int) =
      displacement (factorByTable bcst w vl) d % size)

/-- The segment and the linear address in 64-bit mode: FS or GS when it alone is named, else SS for a base of RSP or RBP
and DS otherwise; only FS and GS add a base. -/
def Obligations.LinearAddressIn64BitMode : Prop :=
  ∀ (s : State) (overrides : List SegReg) (m : MemOp) (ea : Word64) (n : Nat), s.long = true →
    (∀ o, (o = .fs ∨ o = .gs) → o ∈ overrides → (∀ q ∈ overrides, q = .fs ∨ q = .gs → q = o) →
      s.operandSegment overrides m = o ∧ s.linear ⟨o, ea, n⟩ = (s.segment o).base + ea) ∧
    ((∀ q ∈ overrides, q ≠ .fs ∧ q ≠ .gs) →
      s.operandSegment overrides m = (if memBase m = some 4#4 ∨ memBase m = some 5#4 then .ss else .ds) ∧
      s.linear ⟨s.operandSegment overrides m, ea, n⟩ = ea)

/-- The segment and the linear address in 32-bit modes: the segment's base plus the effective address, modulo 2^32, as R39
says. Which segment it is is the model's choice: SS for a base of ESP or EBP and DS otherwise where no override stands, the
one segment that is named where the overrides name one, each of the six alike (log 27), and one of those named where they
name several (log 15). -/
def Obligations.LinearAddressIn32BitModes : Prop :=
  ∀ (s : State) (w : ElemWidth) (vl : VLen) (len : Nat) (e : Evex) (bcst : Bool) (m : MemOp) (r : MemRef),
    s.long = false → r = s.memRef w vl len e bcst m →
    (s.linear r).toNat = ((s.segment r.seg).base.toNat + r.ea.toNat) % 2 ^ 32 ∧
    (e.overrides = [] → r.seg = if memBase m = some 4#4 ∨ memBase m = some 5#4 then .ss else .ds) ∧
    (∀ o, o ∈ e.overrides → (∀ q ∈ e.overrides, q = o) → r.seg = o) ∧
    (e.overrides ≠ [] → r.seg ∈ e.overrides)

/-- An address is canonical when its bits 63 to `LA_BITS - 1` are all equal. -/
def Obligations.CanonicalMeansEqualUpperBits : Prop :=
  ∀ (s : State) (a : Word64),
    canonical s.laBits a = true ↔ ∀ j, s.laBits - 1 ≤ j → j < 64 → a.getLsbD j = a.getLsbD 63

/-! ## Frames and independence -/

/-- An instruction that completes leaves alone every other vector register, every opmask, general, segment, status,
control, mode and feature register, the translation, and every byte of memory. -/
def Obligations.ExecutionFrame : Prop :=
  ∀ (i : Instr) (s t : State), exec i s = .next t →
    (∀ n, n ≠ i.fields.dst → t.readZmm n = s.readZmm n) ∧ SameElsewhere s t ∧
    ∀ a : Word64, t.mem.read a = s.mem.read a

/-- The new destination depends only on the low `VL` bits of the vectors read, on mask bits below `KL`, and, where an
element is masked off and zeroed or rotated, not on its old value: two states that agree on those give the same
register. -/
def Obligations.ResultIgnoresUnreadState : Prop :=
  ∀ (i : Instr) (s₁ s₂ t₁ t₂ : State), exec i s₁ = .next t₁ → exec i s₂ = .next t₂ →
    (∀ j, j < numElems i.fields.w i.fields.vl → s₁.active i.fields.e j = s₂.active i.fields.e j) →
    (∀ j, j < numElems i.fields.w i.fields.vl → s₁.active i.fields.e j = true →
      elem i.fields.w.bits (s₁.rotatedVector i.fields) j = elem i.fields.w.bits (s₂.rotatedVector i.fields) j ∧
      s₁.countOf i.fields j % i.fields.w.bits = s₂.countOf i.fields j % i.fields.w.bits) →
    (∀ j, j < numElems i.fields.w i.fields.vl → s₁.active i.fields.e j = false → i.fields.e.z = false →
      elem i.fields.w.bits (s₁.readZmm i.fields.dst) j = elem i.fields.w.bits (s₂.readZmm i.fields.dst) j) →
    t₁.readZmm i.fields.dst = t₂.readZmm i.fields.dst

/-- No instruction transfers control: the program counter moves by the length of the encoding, modulo 2^64 in 64-bit
mode and modulo 2^32 in other modes. -/
def Obligations.ProgramCounterFallsThrough : Prop :=
  ∀ (i : Instr) (s t : State), exec i s = .next t →
    t.rip.toNat = (s.rip.toNat + (encode i).length) % (if s.mode = .mode64 then 2 ^ 64 else 2 ^ 32)

/-! ## Faults -/

/-- #UD for every form in real-address or virtual-8086 mode, without CR4.OSXSAVE, without XCR0[7:5] = 111b or
XCR0[2:1] = 11b, without AVX512F, or without AVX512VL for a 128- or 256-bit form; whatever CR0.TS. -/
def Obligations.DisabledFormIsInvalidOpcode : Prop :=
  ∀ (i : Instr) (s : State),
    (s.mode = .real ∨ s.mode = .virtual8086 ∨ s.cr4.getLsbD 18 = false ∨ s.xcr0.extractLsb' 5 3 ≠ 7#3 ∨
      s.xcr0.extractLsb' 1 2 ≠ 3#2 ∨ s.cpuid7ebx.getLsbD 16 = false ∨
      (i.fields.vl ≠ .l512 ∧ s.cpuid7ebx.getLsbD 31 = false)) →
    exec i s = .fault .ud

/-- R122: with CR0.TS = 1 every form raises #NM, vector 7, without an error code, whatever its memory operand, but for
the #UD causes, which come first: those of the enabling state, and those the decoder finds. -/
def Obligations.TaskSwitchedIsDeviceNotAvailable : Prop :=
  Fault.nm.vector = 7 ∧ Fault.nm.errorCode = none ∧
  (∀ (i : Instr) (s : State), s.cr0.getLsbD 3 = true →
    exec i s = .fault
      (if (s.mode = .mode64 ∨ s.mode = .mode32) ∧ s.cr4.getLsbD 18 = true ∧ s.xcr0.extractLsb' 5 3 = 7#3 ∧
          s.xcr0.extractLsb' 1 2 = 3#2 ∧ s.cpuid7ebx.getLsbD 16 = true ∧
          (i.fields.vl = .l512 ∨ s.cpuid7ebx.getLsbD 31 = true)
        then .nm else .ud)) ∧
  ∀ (s : State) (c : UdCause), s.cr0.getLsbD 3 = true →
    decode Config.strictIgnoredBits s.codeSize (s.fetchBytes 15 0).1 = .ud c → step s = .fault .ud

/-- The vector number and the error code of each exception, and that #PF alone records an address, the linear address at
fault. -/
def Obligations.FaultVectorsAndErrorCodes : Prop :=
  (Fault.ud.vector = 6 ∧ Fault.ud.errorCode = none) ∧
  (Fault.nm.vector = 7 ∧ Fault.nm.errorCode = none) ∧
  (Fault.ss.vector = 12 ∧ Fault.ss.errorCode = some 0) ∧
  (Fault.gp.vector = 13 ∧ Fault.gp.errorCode = some 0) ∧
  (∀ code a, (Fault.pf code a).vector = 14 ∧ (Fault.pf code a).errorCode = some code ∧
    (Fault.pf code a).address = some a) ∧
  (Fault.ac.vector = 17 ∧ Fault.ac.errorCode = some 0) ∧
  ∀ f : Fault, f.vector ≠ 14 → f.address = none

/-- A register-only form raises only #UD and #NM and is never refused. -/
def Obligations.RegisterFormFaults : Prop :=
  ∀ (i : Instr) (s : State) (n : VReg), i.fields.rm = .reg n →
    exec i s = .fault .ud ∨ exec i s = .fault .nm ∨ ∃ t, exec i s = .next t

/-- A bad address of some byte of an element that is to be computed, of every byte where there is no writemask, is #SS(0)
through SS and #GP(0) through another segment: a non-canonical address in 64-bit mode; in 32-bit modes an offset past the
limit, or a null or unreadable segment. #SS(0) for a null or unreadable SS, and the limit as an upper bound on the offset
of every byte, are the model's choice (log 27). -/
def Obligations.BadOperandAddressFaults : Prop :=
  ∀ (i : Instr) (s : State) (bcst : Bool) (m : MemOp) (r : MemRef) (k : Nat),
    i.fields.rm = .mem bcst m → r = s.memRef i.fields.w i.fields.vl i.length i.fields.e bcst m →
    s.Enabled i.fields.vl → k < r.size → s.byteActive i.fields.w i.fields.vl i.fields.e bcst k = true →
    ((s.mode = .mode64 ∧ canonical s.laBits (s.linear r + BitVec.ofNat 64 k) = false) ∨
      (s.mode = .mode32 ∧ s.csD = true ∧
        ((s.segment r.seg).limit.toNat < r.ea.toNat + k ∨ (s.segment r.seg).null = true ∨
          (s.segment r.seg).readable = false))) →
    exec i s = .fault (if r.seg = .ss then .ss else .gp)

/-- A byte of an element that is to be computed that `Translate` refuses, all addresses being good and alignment checking
off, is #PF with the code and the linear address of some refused byte of the operand. -/
def Obligations.RefusedOperandByteIsPageFault : Prop :=
  ∀ (i : Instr) (s : State) (bcst : Bool) (m : MemOp) (r : MemRef) (k : Nat) (c : BitVec 32),
    i.fields.rm = .mem bcst m → r = s.memRef i.fields.w i.fields.vl i.length i.fields.e bcst m →
    s.Enabled i.fields.vl → (s.long = true ∨ s.csD = true) →
    s.alignmentChecking = false → (∀ j, j < r.size → s.addressOk r j = true) →
    k < r.size → s.byteActive i.fields.w i.fields.vl i.fields.e bcst k = true →
    s.translate .read (s.byteAddr r k) = .pageFault c →
    ∃ j d, j < r.size ∧ s.translate .read (s.byteAddr r j) = .pageFault d ∧
      exec i s = .fault (.pf d (s.byteAddr r j))

/-- The page-fault code: bit 1 (W/R) is 0, bit 2 (U/S) says the access was made at privilege level 3, bit 4 (I/D) that it
was a fetch, bit 0 (P) is 0 exactly when no region holds the address, bit 3 (RSVD) says that the region's entry has a
reserved bit set, and no other bit is set. That P and RSVD follow the regions of `map` so is the model's choice (log 6);
R127 says what the bits mean. -/
def Obligations.PageFaultCodeBits : Prop :=
  ∀ (s : State) (kind : AccessKind) (a : Word64) (c : BitVec 32), s.translate kind a = .pageFault c →
    c.getLsbD 1 = false ∧ (c.getLsbD 2 = true ↔ s.cpl = 3#2) ∧ (c.getLsbD 4 = true ↔ kind = .fetch) ∧
    (c.getLsbD 0 = false ↔ s.map.find? (fun r => r.holds a.toNat) = none) ∧
    (c.getLsbD 3 = true ↔ ∃ r, s.map.find? (fun r => r.holds a.toNat) = some r ∧ r.rsvd = true) ∧
    ∀ j, 5 ≤ j → c.getLsbD j = false

/-- No #AC without CR0.AM = 1, RFLAGS.AC = 1, privilege level 3, and a memory operand that is not aligned. -/
def Obligations.AlignmentCheckOnlyWhenEnabled : Prop :=
  ∀ (i : Instr) (s : State),
    (s.cr0.getLsbD 18 = false ∨ s.rflags.getLsbD 18 = false ∨ s.cpl ≠ 3#2 ∨
      ∀ bcst m, i.fields.rm = .mem bcst m → operandBytes i.fields.w i.fields.vl bcst ∣
        (s.linear (s.memRef i.fields.w i.fields.vl i.length i.fields.e bcst m)).toNat) →
    exec i s ≠ .fault .ac

/-- A misaligned operand whose bytes can all be read, under alignment checking, raises #AC(0) or completes: nothing
else. -/
def Obligations.MisalignedOperandFaultsOrCompletes : Prop :=
  ∀ (i : Instr) (s : State) (bcst : Bool) (m : MemOp) (r : MemRef),
    i.fields.rm = .mem bcst m → r = s.memRef i.fields.w i.fields.vl i.length i.fields.e bcst m →
    s.Enabled i.fields.vl → (s.long = true ∨ s.csD = true) → s.alignmentChecking = true →
    (∀ j, j < r.size → s.addressOk r j = true ∧ s.translate .read (s.byteAddr r j) = .admitted) →
    ¬ (r.size ∣ (s.linear r).toNat) →
    exec i s = .fault .ac ∨ ∃ t, exec i s = .next t ∧ RotateEffect i.fields s t

/-- Where the bytes of the elements to be computed can be read and only bytes of masked-off elements cannot, the form
either raises the fault of one of those bytes or completes with the result that does not depend on them. -/
def Obligations.MaskedOffFaultIsOpen : Prop :=
  ∀ (i : Instr) (s : State) (bcst : Bool) (m : MemOp) (r : MemRef),
    i.fields.rm = .mem bcst m → r = s.memRef i.fields.w i.fields.vl i.length i.fields.e bcst m →
    s.Enabled i.fields.vl → (s.long = true ∨ s.csD = true) → s.alignmentChecking = false →
    (∀ j, j < r.size → s.byteActive i.fields.w i.fields.vl i.fields.e bcst j = true →
      s.addressOk r j = true ∧ s.translate .read (s.byteAddr r j) = .admitted) →
    (∀ j, j < r.size → s.translate .read (s.byteAddr r j) ≠ .device) →
    (∃ f j, exec i s = .fault f ∧ j < r.size ∧ s.byteActive i.fields.w i.fields.vl i.fields.e bcst j = false ∧
      s.ByteFault r j f) ∨
    ∃ t, exec i s = .next t ∧ RotateEffect i.fields s t

/-- A fault in a byte of an element that is to be computed is never suppressed: the form raises the memory fault of some
byte of the operand, the segment's fault if that byte's own address is bad, or #AC(0) where alignment checking is on and
the operand is not aligned. -/
def Obligations.UnmaskedFaultIsReported : Prop :=
  ∀ (i : Instr) (s : State) (bcst : Bool) (m : MemOp) (r : MemRef) (k : Nat) (g : Fault),
    i.fields.rm = .mem bcst m → r = s.memRef i.fields.w i.fields.vl i.length i.fields.e bcst m →
    s.Enabled i.fields.vl → (s.long = true ∨ s.csD = true) → k < r.size →
    s.byteActive i.fields.w i.fields.vl i.fields.e bcst k = true → s.ByteFault r k g →
    ∃ f, exec i s = .fault f ∧ (s.addressOk r k = false → f = segmentFault r.seg) ∧
      ((∃ j, j < r.size ∧ s.ByteFault r j f) ∨
        (f = .ac ∧ s.alignmentChecking = true ∧ ¬ (r.size ∣ (s.linear r).toNat)))

/-- An operand in a region with read side effects, which nothing else stops, is refused by name (R37(c), D17). That one
byte of it is enough, even one of a masked-off element, is the model's choice (log 23). -/
def Obligations.DeviceOperandIsRefused : Prop :=
  ∀ (i : Instr) (s : State) (bcst : Bool) (m : MemOp) (r : MemRef) (k : Nat),
    i.fields.rm = .mem bcst m → r = s.memRef i.fields.w i.fields.vl i.length i.fields.e bcst m →
    s.Enabled i.fields.vl → (s.long = true ∨ s.csD = true) → s.alignmentChecking = false →
    (∀ j, j < r.size → s.addressOk r j = true ∧ ∀ c, s.translate .read (s.byteAddr r j) ≠ .pageFault c) →
    k < r.size → s.translate .read (s.byteAddr r k) = .device →
    exec i s = .refused .deviceMemory

/-- The model's choice (log 9): a memory form in a 32-bit mode whose code segment has D = 0 is refused by name. -/
def Obligations.SixteenBitAddressingIsRefused : Prop :=
  ∀ (i : Instr) (s : State) (bcst : Bool) (m : MemOp), i.fields.rm = .mem bcst m → s.Enabled i.fields.vl →
    s.mode = .mode32 → s.csD = false → exec i s = .refused .addressing16

/-- The model's choice (log 9): in code with D = 0 a memory form is judged by its bytes up to ModRM. Whatever follows them,
and whether or not it can be fetched, a valid form that is enabled is refused by name; in real-address and virtual-8086
mode, which the model decodes as such code (log 28), it is #UD, as R121 says. -/
def Obligations.SixteenBitMemoryFormIsNotRead : Prop :=
  ∀ (s : State) (overrides : List SegReg) (opA : Bool) (p0 p1 p2 op modrm : Byte) (vl : VLen),
    opEnOf p0 p1 op modrm = some opA → overrides.length + 6 + (if opA then 1 else 0) ≤ 15 →
    p0.extractLsb' 6 2 = 3#2 → modrm.extractLsb' 6 2 ≠ 3#2 → p0.getLsbD 3 = false → p1.getLsbD 2 = true →
    vlenOf p2 = some vl → (p2.getLsbD 7 = true → p2.extractLsb' 0 3 ≠ 0#3) → p2.getLsbD 3 = true →
    s.CodeAt (overrides.map SegReg.toByte ++ [0x62#8, p0, p1, p2, op, modrm]) →
    (s.mode = .mode32 → s.csD = false → s.Enabled vl → step s = .refused .addressing16) ∧
    ((s.mode = .real ∨ s.mode = .virtual8086) → step s = .fault .ud)

/-! ## The step -/

/-- When the bytes fetched at the program counter decode to an instruction, the step is that instruction's execution;
`exec` itself moves the program counter. -/
def Obligations.StepRunsTheDecodedInstruction : Prop :=
  ∀ (s : State) (i : Instr),
    decode Config.strictIgnoredBits s.codeSize (s.fetchBytes 15 0).1 = .instr i → step s = exec i s

/-- When the encoding of a well-formed instruction stands at the program counter and its bytes can be fetched, the step
is that instruction's execution, whatever stands after it. -/
def Obligations.StepRunsTheEncodedInstruction : Prop :=
  ∀ (s : State) (i : Instr), i.wellFormed s.codeSize = true → s.CodeAt (encode i) → step s = exec i s

/-- Faults of the fetch in 64-bit mode: a non-canonical program counter is #GP(0), and a first byte that `Translate`
refuses is #PF with its code and address. A later byte past the wrap or at a non-canonical address is refused (R13), and
one that `Translate` refuses is #PF with its own address. That the first refused byte which the instruction needs is the
one reported is the model's choice (logs 14 and 21). -/
def Obligations.FetchFaultsStopTheStep : Prop :=
  ∀ s : State, s.mode = .mode64 →
    (canonical s.laBits s.rip = false → step s = .fault .gp) ∧
    (∀ c, canonical s.laBits s.rip = true → s.translate .fetch s.rip = .pageFault c →
      step s = .fault (.pf c s.rip)) ∧
    (∀ k, 0 < k → (2 ^ 64 ≤ s.rip.toNat + k ∨ canonical s.laBits (s.rip + BitVec.ofNat 64 k) = false) →
      s.fetchByte k = .error (.refuse .fetchWrap)) ∧
    (∀ k c, s.rip.toNat + k < 2 ^ 64 → canonical s.laBits (s.rip + BitVec.ofNat 64 k) = true →
      s.translate .fetch (s.rip + BitVec.ofNat 64 k) = .pageFault c →
      s.fetchByte k = .error (.fault (.pf c (s.rip + BitVec.ofNat 64 k))))

/-- The fetch in 32-bit modes. Byte `k` stands at the base of CS plus EIP plus `k`, modulo 2^32; past the limit of CS it is
#GP(0); past the 2^32 wrap of EIP it is refused; where `Translate` refuses it, it is #PF with its code and address; a device
is refused; any other byte is the one memory holds there. The first byte's fault is the step's. The width of EIP is R13's and
#PF is R129's; the rest is the model's choice, since the spec has no rule of fetch for 32-bit modes: the base and the limit
of CS (log 8), the refusal past the wrap (log 21), the device (log 23). -/
def Obligations.FetchIn32BitModes : Prop :=
  ∀ (s : State) (eip : Nat), s.mode = .mode32 → eip = s.rip.toNat % 2 ^ 32 →
    (∀ k, (s.fetchAddr k).toNat = (s.segs.cs.base.toNat + eip + k) % 2 ^ 32) ∧
    (∀ k, eip + k < 2 ^ 32 → s.segs.cs.limit.toNat < eip + k → s.fetchByte k = .error (.fault .gp)) ∧
    (∀ k, 2 ^ 32 ≤ eip + k → s.fetchByte k = .error (.refuse .fetchWrap)) ∧
    (∀ k, eip + k ≤ s.segs.cs.limit.toNat →
      (∀ c, s.translate .fetch (s.fetchAddr k) = .pageFault c →
        s.fetchByte k = .error (.fault (.pf c (s.fetchAddr k)))) ∧
      (s.translate .fetch (s.fetchAddr k) = .device → s.fetchByte k = .error (.refuse .deviceMemory)) ∧
      (s.translate .fetch (s.fetchAddr k) = .admitted → s.fetchByte k = .ok (s.mem.read (s.fetchAddr k)))) ∧
    (s.segs.cs.limit.toNat < eip → step s = .fault .gp) ∧
    (∀ c, eip ≤ s.segs.cs.limit.toNat → s.translate .fetch (s.fetchAddr 0) = .pageFault c →
      step s = .fault (.pf c (s.fetchAddr 0)))

/-- Fetch faults come first (R130): an instruction of which the first bytes stand at the program counter, and the next one
that its length by R69 takes in cannot be fetched, stops the step for that byte, whatever is wrong with its encoding. A
step looks at no byte past the fifteenth. Three clauses are the model's choice: that the step stops for the first such byte
(logs 14 and 21), that it looks at 15 bytes (log 21), and that 67H beside a forbidden byte is measured before it is judged
(log 19: R130 over R75). A memory form with 16-bit addresses is not measured (log 9). -/
def Obligations.UnfetchableByteStopsTheStep : Prop :=
  ∀ (s : State) (pre : List Byte) (opA : Bool) (p0 p1 p2 op modrm : Byte) (tail : List Byte) (k : Nat) (stop : Stop),
    MeasuredPrefix s.codeSize pre p0 modrm → opEnOf p0 p1 op modrm = some opA → 6 ≤ tail.length → k < 15 →
    k < lengthByFormula pre.length opA modrm (tail.headD 0) →
    s.CodeAt ((pre ++ 0x62#8 :: p0 :: p1 :: p2 :: op :: modrm :: tail).take k) → s.fetchByte k = .error stop →
    step s = stop.result

/-- Fifteen segment-override bytes at the program counter are an instruction longer than 15 bytes: #GP(0). That this holds
whatever stands after them, a byte that R75 refuses or one that cannot be fetched, is the model's choice of looking at 15
bytes only (log 21). -/
def Obligations.FifteenOverrideBytesAreTooLong : Prop :=
  ∀ (s : State) (overrides : List SegReg), overrides.length = 15 → s.CodeAt (overrides.map SegReg.toByte) →
    step s = .fault .gp

/-- Memory stays in canonical form and the program counter of 32-bit modes keeps to 32 bits along every step. -/
def Obligations.StepKeepsTheInvariant : Prop :=
  ∀ s t : State, s.Inv → step s = .next t → t.Inv

/-- The machine after reset meets the invariant. -/
def Obligations.ResetMeetsTheInvariant : Prop := State.reset.Inv

/-- A step that completes changes one vector register, the program counter, by 6 to 15 bytes, the mark of R24, which it
sets, and the model's counter, by at most one. Every other vector register, every opmask, general, segment, status,
control, mode and feature register, the operating mode and every byte of memory is as before. -/
def Obligations.StepKeepsTheRestOfTheState : Prop :=
  ∀ s t : State, step s = .next t →
    SameElsewhere s t ∧ t.mode = s.mode ∧ (∀ a : Word64, t.mem.read a = s.mem.read a) ∧
    (∃ dst, ∀ n, n ≠ dst → t.readZmm n = s.readZmm n) ∧ (∃ len, 6 ≤ len ∧ len ≤ 15 ∧ t.rip = s.nextRip len) ∧
    t.avx512InUse = true ∧ (t.choices = s.choices ∨ t.choices = s.choices + 1)

/-- Along any run, up to its end or to where it stops, nothing changes but the vector registers, the program counter, the
mark of R24, which is never cleared, and the model's counter, which grows by at most one a step: no opmask, general,
segment, status, control, mode or feature register, no byte of memory, and not the operating mode. -/
def Obligations.RunKeepsTheRestOfTheState : Prop :=
  ∀ (stopAt : Word64) (n : Nat) (s t : State), (runFrom stopAt n s).state = t →
    SameElsewhere s t ∧ t.mode = s.mode ∧ (∀ a : Word64, t.mem.read a = s.mem.read a) ∧
    (s.avx512InUse = true → t.avx512InUse = true) ∧ s.choices ≤ t.choices ∧ t.choices ≤ s.choices + n

/-- A run of a program that ends at a fault or a refusal ends in the state before the instruction that stops: that state is
reached from the program's start by steps that complete, and its own step is the stop. -/
def Obligations.RunFaultsBeforeTheInstruction : Prop :=
  ∀ (p : Program) (n : Nat) (s t : State), s.programPlaced p = true →
    (∀ f, runProgram p n s = .faulted t f →
      step t = .fault f ∧ ∃ k, k < n ∧ Sys2Proof.core.run k (s.startProgram p) = .next t) ∧
    (∀ r, runProgram p n s = .refused t r →
      step t = .refused r ∧ ∃ k, k < n ∧ Sys2Proof.core.run k (s.startProgram p) = .next t)

/-- A run of a program ends normally exactly when some instruction, after at most `n` steps of which none stops, falls
through to the address just after the program's bytes, for the first time. The start does not count, so an empty program
does not end where it starts. -/
def Obligations.RunFinishesByFallThrough : Prop :=
  ∀ (p : Program) (n : Nat) (s t : State), s.programPlaced p = true →
    (runProgram p n s = .finished t ↔
      ∃ k u, k < n ∧ Sys2Proof.core.run k (s.startProgram p) = .next u ∧ step u = .next t ∧
        t.rip = s.programEnd p ∧
        ∀ j v, 0 < j → j ≤ k → Sys2Proof.core.run j (s.startProgram p) = .next v → v.rip ≠ s.programEnd p)

/-- A program with a byte past the wrap or at a non-canonical address is refused before its first step (R13): in 64-bit mode
past 2^64 or outside the canonical range; in other modes past 2^32, and there a base that does not fit 32 bits is past the
wrap too, which is the model's choice (log 26). -/
def Obligations.MisplacedProgramIsRefused : Prop :=
  ∀ (p : Program) (n : Nat) (s : State),
    (∀ k, s.mode = .mode64 → k < p.bytes.length →
      (2 ^ 64 ≤ p.base.toNat + k ∨ canonical s.laBits (p.base + BitVec.ofNat 64 k) = false) →
      runProgram p n s = .refused s .fetchWrap) ∧
    (s.mode ≠ .mode64 → 2 ^ 32 ≤ p.base.toNat → runProgram p n s = .refused s .fetchWrap) ∧
    (∀ k, s.mode ≠ .mode64 → k < p.bytes.length → 2 ^ 32 ≤ p.base.toNat + k →
      runProgram p n s = .refused s .fetchWrap)

/-- A program that is placed stands, once started, byte by byte where the fetch looks for it, and no other byte of memory
changes; it starts at its base, in every mode, and ends at its base plus its length, modulo 2^64 in 64-bit mode and modulo
2^32 in other modes. -/
def Obligations.ProgramStandsAtItsBase : Prop :=
  ∀ (p : Program) (s : State), s.programPlaced p = true → s.mem.wf = true →
    (∀ k, (h : k < p.bytes.length) →
      (s.startProgram p).mem.read ((s.startProgram p).fetchAddr k) = p.bytes[k]) ∧
    (∀ a : Word64, (∀ k, k < p.bytes.length → a ≠ (s.startProgram p).fetchAddr k) →
      (s.startProgram p).mem.read a = s.mem.read a) ∧
    (s.startProgram p).rip = p.base ∧
    (s.programEnd p).toNat = (p.base.toNat + p.bytes.length) % (if s.mode = .mode64 then 2 ^ 64 else 2 ^ 32)

/-! ## Reset, memory, loading -/

/-- The values after reset (10_state.md R25), but for the processor signature in RDX and the contents of memory, which
the spec does not give; and that with them every form, with any operands, raises #UD. -/
def Obligations.ResetValues : Prop :=
  (∀ n, State.reset.readZmm n = 0) ∧ (∀ n, State.reset.readK n = 0) ∧
  (∀ n, n ≠ 2#4 → State.reset.readX n = 0) ∧ State.reset.rip = 0xFFF0#64 ∧
  State.reset.segs.cs.base = 0xFFFF0000#64 ∧ State.reset.fetchAddr 0 = 0xFFFFFFF0#64 ∧
  State.reset.mode = .real ∧ State.reset.rflags = 0x2#64 ∧ State.reset.mxcsr = 0x1F80#32 ∧
  State.reset.cr0 = 0x60000010#64 ∧ State.reset.cr4 = 0 ∧ State.reset.xcr0 = 1 ∧ State.reset.efer = 0 ∧
  State.reset.cpl = 0 ∧ ∀ i : Instr, exec i State.reset = .fault .ud

/-- Two memories in canonical form that read the same at every address are equal. -/
def Obligations.CanonicalMemoriesAreEqual : Prop :=
  ∀ m₁ m₂ : Memory, m₁.wf = true → m₂.wf = true → (∀ a : Word64, m₁.read a = m₂.read a) → m₁ = m₂

/-- A program's bytes, once loaded, stand at rising addresses, and every other byte is as before. -/
def Obligations.LoadedBytesReadBack : Prop :=
  ∀ (m : Memory) (a : Word64) (bs : List Byte), m.wf = true → bs.length ≤ 2 ^ 64 →
    (∀ k, (h : k < bs.length) → (m.writeBytes a bs).read (a + BitVec.ofNat 64 k) = bs[k]) ∧
    (∀ b : Word64, (∀ k, k < bs.length → b ≠ a + BitVec.ofNat 64 k) → (m.writeBytes a bs).read b = m.read b)

/-- The model's launch (log 1): any well-formed instruction of 64-bit mode, loaded after reset as `withFetchWord` loads
it, is the one the next step runs. -/
def Obligations.LoadedInstructionRunsNext : Prop :=
  ∀ i : Instr, i.wellFormed .bits64 = true →
    step (State.reset.loadAtFetch (encode i)) = exec i (State.reset.loadAtFetch (encode i))
end

