-- ==== Sys2Proof/Laws/Bits.lean ====
section
/-! SUPPORT. Packed elements and the rotate, bit by bit. -/

namespace Sys2Proof.Machine

theorem div_mod_of_block {w n p : Nat} (h1 : n * w ≤ p) (h2 : p < (n + 1) * w) : p / w = n ∧ p % w = p - n * w := by
  have hd : p / w = n := Nat.div_eq_of_lt_le h1 h2
  refine ⟨hd, ?_⟩
  have := Nat.div_add_mod p w
  rw [hd, Nat.mul_comm] at this
  omega

/-- Bit `p` of packed elements is bit `p % w` of element `p / w`, below the last element and below bit 512. -/
theorem getLsbD_packElems {w : Nat} (f : Nat → BitVec w) (n p : Nat) :
    (packElems w f n).getLsbD p = (decide (p < n * w) && decide (p < 512) && (f (p / w)).getLsbD (p % w)) := by
  induction n with
  | zero => simp [packElems]
  | succ n ih =>
    simp only [packElems, BitVec.getLsbD_or, ih, BitVec.getLsbD_shiftLeft, BitVec.getLsbD_setWidth]
    by_cases h1 : p < n * w
    · have h2 : p < (n + 1) * w := by rw [Nat.add_mul]; omega
      simp [h1, h2]
    · by_cases h2 : p < (n + 1) * w
      · obtain ⟨hd, hm⟩ := div_mod_of_block (Nat.le_of_not_lt h1) h2
        have : p - n * w < w := by rw [Nat.add_mul] at h2; omega
        by_cases h3 : p < 512
        · have h4 : p - n * w < 512 := by omega
          simp [h1, h2, h3, h4, hd, hm]
        · simp [h1, h3]
      · have h4 : w ≤ p - n * w := by rw [Nat.add_mul] at h2; omega
        simp [h1, h2, BitVec.getLsbD_of_ge _ _ h4]

@[simp] theorem getLsbD_elem (w : Nat) (v : Vec) (j p : Nat) :
    (elem w v j).getLsbD p = (decide (p < w) && v.getLsbD (j * w + p)) := by
  simp [elem, BitVec.getLsbD_extractLsb']

/-- An element of packed elements. -/
theorem elem_packElems {w : Nat} (hw : 0 < w) (f : Nat → BitVec w) (n j : Nat) (hj : j < n) (hn : n * w ≤ 512) :
    elem w (packElems w f n) j = f j := by
  apply BitVec.eq_of_getLsbD_eq
  intro p hp
  rw [getLsbD_elem, getLsbD_packElems]
  have h1 : j * w + p < n * w := by
    have : (j + 1) * w ≤ n * w := Nat.mul_le_mul_right w hj
    rw [Nat.add_mul] at this
    omega
  have h2 : (j * w + p) / w = j := by
    rw [Nat.add_comm, Nat.add_mul_div_right _ _ hw, Nat.div_eq_of_lt hp, Nat.zero_add]
  have h3 : (j * w + p) % w = p := by
    rw [Nat.add_comm, Nat.add_mul_mod_self_right, Nat.mod_eq_of_lt hp]
  have h4 : j * w + p < 512 := by omega
  simp [h1, h2, h3, h4, hp]

/-- Bit `p` of a rotate is bit `(p + c) mod w` of the value (40_rotate_common.md R80, R81). -/
theorem getLsbD_ror {w : Nat} (v : BitVec w) (c p : Nat) :
    (ror w v c).getLsbD p = (decide (p < w) && v.getLsbD ((p + c) % w)) := by
  by_cases hp : p < w
  · have hw : 0 < w := by omega
    have hn : c % w < w := Nat.mod_lt _ hw
    have hmod : (p + c) % w = if p + c % w < w then p + c % w else p + c % w - w := by
      rw [Nat.add_mod, Nat.mod_eq_of_lt hp]
      split
      · rename_i h; exact Nat.mod_eq_of_lt h
      · rename_i h
        rw [Nat.mod_eq_sub_mod (by omega), Nat.mod_eq_of_lt (by omega)]
    simp only [ror, BitVec.getLsbD_ofNat, hp, decide_true, Bool.true_and, Nat.testBit_or, Nat.testBit_shiftRight,
      Nat.testBit_shiftLeft, hmod, BitVec.testBit_toNat]
    split
    · rename_i h
      have : ¬ p ≥ w - c % w := by omega
      simp [this, Nat.add_comm]
    · rename_i h
      have h1 : p ≥ w - c % w := by omega
      have h2 : p - (w - c % w) = p + c % w - w := by omega
      have h3 : v.getLsbD (c % w + p) = false := BitVec.getLsbD_of_ge _ _ (by omega)
      simp [h1, h2, h3]
  · simp [ror, BitVec.getLsbD_ofNat, hp]

theorem numElems_mul (w : ElemWidth) (vl : VLen) : numElems w vl * w.bits = vl.bits := by
  cases w <;> cases vl <;> rfl

theorem vlen_le (vl : VLen) : vl.bits ≤ 512 := by cases vl <;> decide

theorem bits_pos (w : ElemWidth) : 0 < w.bits := by cases w <;> decide

/-- Element `j` of the new value (40_rotate_common.md R84). -/
theorem elem_rotateVector {w : ElemWidth} {vl : VLen} (src : Vec) (count : Nat → Nat) (active : Nat → Bool) (z : Bool)
    (old : Vec) {j : Nat} (hj : j < numElems w vl) :
    elem w.bits (rotateVector w vl src count active z old) j = newElem w src count active z old j :=
  elem_packElems (bits_pos w) _ _ _ hj (by rw [numElems_mul]; exact vlen_le vl)

/-- The new value is zero from bit `VL` upward (40_rotate_common.md R86). -/
theorem getLsbD_rotateVector_of_ge {w : ElemWidth} {vl : VLen} (src : Vec) (count : Nat → Nat) (active : Nat → Bool)
    (z : Bool) (old : Vec) {p : Nat} (hp : vl.bits ≤ p) :
    (rotateVector w vl src count active z old).getLsbD p = false := by
  rw [rotateVector, getLsbD_packElems, numElems_mul]
  simp [Nat.not_lt.mpr hp]

end Sys2Proof.Machine
end

