-- ==== Sys2Proof/Laws/Decode.lean ====
section
/-! SUPPORT. Bits, bytes and the parts of the encoding, read back. -/

namespace Sys2Proof

/-! ## Bits of a byte and of a register number -/

@[simp] theorem byteOf_get7 (a b c d e f g h : Bool) : (byteOf a b c d e f g h)[7] = a := by
  revert a b c d e f g h; decide

@[simp] theorem byteOf_get6 (a b c d e f g h : Bool) : (byteOf a b c d e f g h)[6] = b := by
  revert a b c d e f g h; decide

@[simp] theorem byteOf_get5 (a b c d e f g h : Bool) : (byteOf a b c d e f g h)[5] = c := by
  revert a b c d e f g h; decide

@[simp] theorem byteOf_get4 (a b c d e f g h : Bool) : (byteOf a b c d e f g h)[4] = d := by
  revert a b c d e f g h; decide

@[simp] theorem byteOf_get3 (a b c d e f g h : Bool) : (byteOf a b c d e f g h)[3] = e := by
  revert a b c d e f g h; decide

@[simp] theorem byteOf_get2 (a b c d e f g h : Bool) : (byteOf a b c d e f g h)[2] = f := by
  revert a b c d e f g h; decide

@[simp] theorem byteOf_get1 (a b c d e f g h : Bool) : (byteOf a b c d e f g h)[1] = g := by
  revert a b c d e f g h; decide

@[simp] theorem byteOf_get0 (a b c d e f g h : Bool) : (byteOf a b c d e f g h)[0] = h := by
  revert a b c d e f g h; decide

@[simp] theorem field3_byteOf_0 (a b c d e f g h : Bool) : field3 (byteOf a b c d e f g h) 0 = bits3 f g h := by
  simp [field3]

@[simp] theorem field3_byteOf_3 (a b c d e f g h : Bool) : field3 (byteOf a b c d e f g h) 3 = bits3 c d e := by
  simp [field3]

@[simp] theorem field2_byteOf (a b c d e f g h : Bool) :
    field2 (byteOf a b c d e f g h) = BitVec.ofNat 2 (a.toNat * 2 + b.toNat) := by
  simp [field2]

@[simp] theorem bits2_get (r : BitVec 2) : BitVec.ofNat 2 (r[1].toNat * 2 + r[0].toNat) = r := by
  revert r; decide

@[simp] theorem bits3_get (r : BitVec 3) : bits3 r[2] r[1] r[0] = r := by
  revert r; decide

@[simp] theorem bits4_get (r : BitVec 4) : bits4 r[3] r[2] r[1] r[0] = r := by
  revert r; decide

@[simp] theorem bits5_get (r : BitVec 5) : bits5 r[4] r[3] r[2] r[1] r[0] = r := by
  revert r; decide

@[simp] theorem bits3_get2 (a b c : Bool) : (bits3 a b c)[2] = a := by revert a b c; decide

@[simp] theorem bits3_get1 (a b c : Bool) : (bits3 a b c)[1] = b := by revert a b c; decide

@[simp] theorem bits3_get0 (a b c : Bool) : (bits3 a b c)[0] = c := by revert a b c; decide

/-- Four bytes of a 32-bit value give it back (30_encoding.md R63). -/
@[simp] theorem le32_extract (v : BitVec 32) :
    le32 (v.extractLsb' 0 8) (v.extractLsb' 8 8) (v.extractLsb' 16 8) (v.extractLsb' 24 8) = v := by
  apply BitVec.eq_of_getLsbD_eq
  intro i hi
  simp only [le32, BitVec.getLsbD_append, BitVec.getLsbD_extractLsb']
  by_cases h1 : i < 8
  · simp [h1]
  · by_cases h2 : i < 16
    · have : i - 8 < 8 := by omega
      simp [h1, this]
      congr 1; omega
    · by_cases h3 : i < 24
      · have a1 : ¬ i - 8 < 8 := by omega
        have a2 : i - 8 - 8 < 8 := by omega
        simp [h1, a1, a2]
        congr 1; omega
      · have a1 : ¬ i - 8 < 8 := by omega
        have a2 : ¬ i - 8 - 8 < 8 := by omega
        have a3 : i - 8 - 8 - 8 < 8 := by omega
        simp [h1, a1, a2, a3]
        congr 1; omega

/-! ## Legacy bytes (R70) -/

@[simp] theorem ofByte_toByte (r : SegReg) : SegReg.ofByte r.toByte = some r := by cases r <;> decide

@[simp] theorem isForbiddenLegacy_toByte (cs : CodeSize) (r : SegReg) : isForbiddenLegacy cs r.toByte = false := by
  cases cs <;> cases r <;> decide

@[simp] theorem isAddressSize_toByte (r : SegReg) : isAddressSize r.toByte = false := by cases r <;> decide

@[simp] theorem isLegacy_toByte (cs : CodeSize) (r : SegReg) : isLegacy cs r.toByte = true := by simp [isLegacy]

@[simp] theorem isLegacy_62 (cs : CodeSize) : isLegacy cs 0x62#8 = false := by cases cs <;> decide

theorem takeWhile_overrides (cs : CodeSize) (rs : List SegReg) (rest : List Byte) :
    (rs.map SegReg.toByte ++ 0x62#8 :: rest).takeWhile (isLegacy cs) = rs.map SegReg.toByte := by
  induction rs with
  | nil => simp
  | cons r rs ih => simp [ih]

theorem dropWhile_overrides (cs : CodeSize) (rs : List SegReg) (rest : List Byte) :
    (rs.map SegReg.toByte ++ 0x62#8 :: rest).dropWhile (isLegacy cs) = 0x62#8 :: rest := by
  induction rs with
  | nil => simp
  | cons r rs ih => simp [ih]

@[simp] theorem filterMap_toByte (rs : List SegReg) : (rs.map SegReg.toByte).filterMap SegReg.ofByte = rs := by
  induction rs with
  | nil => rfl
  | cons r rs ih => simp

@[simp] theorem any_forbidden_overrides (cs : CodeSize) (rs : List SegReg) :
    (rs.map SegReg.toByte).any (isForbiddenLegacy cs) = false := by
  simp [List.any_eq_false]

@[simp] theorem any_addressSize_overrides (rs : List SegReg) : (rs.map SegReg.toByte).any isAddressSize = false := by
  simp [List.any_eq_false]

/-! ## The two views of an instruction -/

@[simp] theorem toInstr_fields (i : Instr) : i.fields.toInstr = i := by cases i <;> rfl

@[simp] theorem fields_toInstr (f : Fields) : f.toInstr.fields = f := by
  obtain ⟨w, vl, e, d, r, op⟩ := f
  cases op <;> cases w <;> cases vl <;> rfl

@[simp] theorem vlenOf_byteOf (vl : VLen) (a d e f g h : Bool) :
    vlenOf (byteOf a vl.encoding.1 vl.encoding.2 d e f g h) = some vl := by
  cases vl <;> simp [vlenOf, VLen.encoding]

/-! ## Lengths (R69) -/

@[simp] theorem length_dispBytes (d : Disp) : d.bytes.length = d.len := by cases d <;> rfl

@[simp] theorem length_rmBytes (r : RmOperand) : r.encoding.bytes.length = r.len := by
  cases r with
  | reg n => rfl
  | mem bc m =>
    cases m <;> simp [RmOperand.encoding, RmOperand.len, MemOp.len] <;> first | rfl | omega

@[simp] theorem length_coreBytes (f : Fields) : f.coreBytes.length = 6 := rfl

@[simp] theorem length_opBytes (o : OpEn) : o.bytes.length = o.len := by cases o <;> rfl

/-- The encoding of an instruction has the instruction's length (30_encoding.md R69). -/
theorem length_fieldsEncode (f : Fields) : f.encode.length = f.len := by
  simp [Fields.encode, Fields.len]
  omega

/-! ## The tail and the ModRM:r/m operand, read back (R62) -/

/-- The immediate, 0 where there is none. -/
def OpEn.imm : OpEn → BitVec 8
  | .a i => i
  | .b _ => 0

theorem readImm_encode (op : OpEn) (sib : Byte) (d : Disp) (n : Nat) (rest : List Byte) :
    readImm op.isA sib d n (op.bytes ++ rest) = some ⟨sib, d, op.imm, n + op.len⟩ := by
  cases op <;> rfl

/-- `mod`, `rm` and the SIB base ask for as many displacement bytes as `d` has (30_encoding.md R62). -/
@[simp] def DispFits (md : BitVec 2) (rm : BitVec 3) (sib : Byte) : Disp → Prop
  | .absent => md ≠ 1#2 ∧ ¬ (md = 2#2 ∨ (md = 0#2 ∧ (rm = 5#3 ∨ (rm = 4#3 ∧ field3 sib 0 = 5#3))))
  | .d8 _ => md = 1#2
  | .d32 _ => md ≠ 1#2 ∧ (md = 2#2 ∨ (md = 0#2 ∧ (rm = 5#3 ∨ (rm = 4#3 ∧ field3 sib 0 = 5#3))))

/-- The displacement is read back when `mod`, `rm` and the SIB base ask for as many bytes as it has. -/
theorem readDisp_encode (op : OpEn) (md : BitVec 2) (rm : BitVec 3) (sib : Byte) (d : Disp) (n : Nat) (rest : List Byte)
    (h : DispFits md rm sib d) :
    readDisp op.isA md rm sib n (d.bytes ++ (op.bytes ++ rest)) = some ⟨sib, d, op.imm, n + d.len + op.len⟩ := by
  cases d with
  | absent =>
    unfold readDisp
    rw [if_neg h.1, if_neg h.2]
    exact readImm_encode op sib .absent n rest
  | d8 v =>
    have h : md = 1#2 := h
    simp only [readDisp, h, if_true, Disp.bytes, List.cons_append, List.nil_append, readImm_encode, Disp.len]
  | d32 v =>
    unfold readDisp
    rw [if_neg h.1, if_pos h.2]
    simp only [Disp.bytes, List.cons_append, List.nil_append, readImm_encode, le32_extract, Disp.len]

/-- What a tail must be to give an operand back. -/
structure TailOf (cs : CodeSize) (rm : RmOperand) (op : OpEn) (t : Tail) : Prop where
  len : t.len = rm.len + op.len
  imm : t.imm = op.imm
  operand : rmOperand cs rm.encoding.x rm.encoding.b rm.encoding.bcst rm.encoding.md rm.encoding.rm t = rm
  noX : rm.encoding.md ≠ 3#2 → rm.encoding.rm ≠ 4#3 → rm.encoding.x = false
  noB : rm.encoding.md = 0#2 → (rm.encoding.rm = 5#3 ∨ (rm.encoding.rm = 4#3 ∧ field3 t.sib 0 = 5#3)) →
    rm.encoding.b = false

theorem low3_eq (b : GReg) : bits3 b[2] b[1] b[0] = GReg.low3 b := by revert b; decide

theorem readTail_encode (cs : CodeSize) (rm : RmOperand) (op : OpEn) (rest : List Byte) (h : rm.wf cs = true) :
    ∃ t, readTail op.isA rm.encoding.md rm.encoding.rm (rm.encoding.bytes ++ (op.bytes ++ rest)) = some t ∧
      TailOf cs rm op t := by
  cases rm with
  | reg r =>
    refine ⟨⟨0, .absent, op.imm, 0 + 0 + op.len⟩, ?_, ?_⟩
    · have := readDisp_encode op 3#2 (bits3 r[2] r[1] r[0]) 0 .absent 0 rest ⟨by decide, by simp⟩
      simpa [readTail, hasSib, RmOperand.encoding, Disp.bytes, Disp.len] using this
    · constructor <;> simp [RmOperand.encoding, RmOperand.len, rmOperand]
  | mem bc m =>
    cases m with
    | ripRel d =>
      have hcs : cs = .bits64 := by
        simp only [RmOperand.wf, MemOp.wf, Bool.and_eq_true, beq_iff_eq] at h
        exact h.2
      subst hcs
      refine ⟨⟨0, .d32 d, op.imm, 0 + 4 + op.len⟩, ?_, ?_⟩
      · have := readDisp_encode op 0#2 5#3 0 (.d32 d) 0 rest ⟨by decide, by simp⟩
        simpa [readTail, hasSib, RmOperand.encoding, Disp.len] using this
      · constructor <;> simp [RmOperand.encoding, RmOperand.len, rmOperand, memOperand, MemOp.len, Disp.value32]
    | abs32 d =>
      have hcs : cs = .bits32 := by
        simp only [RmOperand.wf, MemOp.wf, Bool.and_eq_true, beq_iff_eq] at h
        exact h.2
      subst hcs
      refine ⟨⟨0, .d32 d, op.imm, 0 + 4 + op.len⟩, ?_, ?_⟩
      · have := readDisp_encode op 0#2 5#3 0 (.d32 d) 0 rest ⟨by decide, by simp⟩
        simpa [readTail, hasSib, RmOperand.encoding, Disp.len] using this
      · constructor <;> simp [RmOperand.encoding, RmOperand.len, rmOperand, memOperand, MemOp.len, Disp.value32]
    | base b d =>
      simp only [RmOperand.wf, MemOp.wf, Bool.and_eq_true, bne_iff_ne, ne_eq, Disp.okForBase, Bool.or_eq_true] at h
      obtain ⟨-, ⟨-, h4⟩, h5⟩ := h
      refine ⟨⟨0, d, op.imm, 0 + d.len + op.len⟩, ?_, ?_⟩
      · have hd := readDisp_encode op d.md (GReg.low3 b) 0 d 0 rest (by
          cases d
          · simp [DispFits, Disp.md, h4]; simpa using h5
          · simp [Disp.md]
          · simp [Disp.md])
        simpa [readTail, hasSib, RmOperand.encoding, low3_eq, h4] using hd
      · have hmd : d.md ≠ 3#2 := by cases d <;> simp [Disp.md]
        have h0 : ¬ (d.md = 0#2 ∧ GReg.low3 b = 5#3) := by
          rintro ⟨ha, hb⟩
          cases d <;> simp_all [Disp.md]
        constructor
        · simp [RmOperand.len, MemOp.len]
        · rfl
        · simp [RmOperand.encoding, rmOperand, memOperand, low3_eq, hmd, h4, h0]
          have : ∀ b : GReg, bits4 b[3] (GReg.low3 b)[2] (GReg.low3 b)[1] (GReg.low3 b)[0] = b := by decide
          exact this b
        · simp [RmOperand.encoding]
        · simp [RmOperand.encoding, low3_eq, h4]
          intro ha hb; exact absurd ⟨ha, hb⟩ h0
    | sib ss idx bs d =>
      simp only [RmOperand.wf, MemOp.wf, Bool.and_eq_true] at h
      obtain ⟨-, hi, hb⟩ := h
      have hidx : bits4 (idx.getD 4#4)[3] (idx.getD 4#4)[2] (idx.getD 4#4)[1] (idx.getD 4#4)[0] = idx.getD 4#4 := by simp
      have hidx2 : (if idx.getD 4#4 = 4#4 then none else some (idx.getD 4#4)) = idx := by
        cases idx with
        | none => rfl
        | some r => simp at hi ⊢; exact hi.2
      set sb := sibByte ss (idx.getD 4#4) (bs.getD 5#4) with hsb
      have hf3 : field3 sb 0 = GReg.low3 (bs.getD 5#4) := by simp [hsb, sibByte, low3_eq]
      have hmd : (if bs = none then 0#2 else d.md) ≠ 3#2 := by
        split
        · decide
        · cases d <;> simp [Disp.md]
      refine ⟨⟨sb, d, op.imm, 1 + d.len + op.len⟩, ?_, ?_⟩
      · have hd := readDisp_encode op (if bs = none then 0#2 else d.md) 4#3 sb d 1 rest (by
          cases bs with
          | none => cases d <;> simp at hb; simp [hf3]; decide
          | some b =>
            simp [Disp.okForBase] at hb
            cases d <;> simp_all [Disp.md])
        simpa [readTail, hasSib, RmOperand.encoding, hmd] using hd
      · constructor
        · simp [RmOperand.len, MemOp.len]
        · rfl
        · simp only [RmOperand.encoding, rmOperand, if_neg hmd, memOperand, if_true]
          congr 2
          · simp [hsb, sibByte]
          · simpa [hsb, sibByte] using hidx2
          · cases bs with
            | none => simp [hf3]; decide
            | some b =>
              simp [Disp.okForBase] at hb
              have : ¬ (d.md = 0#2 ∧ field3 sb 0 = 5#3) := by
                rintro ⟨h1, h2⟩
                rw [hf3] at h2
                cases d <;> simp_all [Disp.md]
              have h3 : ¬ ((if some b = none then 0#2 else d.md) = 0#2 ∧ field3 sb 0 = 5#3) := by simpa using this
              refine (if_neg h3).trans ?_
              simp [hsb, sibByte]
        · simp [RmOperand.encoding]
        · simp only [RmOperand.encoding]
          intro h1 h2
          cases bs with
          | none => decide
          | some b =>
            exfalso
            simp [Disp.okForBase] at hb
            have h2 : GReg.low3 b = 5#3 := by simpa [hf3] using h2
            cases d <;> simp_all [Disp.md]

/-- In 32-bit modes the operand leaves X and B at 0 (30_encoding.md R74). -/
theorem x_of_wf32 {cs : CodeSize} (hcs : cs ≠ .bits64) {rm : RmOperand} (h : rm.wf cs = true) :
    rm.encoding.x = false ∧ rm.encoding.b = false := by
  have hcs : (cs == .bits64) = false := by simpa using hcs
  cases rm with
  | reg r => simpa [RmOperand.wf, VReg.valid, RmOperand.encoding, hcs] using h
  | mem bc m =>
    cases m with
    | ripRel d => simp [RmOperand.encoding]
    | abs32 d => simp [RmOperand.encoding]
    | base b d =>
      simp [RmOperand.wf, MemOp.wf, GReg.valid, hcs] at h
      simp [RmOperand.encoding, h]
    | sib ss idx bs d =>
      simp [RmOperand.wf, MemOp.wf, GReg.valid, hcs] at h
      cases idx <;> cases bs <;> cases d <;> simp_all [RmOperand.encoding]

/-- Code with 16-bit addressing has register operands only. -/
theorem reg_of_wf16 {rm : RmOperand} (h : rm.wf .bits16 = true) : rm.encoding.md = 3#2 := by
  cases rm with
  | reg r => rfl
  | mem bc m => simp [RmOperand.wf] at h

theorem bcst_of_reg (rm : RmOperand) : (rm.encoding.md == 3#2 && rm.encoding.bcst) = false := by
  cases rm with
  | reg r => simp [RmOperand.encoding]
  | mem bc m =>
    cases m with
    | ripRel d => simp [RmOperand.encoding]
    | abs32 d => simp [RmOperand.encoding]
    | base b d => cases d <;> simp [RmOperand.encoding, Disp.md]
    | sib ss idx bs d => cases bs <;> cases d <;> simp [RmOperand.encoding, Disp.md]

/-! ## What the decoder accepts -/

/-- The bytes of a displacement are the four bytes it was read from. -/
@[simp] theorem dispBytes_le32 (a b c d : Byte) : (Disp.d32 (le32 a b c d)).bytes = [a, b, c, d] := by
  have h (v : Byte) (i : Nat) (hi : i < 8) : v.getLsbD i = v[i] := by simp [hi]
  simp only [Disp.bytes, le32, List.cons.injEq, and_true]
  refine ⟨?_, ?_, ?_, ?_⟩ <;>
    (apply BitVec.eq_of_getLsbD_eq; intro i hi
     simp only [BitVec.getLsbD_extractLsb', BitVec.getLsbD_append, hi, decide_true, Bool.true_and])
  · simp [hi]
  · have h1 : ¬ 8 + i < 8 := by omega
    have h2 : 8 + i - 8 = i := by omega
    simp [h1, h2, hi]
  · have h1 : ¬ 16 + i < 8 := by omega
    have h2 : ¬ 16 + i - 8 < 8 := by omega
    have h3 : 16 + i - 8 - 8 = i := by omega
    simp [h1, h2, h3, hi]
  · have h1 : ¬ 24 + i < 8 := by omega
    have h2 : ¬ 24 + i - 8 < 8 := by omega
    have h3 : ¬ 24 + i - 8 - 8 < 8 := by omega
    have h4 : 24 + i - 8 - 8 - 8 = i := by omega
    simp [h1, h2, h3, h4]

/-- What a tail that was read says of the bytes after ModRM. -/
structure TailRead (opA : Bool) (md : BitVec 2) (rm : BitVec 3) (bytes : List Byte) (t : Tail) : Prop where
  bytes_eq : ∃ rest, bytes =
    (if hasSib md rm then [t.sib] else []) ++ (t.disp.bytes ++ ((if opA then [t.imm] else []) ++ rest))
  len_eq : t.len = (if hasSib md rm then 1 else 0) + t.disp.len + (if opA then 1 else 0)
  fits : DispFits md rm t.sib t.disp
  imm_eq : opA = false → t.imm = 0

theorem readImm_some {opA : Bool} {sib : Byte} {d : Disp} {n : Nat} {bytes : List Byte} {t : Tail}
    (h : readImm opA sib d n bytes = some t) :
    (∃ rest, bytes = (if opA then [t.imm] else []) ++ rest) ∧ t.sib = sib ∧ t.disp = d ∧
      t.len = n + (if opA then 1 else 0) ∧ (opA = false → t.imm = 0) := by
  cases opA with
  | true =>
    cases bytes with
    | nil => cases h
    | cons i rest => cases h; exact ⟨⟨rest, rfl⟩, rfl, rfl, rfl, nofun⟩
  | false => cases h; exact ⟨⟨bytes, rfl⟩, rfl, rfl, rfl, fun _ => rfl⟩

theorem readDisp_some {opA : Bool} {md : BitVec 2} {rm : BitVec 3} {sib : Byte} {n : Nat} {bytes : List Byte} {t : Tail}
    (h : readDisp opA md rm sib n bytes = some t) :
    (∃ rest, bytes = t.disp.bytes ++ ((if opA then [t.imm] else []) ++ rest)) ∧ t.sib = sib ∧
      t.len = n + t.disp.len + (if opA then 1 else 0) ∧ DispFits md rm sib t.disp ∧ (opA = false → t.imm = 0) := by
  unfold readDisp at h
  split at h
  · rename_i h1
    cases bytes with
    | nil => cases h
    | cons d rest =>
      obtain ⟨⟨r, hr⟩, h2, h3, h4, h5⟩ := readImm_some h
      rw [h3, hr]
      exact ⟨⟨r, rfl⟩, h2, h4, h1, h5⟩
  · rename_i h1
    split at h
    · rename_i h2
      split at h
      · obtain ⟨⟨r, hr⟩, h3, h4, h5, h6⟩ := readImm_some h
        rw [h4, hr]
        exact ⟨⟨r, by simp⟩, h3, h5, ⟨h1, h2⟩, h6⟩
      · cases h
    · rename_i h2
      obtain ⟨⟨r, hr⟩, h3, h4, h5, h6⟩ := readImm_some h
      rw [h4, hr]
      exact ⟨⟨r, rfl⟩, h3, h5, ⟨h1, h2⟩, h6⟩

/-- A tail that is read stands at the head of the bytes and has the displacement that R62 asks for. -/
theorem readTail_some {opA : Bool} {md : BitVec 2} {rm : BitVec 3} {bytes : List Byte} {t : Tail}
    (h : readTail opA md rm bytes = some t) : TailRead opA md rm bytes t := by
  unfold readTail at h
  split at h
  · rename_i hs
    cases bytes with
    | nil => cases h
    | cons s rest =>
      obtain ⟨⟨r, hr⟩, h2, h3, h4, h5⟩ := readDisp_some h
      exact ⟨⟨r, by rw [hs, h2, hr]; rfl⟩, by rw [hs]; exact h3, h2 ▸ h4, h5⟩
  · rename_i hs
    obtain ⟨⟨r, hr⟩, h2, h3, h4, h5⟩ := readDisp_some h
    have hs : hasSib md rm = false := by simpa using hs
    exact ⟨⟨r, by rw [hs, hr]; rfl⟩, by rw [hs]; exact h3, h2 ▸ h4, h5⟩

theorem readDisp_isSome {opA : Bool} {md : BitVec 2} {rm : BitVec 3} {sib : Byte} {n : Nat} {bytes : List Byte}
    (h : 5 ≤ bytes.length) : ∃ t, readDisp opA md rm sib n bytes = some t := by
  match bytes, h with
  | a :: b :: c :: d :: e :: rest, _ =>
    unfold readDisp
    cases opA <;> (split; exact ⟨_, rfl⟩; split <;> exact ⟨_, rfl⟩)

/-- Six bytes after ModRM are enough for every tail: SIB, four of displacement, immediate (30_encoding.md R69). -/
theorem readTail_isSome {opA : Bool} {md : BitVec 2} {rm : BitVec 3} {bytes : List Byte} (h : 6 ≤ bytes.length) :
    ∃ t, readTail opA md rm bytes = some t ∧ t.len ≤ 6 := by
  match bytes, h with
  | a :: b :: c :: d :: e :: f :: rest, _ =>
    have key : ∃ t, readTail opA md rm (a :: b :: c :: d :: e :: f :: rest) = some t := by
      unfold readTail
      split <;> exact readDisp_isSome (by simp)
    obtain ⟨t, ht⟩ := key
    refine ⟨t, ht, ?_⟩
    rw [(readTail_some ht).len_eq]
    have : t.disp.len ≤ 4 := by cases t.disp <;> simp [Disp.len]
    split <;> split <;> omega

theorem TailRead.len_le {opA : Bool} {md : BitVec 2} {rm : BitVec 3} {bytes : List Byte} {t : Tail}
    (h : TailRead opA md rm bytes t) : t.len ≤ bytes.length := by
  obtain ⟨rest, hr⟩ := h.bytes_eq
  rw [h.len_eq, hr]
  simp only [List.length_append, length_dispBytes]
  split <;> split <;> simp

/-- The bytes after ModRM number what 30_encoding.md R69 says, the SIB byte being the first of them if there is one. -/
theorem TailRead.len_formula {opA : Bool} {md : BitVec 2} {rm : BitVec 3} {bytes : List Byte} {t : Tail}
    (h : TailRead opA md rm bytes t) :
    t.len = (if md ≠ 3#2 ∧ rm = 4#3 then 1 else 0) + (if md = 1#2 then 1 else 0) +
      (if md = 2#2 ∨ (md = 0#2 ∧ rm = 5#3) ∨ (md = 0#2 ∧ rm = 4#3 ∧ field3 (bytes.headD 0) 0 = 5#3) then 4 else 0) +
      (if opA then 1 else 0) := by
  have hs : (hasSib md rm = true) ↔ (md ≠ 3#2 ∧ rm = 4#3) := by simp [hasSib]
  have hb : md ≠ 3#2 → rm = 4#3 → bytes.headD 0 = t.sib := by
    intro h1 h2
    obtain ⟨rest, hr⟩ := h.bytes_eq
    rw [hr, if_pos (hs.mpr ⟨h1, h2⟩)]; rfl
  have hf := h.fits
  rw [h.len_eq]
  simp only [hs]
  have hbase : (md = 2#2 ∨ (md = 0#2 ∧ rm = 5#3) ∨ (md = 0#2 ∧ rm = 4#3 ∧ field3 (bytes.headD 0) 0 = 5#3)) ↔
      (md = 2#2 ∨ (md = 0#2 ∧ (rm = 5#3 ∨ (rm = 4#3 ∧ field3 t.sib 0 = 5#3)))) := by
    constructor
    · rintro (h1 | h1 | ⟨h1, h2, h3⟩)
      · exact .inl h1
      · exact .inr ⟨h1.1, .inl h1.2⟩
      · rw [hb (by rw [h1]; decide) h2] at h3
        exact .inr ⟨h1, .inr ⟨h2, h3⟩⟩
    · rintro (h1 | ⟨h1, h2 | ⟨h2, h3⟩⟩)
      · exact .inl h1
      · exact .inr (.inl ⟨h1, h2⟩)
      · rw [← hb (by rw [h1]; decide) h2] at h3
        exact .inr (.inr ⟨h1, h2, h3⟩)
  simp only [hbase]
  cases hd : t.disp with
  | absent => rw [hd] at hf; rw [if_neg hf.1, if_neg hf.2]; simp [Disp.len]
  | d8 v =>
    rw [hd] at hf
    have hf : md = 1#2 := hf
    subst hf
    simp [Disp.len]
  | d32 v => rw [hd] at hf; rw [if_neg hf.1, if_pos hf.2]; simp [Disp.len]

theorem readImm_append {opA : Bool} {sib : Byte} {d : Disp} {n : Nat} {bytes : List Byte} {t : Tail}
    (h : readImm opA sib d n bytes = some t) (rest : List Byte) : readImm opA sib d n (bytes ++ rest) = some t := by
  cases opA with
  | false => exact h
  | true =>
    cases bytes with
    | nil => cases h
    | cons i r => exact h

theorem readDisp_append {opA : Bool} {md : BitVec 2} {rm : BitVec 3} {sib : Byte} {n : Nat} {bytes : List Byte}
    {t : Tail} (h : readDisp opA md rm sib n bytes = some t) (rest : List Byte) :
    readDisp opA md rm sib n (bytes ++ rest) = some t := by
  unfold readDisp at h ⊢
  split at h
  · rename_i h1
    rw [if_pos h1]
    cases bytes with
    | nil => cases h
    | cons d r => exact readImm_append h rest
  · rename_i h1
    rw [if_neg h1]
    split at h
    · rename_i h2
      rw [if_pos h2]
      split at h
      · exact readImm_append h rest
      · cases h
    · rename_i h2
      rw [if_neg h2]
      exact readImm_append h rest

/-- A tail that is read is the same whatever bytes follow. -/
theorem readTail_append {opA : Bool} {md : BitVec 2} {rm : BitVec 3} {bytes : List Byte} {t : Tail}
    (h : readTail opA md rm bytes = some t) (rest : List Byte) : readTail opA md rm (bytes ++ rest) = some t := by
  unfold readTail at h ⊢
  split at h
  · rename_i hs
    rw [if_pos hs]
    cases bytes with
    | nil => cases h
    | cons s r => exact readDisp_append h rest
  · rename_i hs
    rw [if_neg hs]
    exact readDisp_append h rest

/-- A tail cut short is not read. -/
theorem readTail_take {opA : Bool} {md : BitVec 2} {rm : BitVec 3} {bytes : List Byte} {t : Tail}
    (h : readTail opA md rm bytes = some t) {n : Nat} (hn : n < t.len) : readTail opA md rm (bytes.take n) = none := by
  cases hu : readTail opA md rm (bytes.take n) with
  | none => rfl
  | some u =>
    have h2 := readTail_append hu (bytes.drop n)
    rw [List.take_append_drop, h] at h2
    obtain rfl := Option.some.inj h2
    have := (readTail_some hu).len_le
    rw [List.length_take] at this
    omega

/-- Before a byte that is not skipped, the skipped bytes are the legacy prefixes. -/
theorem takeWhile_legacy_append {cs : CodeSize} {legacy : List Byte} (h : ∀ b ∈ legacy, isLegacy cs b = true)
    {b : Byte} (hb : isLegacy cs b = false) (rest : List Byte) :
    (legacy ++ b :: rest).takeWhile (isLegacy cs) = legacy ∧
      (legacy ++ b :: rest).dropWhile (isLegacy cs) = b :: rest := by
  induction legacy with
  | nil => simp [hb]
  | cons c bs ih =>
    have hc := h c (by simp)
    have := ih fun d hd => h d (by simp [hd])
    simp [hc, this]

theorem takeWhile_legacy {cs : CodeSize} {legacy : List Byte} (h : ∀ b ∈ legacy, isLegacy cs b = true)
    (rest : List Byte) :
    (legacy ++ 0x62#8 :: rest).takeWhile (isLegacy cs) = legacy ∧
      (legacy ++ 0x62#8 :: rest).dropWhile (isLegacy cs) = 0x62#8 :: rest :=
  takeWhile_legacy_append h (isLegacy_62 cs) rest

/-- Decoding at an EVEX prefix, in a code size whose other reading of 62H is ruled out and without the byte 67H, or with
a forbidden byte beside it. -/
theorem decode_evex {strict : Bool} {cs : CodeSize} {legacy : List Byte} {p0 : Byte} {rest : List Byte}
    (h : ∀ b ∈ legacy, isLegacy cs b = true)
    (ha : legacy.any isAddressSize = true → legacy.any (isForbiddenLegacy cs) = true)
    (hp : cs ≠ .bits64 → p0.getLsbD 7 = true ∧ p0.getLsbD 6 = true) :
    decode strict cs (legacy ++ 0x62#8 :: p0 :: rest) = decodeEvex strict cs legacy p0 rest := by
  obtain ⟨h1, h2⟩ := takeWhile_legacy h (p0 :: rest)
  have hc : (cs != .bits64 && !(p0.getLsbD 7 && p0.getLsbD 6)) = false := by
    by_cases h64 : cs = .bits64
    · simp [h64]
    · simp [hp h64]
  have ha : (legacy.any isAddressSize && !legacy.any (isForbiddenLegacy cs)) = false := by
    cases h3 : legacy.any isAddressSize
    · rfl
    · rw [ha h3]; rfl
  simp only [decode, h1, h2, ha, hc]
  simp

/-- A form that is no memory form with 16-bit addresses is measured before it is judged. -/
theorem decodeEvex_form {strict : Bool} {cs : CodeSize} {legacy : List Byte} {p0 p1 p2 op modrm : Byte}
    {tail : List Byte} {opA : Bool} (hop : opEnOf p0 p1 op modrm = some opA)
    (h16 : usesAddressing16 cs legacy = true → field2 modrm = 3#2) :
    decodeEvex strict cs legacy p0 (p1 :: p2 :: op :: modrm :: tail) =
      match readTail opA (field2 modrm) (field3 modrm 0) tail with
      | none => .short
      | some t => decodeForm strict cs legacy opA p0 p1 p2 modrm t := by
  have h : (usesAddressing16 cs legacy && field2 modrm != 3#2) = false := by
    cases hu : usesAddressing16 cs legacy
    · rfl
    · simp [h16 hu]
  simp only [decodeEvex, hop, h]
  rfl

/-- A memory form with 16-bit addresses is judged by its bytes up to ModRM, whatever follows them. -/
theorem decodeEvex_form16 {strict : Bool} {cs : CodeSize} {legacy : List Byte} {p0 p1 p2 op modrm : Byte}
    {tail : List Byte} {opA : Bool} (hop : opEnOf p0 p1 op modrm = some opA)
    (hu : usesAddressing16 cs legacy = true) (hm : field2 modrm ≠ 3#2) :
    decodeEvex strict cs legacy p0 (p1 :: p2 :: op :: modrm :: tail) =
      decodeForm16 cs legacy opA p0 p1 p2 modrm := by
  have hm : (field2 modrm != 3#2) = true := by simpa using hm
  simp only [decodeEvex, hop, hu, hm]
  rfl

/-- The bytes of an instruction cut short are `short`, whatever is wrong with it (60_exceptions.md R130): the decoder
asks for all of them before it judges. `t.len` counts the bytes after ModRM. -/
theorem decode_take_short {strict : Bool} {cs : CodeSize} {legacy : List Byte} {p0 p1 p2 op modrm : Byte}
    {tail : List Byte} {opA : Bool} {t : Tail} (h : ∀ b ∈ legacy, isLegacy cs b = true)
    (ha : legacy.any isAddressSize = true → legacy.any (isForbiddenLegacy cs) = true)
    (hp : cs ≠ .bits64 → p0.getLsbD 7 = true ∧ p0.getLsbD 6 = true) (hop : opEnOf p0 p1 op modrm = some opA)
    (h16 : usesAddressing16 cs legacy = true → field2 modrm = 3#2)
    (ht : readTail opA (field2 modrm) (field3 modrm 0) tail = some t) {n : Nat} (hn : n < legacy.length + 6 + t.len) :
    decode strict cs ((legacy ++ 0x62#8 :: p0 :: p1 :: p2 :: op :: modrm :: tail).take n) = .short := by
  by_cases hl : n ≤ legacy.length
  · rw [List.take_append_of_le_length hl]
    have : (legacy.take n).dropWhile (isLegacy cs) = [] :=
      List.dropWhile_eq_nil_iff.mpr fun b hb => h b (List.mem_of_mem_take hb)
    simp [decode, this]
  obtain ⟨m, rfl⟩ : ∃ m, n = legacy.length + (m + 1) := ⟨n - legacy.length - 1, by omega⟩
  rw [List.take_length_add_append, List.take_succ_cons]
  match m, hn with
  | 0, _ =>
    simp [decode, (takeWhile_legacy h []).2]
  | m + 1, hn =>
    rw [List.take_succ_cons, decode_evex h ha hp]
    match m, hn with
    | 0, _ => rfl
    | 1, _ => rfl
    | 2, _ => rfl
    | 3, _ => rfl
    | m + 4, hn =>
      simp only [List.take_succ_cons, decodeEvex_form hop h16, readTail_take ht (show m < t.len by omega)]

/-- An instruction of more than 15 bytes is too long, whatever else is wrong with it (60_exceptions.md R130). -/
theorem decode_tooLong {strict : Bool} {cs : CodeSize} {legacy : List Byte} {p0 p1 p2 op modrm : Byte}
    {tail : List Byte} {opA : Bool} {t : Tail} (h : ∀ b ∈ legacy, isLegacy cs b = true)
    (ha : legacy.any isAddressSize = true → legacy.any (isForbiddenLegacy cs) = true)
    (hp : cs ≠ .bits64 → p0.getLsbD 7 = true ∧ p0.getLsbD 6 = true) (hop : opEnOf p0 p1 op modrm = some opA)
    (h16 : usesAddressing16 cs legacy = true → field2 modrm = 3#2)
    (ht : readTail opA (field2 modrm) (field3 modrm 0) tail = some t) (hn : 15 < legacy.length + 6 + t.len) :
    decode strict cs (legacy ++ 0x62#8 :: p0 :: p1 :: p2 :: op :: modrm :: tail) = .tooLong := by
  rw [decode_evex h ha hp]
  simp only [decodeEvex_form hop h16, ht, decodeForm, if_pos hn]

/-- What must hold for the checks after the bytes are known to accept. -/
structure Accepted (strict : Bool) (cs : CodeSize) (legacy : List Byte) (opA : Bool) (p0 p1 p2 modrm : Byte) (t : Tail)
    (vl : VLen) : Prop where
  short : legacy.length + 6 + t.len ≤ 15
  legacy_ok : legacy.any (isForbiddenLegacy cs) = false
  p0_3 : p0.getLsbD 3 = false
  p1_2 : p1.getLsbD 2 = true
  vlen : vlenOf p2 = some vl
  zeroing : (p2.getLsbD 7 && field3 p2 0 == 0#3) = false
  bcst : (field2 modrm == 3#2 && p2.getLsbD 4) = false
  vPrime : cs ≠ .bits64 → p2.getLsbD 3 = true
  ignored : strict = true → ignoredBitStored cs opA p0 p1 modrm t = false

/-- What the checks of a valid form say of its bytes. -/
theorem checkForm_ok {cs : CodeSize} {legacy : List Byte} {p0 p1 p2 modrm : Byte} {vl : VLen}
    (h : checkForm cs legacy p0 p1 p2 modrm = .ok vl) :
    legacy.any (isForbiddenLegacy cs) = false ∧ p0.getLsbD 3 = false ∧ p1.getLsbD 2 = true ∧ vlenOf p2 = some vl ∧
      (p2.getLsbD 7 && field3 p2 0 == 0#3) = false ∧ (field2 modrm == 3#2 && p2.getLsbD 4) = false ∧
      (cs ≠ .bits64 → p2.getLsbD 3 = true) := by
  unfold checkForm at h
  split at h
  · cases h
  rename_i h2
  split at h
  · cases h
  rename_i h3
  split at h
  · cases h
  rename_i vl' hvl
  split at h
  · cases h
  rename_i h4
  split at h
  · cases h
  rename_i h5
  split at h
  · cases h
  rename_i h6
  cases h
  simp only [Bool.or_eq_true, Bool.not_eq_true', not_or, Bool.not_eq_true, Bool.not_eq_false] at h3
  refine ⟨by simpa using h2, h3.1, h3.2, hvl, by simpa using h4, by simpa using h5, fun hc => ?_⟩
  simpa [hc] using h6

theorem decodeForm_instr {strict : Bool} {cs : CodeSize} {legacy : List Byte} {opA : Bool} {p0 p1 p2 modrm : Byte}
    {t : Tail} {i : Instr} (h : decodeForm strict cs legacy opA p0 p1 p2 modrm t = .instr i) :
    ∃ vl, Accepted strict cs legacy opA p0 p1 p2 modrm t vl ∧
      i = (assemble cs opA vl (legacy.filterMap SegReg.ofByte) p0 p1 p2 modrm t).toInstr := by
  unfold decodeForm at h
  split at h
  · cases h
  rename_i h1
  split at h
  · cases h
  rename_i vl hvl
  split at h
  · cases h
  rename_i h7
  obtain ⟨h2, h3, h4, h5, h6, h8, h9⟩ := checkForm_ok hvl
  refine ⟨vl, ⟨by omega, h2, h3, h4, h5, h6, h8, h9, ?_⟩, (Decoded.instr.inj h).symm⟩
  rintro rfl; simpa using h7

/-- A memory form with 16-bit addresses is no instruction of the model. -/
theorem decodeForm16_ne_instr (cs : CodeSize) (legacy : List Byte) (opA : Bool) (p0 p1 p2 modrm : Byte) (i : Instr) :
    decodeForm16 cs legacy opA p0 p1 p2 modrm ≠ .instr i := by
  unfold decodeForm16
  split
  · nofun
  · split <;> nofun

theorem mem_takeWhile_legacy {cs : CodeSize} {bytes : List Byte} {b : Byte} (h : b ∈ bytes.takeWhile (isLegacy cs)) :
    isLegacy cs b = true := by
  induction bytes with
  | nil => simp at h
  | cons c rest ih =>
    by_cases hc : isLegacy cs c = true
    · rw [List.takeWhile_cons_of_pos hc] at h
      rcases List.mem_cons.mp h with rfl | h
      · exact hc
      · exact ih h
    · rw [List.takeWhile_cons_of_neg hc] at h; simp at h

/-- Everything an accepted instruction says of its bytes (30_encoding.md R75). -/
theorem decode_instr {strict : Bool} {cs : CodeSize} {bytes : List Byte} {i : Instr}
    (h : decode strict cs bytes = .instr i) :
    ∃ legacy p0 p1 p2 op modrm tail opA t vl,
      bytes = legacy ++ 0x62#8 :: p0 :: p1 :: p2 :: op :: modrm :: tail ∧
      (∀ b ∈ legacy, isLegacy cs b = true) ∧ legacy.any isAddressSize = false ∧
      (cs ≠ .bits64 → p0.getLsbD 7 = true ∧ p0.getLsbD 6 = true) ∧
      (usesAddressing16 cs legacy = true → field2 modrm = 3#2) ∧
      opEnOf p0 p1 op modrm = some opA ∧ readTail opA (field2 modrm) (field3 modrm 0) tail = some t ∧
      Accepted strict cs legacy opA p0 p1 p2 modrm t vl ∧
      i = (assemble cs opA vl (legacy.filterMap SegReg.ofByte) p0 p1 p2 modrm t).toInstr := by
  have hsplit := List.takeWhile_append_dropWhile (p := isLegacy cs) (l := bytes)
  have hleg : ∀ b ∈ bytes.takeWhile (isLegacy cs), isLegacy cs b = true := fun b hb => mem_takeWhile_legacy hb
  unfold decode at h
  simp only at h
  generalize hL : bytes.takeWhile (isLegacy cs) = legacy at *
  generalize bytes.dropWhile (isLegacy cs) = rest at *
  cases rest with
  | nil => cases h
  | cons b afterB =>
    simp only at h
    split at h
    · cases h
    rename_i hb
    have hb : b = 0x62#8 := by simpa using hb
    subst hb
    cases afterB with
    | nil => cases h
    | cons p0 r =>
      simp only at h
      split at h
      · cases h
      rename_i hc
      split at h
      · cases h
      rename_i ha
      unfold decodeEvex at h
      split at h
      · rename_i p1 p2 op modrm tail
        split at h
        · split at h
          · cases h
          · split at h <;> cases h
        · rename_i opA hop
          split at h
          · exact (decodeForm16_ne_instr _ _ _ _ _ _ _ _ h).elim
          rename_i h16
          split at h
          · cases h
          · rename_i t ht
            obtain ⟨vl, hacc, hi⟩ := decodeForm_instr h
            refine ⟨legacy, p0, p1, p2, op, modrm, tail, opA, t, vl, hsplit.symm, hleg, ?_, ?_, ?_, hop, ht, hacc, hi⟩
            · simpa [hacc.legacy_ok] using ha
            · intro h64
              simpa [h64] using hc
            · intro hu
              simpa [hu] using h16
      · cases h

/-- Skipped bytes with neither a forbidden byte nor 67H are segment overrides. -/
theorem legacy_eq_overrides {cs : CodeSize} {legacy : List Byte} (h : ∀ b ∈ legacy, isLegacy cs b = true)
    (ha : legacy.any isAddressSize = false) (hf : legacy.any (isForbiddenLegacy cs) = false) :
    (legacy.filterMap SegReg.ofByte).map SegReg.toByte = legacy := by
  induction legacy with
  | nil => rfl
  | cons b bs ih =>
    simp only [List.any_cons, Bool.or_eq_false_iff] at ha hf
    have hb := h b (by simp)
    simp only [isLegacy, ha.1, hf.1, Bool.or_false] at hb
    have ih := ih (fun c hc => h c (by simp [hc])) ha.2 hf.2
    cases ho : SegReg.ofByte b with
    | none => simp [ho] at hb
    | some r =>
      have hr : r.toByte = b := by
        revert ho
        unfold SegReg.ofByte
        repeat' split
        all_goals (intro ho; cases ho <;> simp_all [SegReg.toByte])
      simp [ho, hr, ih]

end Sys2Proof
end

