-- ==== Sys2Proof/Laws/Encode.lean ====
section
/-! SUPPORT. The encoding read back part by part: what the opcode selects, what the decoder sees in the bytes of an
encoding, and what encoding an operand that was read gives. -/

namespace Sys2Proof

/-- Every instruction's core bytes select its own operand encoding (30_encoding.md R56, R57). -/
theorem opEnOf_coreBytes (f : Fields) : opEnOf f.p0 f.p1 f.opcode f.modrm = some f.op.isA := by
  obtain ⟨w, vl, e, dst, rm, op⟩ := f
  cases op with
  | a i => simp [opEnOf, Fields.p0, Fields.p1, Fields.opcode, Fields.modrm, OpEn.isA, Fields.regSlot]; decide
  | b s => simp [opEnOf, Fields.p0, Fields.p1, Fields.opcode, Fields.modrm, OpEn.isA]; decide

theorem field2_modrm (f : Fields) : field2 f.modrm = f.rm.encoding.md := by
  simp [Fields.modrm]

theorem field3_modrm (f : Fields) : field3 f.modrm 0 = f.rm.encoding.rm := by
  simp [Fields.modrm]

/-- In 32-bit modes the two top bits of P0 are stored as 11b, so that 62H is an EVEX prefix (30_encoding.md R74). -/
theorem p0_top_of_wf32 {cs : CodeSize} (hcs : cs ≠ .bits64) {f : Fields} (h : f.wf cs = true) :
    f.p0.getLsbD 7 = true ∧ f.p0.getLsbD 6 = true := by
  have h64 : (cs == .bits64) = false := by simpa using hcs
  simp only [Fields.wf, Bool.and_eq_true] at h
  obtain ⟨⟨⟨⟨-, hd⟩, hrm⟩, -⟩, -⟩ := h
  have hx := (x_of_wf32 hcs hrm).1
  obtain ⟨w, vl, e, dst, rm, op⟩ := f
  cases op with
  | a i => simp at hx; simp [Fields.p0, Fields.regSlot, hx]
  | b s =>
    have : dst[4] = false ∧ dst[3] = false := by simpa [VReg.valid, h64] using hd
    simp at hx; simp [Fields.p0, Fields.regSlot, hx, this]

/-- The operand is a register. -/
def isReg : RmOperand → Bool
  | .reg _ => true
  | .mem _ _ => false

theorem md_of_isReg {rm : RmOperand} (h : isReg rm = true) : rm.encoding.md = 3#2 := by
  cases rm with
  | reg r => rfl
  | mem bc m => cases h

/-- Any skipped bytes, 67H only beside a forbidden byte, then the encoding of a well-formed instruction without its
overrides: the decoder comes to its checks with exactly the parts encoded. In 32-bit code with 67H the operand is a
register. -/
theorem decode_legacy_encode (strict : Bool) {cs : CodeSize} {legacy : List Byte}
    (hl : ∀ b ∈ legacy, isLegacy cs b = true)
    (ha : legacy.any isAddressSize = true → legacy.any (isForbiddenLegacy cs) = true) {f : Fields} (h : f.wf cs = true)
    (h16 : cs = .bits32 → legacy.any isAddressSize = true → isReg f.rm = true) (rest : List Byte) :
    ∃ t, TailOf cs f.rm f.op t ∧
      decode strict cs (legacy ++ (f.coreBytes ++ (f.rm.encoding.bytes ++ (f.op.bytes ++ rest)))) =
        decodeForm strict cs legacy f.op.isA f.p0 f.p1 f.p2 f.modrm t := by
  have hwf := h
  simp only [Fields.wf, Bool.and_eq_true] at hwf
  obtain ⟨t, hrt, ht⟩ := readTail_encode cs f.rm f.op rest hwf.1.1.2
  refine ⟨t, ht, ?_⟩
  have := decode_evex (strict := strict) (p0 := f.p0) (rest := f.p1 :: f.p2 :: f.opcode :: f.modrm ::
    (f.rm.encoding.bytes ++ (f.op.bytes ++ rest))) hl ha fun hcs => p0_top_of_wf32 hcs h
  refine this.trans ?_
  have hu : usesAddressing16 cs legacy = true → field2 f.modrm = 3#2 := by
    rw [field2_modrm]
    cases cs with
    | bits64 => nofun
    | bits32 => exact fun hu => md_of_isReg (h16 rfl hu)
    | bits16 => exact fun _ => reg_of_wf16 hwf.1.1.2
  simp only [decodeEvex_form (opEnOf_coreBytes f) hu, field2_modrm, field3_modrm, hrt]

/-- The bytes of an instruction, after its overrides. -/
theorem encode_append (i : Instr) (rest : List Byte) :
    encode i ++ rest = i.fields.e.overrides.map SegReg.toByte ++
      (i.fields.coreBytes ++ (i.fields.rm.encoding.bytes ++ (i.fields.op.bytes ++ rest))) := by
  simp [encode, Fields.encode]

theorem md_zero {md : BitVec 2} (h3 : md ≠ 3#2) (h1 : md ≠ 1#2) (h2 : md ≠ 2#2) : md = 0#2 := by
  revert md; decide

theorem disp_md {md : BitVec 2} {rm : BitVec 3} {sib : Byte} {d : Disp} (hf : DispFits md rm sib d) (hmd : md ≠ 3#2)
    (h0 : ¬ (md = 0#2 ∧ (rm = 5#3 ∨ rm = 4#3 ∧ field3 sib 0 = 5#3))) : d.md = md := by
  cases d with
  | absent => exact (md_zero hmd hf.1 (fun h => hf.2 (.inl h))).symm
  | d8 v => exact Eq.symm hf
  | d32 v =>
    rcases hf.2 with h2 | h2
    · exact h2.symm
    · exact absurd h2 h0

theorem vlen_encoding {p2 : Byte} {vl : VLen} (h : vlenOf p2 = some vl) : vl.encoding = (p2.getLsbD 6, p2.getLsbD 5) := by
  unfold vlenOf at h
  revert h
  generalize p2.getLsbD 6 = a
  generalize p2.getLsbD 5 = b
  cases a <;> cases b <;> intro h <;> cases h <;> rfl

theorem opEnOf_some {p0 p1 op modrm : Byte} {opA : Bool} (h : opEnOf p0 p1 op modrm = some opA) :
    p1.getLsbD 1 = false ∧ p1.getLsbD 0 = true ∧ p0.getLsbD 2 = false ∧ p0.getLsbD 1 = (!opA) ∧ p0.getLsbD 0 = opA ∧
      op = (if opA then 0x72#8 else 0x14#8) ∧ (opA = true → field3 modrm 3 = 0#3) := by
  have hk : ∀ b : Byte, (field3 b 0 = 1#3 → b.getLsbD 2 = false ∧ b.getLsbD 1 = false ∧ b.getLsbD 0 = true) ∧
      (field3 b 0 = 2#3 → b.getLsbD 2 = false ∧ b.getLsbD 1 = true ∧ b.getLsbD 0 = false) := by decide
  unfold opEnOf at h
  split at h
  · cases h
  rename_i h1
  have h1 : p1.getLsbD 1 = false ∧ p1.getLsbD 0 = true := by simpa using h1
  split at h
  · rename_i h2
    cases h
    have := (hk p0).1 h2.1
    exact ⟨h1.1, h1.2, this.1, this.2.1, this.2.2, h2.2.1, fun _ => h2.2.2⟩
  split at h
  · rename_i h2
    cases h
    have := (hk p0).2 h2.1
    exact ⟨h1.1, h1.2, this.1, this.2.1, this.2.2, h2.2, nofun⟩
  · cases h

/-- An operand that was read is one an encoding can name, and takes as many bytes as were read. -/
theorem rmOperand_wf {cs : CodeSize} {x b bcst opA : Bool} {md : BitVec 2} {rm : BitVec 3} {bytes : List Byte}
    {t : Tail}
    (h : TailRead opA md rm bytes t) (h32 : cs ≠ .bits64 → x = false ∧ b = false) (h16 : cs = .bits16 → md = 3#2) :
    (rmOperand cs x b bcst md rm t).wf cs = true ∧
      (rmOperand cs x b bcst md rm t).len + (if opA then 1 else 0) = t.len := by
  have hl := h.len_eq
  have hf := h.fits
  unfold rmOperand
  split
  · rename_i hmd
    subst hmd
    have hd : t.disp = .absent := by
      revert hf; cases t.disp <;> simp
    constructor
    · by_cases hcs : cs = .bits64
      · subst hcs; rfl
      · obtain ⟨rfl, rfl⟩ := h32 hcs
        have hcs : (cs == .bits64) = false := by simpa using hcs
        simp only [RmOperand.wf, VReg.valid, hcs, Bool.false_or]
        generalize rm.getLsbD 2 = a; generalize rm.getLsbD 1 = b; generalize rm.getLsbD 0 = c
        revert a b c; decide
    · rw [hl, hd]; simp [hasSib, RmOperand.len, Disp.len]
  · rename_i hmd
    have hc16 : (cs != .bits16) = true := by simpa using fun hc => hmd (h16 hc)
    have h32 : (cs == .bits64) = false → x = false ∧ b = false := fun hc => h32 (by simpa using hc)
    unfold memOperand
    split
    · rename_i hrm
      subst hrm
      have hs : hasSib md 4#3 = true := by simp [hasSib, hmd]
      rw [hs] at hl
      constructor
      · simp only [RmOperand.wf, MemOp.wf, hc16, Bool.true_and, Bool.and_eq_true, GReg.valid]
        constructor
        · generalize t.sib.getLsbD 5 = a; generalize t.sib.getLsbD 4 = b; generalize t.sib.getLsbD 3 = c
          clear * - h32
          cases hcs : (cs == .bits64)
          · obtain ⟨rfl, rfl⟩ := h32 hcs
            revert a b c; decide
          · clear h32; revert x a b c; decide
        · split_ifs with h5
          · revert hf; cases t.disp <;> simp [h5]
          · simp only [Bool.and_eq_true]
            have : GReg.low3 (bits4 b (t.sib.getLsbD 2) (t.sib.getLsbD 1) (t.sib.getLsbD 0)) = field3 t.sib 0 := by
              simp only [field3]
              generalize t.sib.getLsbD (0+2) = x; generalize t.sib.getLsbD (0+1) = y; generalize t.sib.getLsbD 0 = c
              clear * -
              revert b x y c; decide
            constructor
            · generalize t.sib.getLsbD 2 = a; generalize t.sib.getLsbD 1 = y; generalize t.sib.getLsbD 0 = c
              clear * - h32
              cases hcs : (cs == .bits64)
              · obtain ⟨rfl, rfl⟩ := h32 hcs
                revert a y c; decide
              · rfl
            · simp only [Disp.okForBase, this]
              revert hf; cases t.disp <;> simp
              intro h1 h2 h3
              exact h3 (md_zero hmd h1 h2)
      · simp only [if_true] at hl
        simp only [RmOperand.len, MemOp.len]; omega
    · rename_i hrm
      have hs : hasSib md rm = false := by simp [hasSib, hrm]
      rw [hs] at hl
      split
      · rename_i h5
        obtain ⟨rfl, rfl⟩ := h5
        have hd : t.disp.len = 4 := by
          revert hf; cases t.disp <;> simp [Disp.len]
        have hc16 : cs ≠ .bits16 := by simpa using hc16
        cases cs <;> constructor <;> simp [RmOperand.wf, MemOp.wf, RmOperand.len, MemOp.len] <;>
          first | exact absurd rfl hc16 | simp [hl, hd]
      · rename_i h5
        constructor
        · have : GReg.low3 (bits4 b (rm.getLsbD 2) (rm.getLsbD 1) (rm.getLsbD 0)) = rm := by
            clear * -
            revert b rm; decide
          simp only [RmOperand.wf, MemOp.wf, hc16, Bool.true_and, this, GReg.valid, Bool.and_eq_true, bne_iff_ne, ne_eq, hrm, not_false_eq_true,
            and_true, Disp.okForBase]
          constructor
          · clear * - h32
            cases hcs : (cs == .bits64)
            · obtain ⟨rfl, rfl⟩ := h32 hcs
              revert rm; decide
            · rfl
          · revert hf; cases t.disp <;> simp
            intro h1 h2 h3 h4
            apply h5
            refine ⟨?_, h4⟩
            clear * - hmd h1 h2
            revert md; decide
        · simp [RmOperand.len, MemOp.len, hl]

/-- The bits of a register number put together are the bits it was put together from. -/
theorem bits5_bits (a b c d e : Bool) :
    (bits5 a b c d e).getLsbD 4 = a ∧ (bits5 a b c d e).getLsbD 3 = b ∧ (bits5 a b c d e).getLsbD 2 = c ∧
      (bits5 a b c d e).getLsbD 1 = d ∧ (bits5 a b c d e).getLsbD 0 = e := by
  revert a b c d e; decide

theorem bits4_bits (a b c d : Bool) :
    (bits4 a b c d).getLsbD 3 = a ∧ (bits4 a b c d).getLsbD 2 = b ∧ (bits4 a b c d).getLsbD 1 = c ∧
      (bits4 a b c d).getLsbD 0 = d := by
  revert a b c d; decide

theorem bits3_bits (rm : BitVec 3) : bits3 (rm.getLsbD 2) (rm.getLsbD 1) (rm.getLsbD 0) = rm := by
  revert rm; decide

theorem byteOf_bits (s : Byte) :
    byteOf (s.getLsbD 7) (s.getLsbD 6) (s.getLsbD 5) (s.getLsbD 4) (s.getLsbD 3) (s.getLsbD 2) (s.getLsbD 1)
      (s.getLsbD 0) = s := by
  revert s; decide

/-- An operand that was read encodes back to the bits and bytes it was read from, where the ignored bits are stored as
1. -/
theorem rmOperand_encoding {cs : CodeSize} {x b bcst opA : Bool} {md : BitVec 2} {rm : BitVec 3} {bytes : List Byte}
    {t : Tail}
    (h : TailRead opA md rm bytes t) (hx : md ≠ 3#2 → rm ≠ 4#3 → x = false)
    (hb : md = 0#2 → (rm = 5#3 ∨ rm = 4#3 ∧ field3 t.sib 0 = 5#3) → b = false) (hc : md = 3#2 → bcst = false) :
    (rmOperand cs x b bcst md rm t).encoding =
      ⟨x, b, bcst, md, rm, (if hasSib md rm then [t.sib] else []) ++ t.disp.bytes⟩ := by
  have hf := h.fits
  unfold rmOperand
  split
  · rename_i hmd
    subst hmd
    have hd : t.disp = .absent := by
      revert hf; cases t.disp <;> simp
    have := hc rfl
    subst this
    simp only [RmOperand.encoding, hd, Disp.bytes, hasSib]
    simp only [bits5_bits, bits3_bits]
    rfl
  · rename_i hmd
    unfold memOperand
    split
    · rename_i hrm
      subst hrm
      have hs : hasSib md 4#3 = true := by simp [hasSib, hmd]
      simp only [RmOperand.encoding, hs, if_true]
      have hi : ∀ r : GReg, (if r = 4#4 then none else some r).getD 4#4 = r := by decide
      rw [hi]
      have hf2 : ∀ s : Byte, (field2 s).getLsbD 1 = s.getLsbD 7 ∧ (field2 s).getLsbD 0 = s.getLsbD 6 := by decide
      by_cases h5 : md = 0#2 ∧ field3 t.sib 0 = 5#3
      · rw [if_pos h5]
        obtain ⟨rfl, h5⟩ := h5
        have := hb rfl (.inr ⟨rfl, h5⟩)
        subst this
        have h3 : t.sib.getLsbD 2 = true ∧ t.sib.getLsbD 1 = false ∧ t.sib.getLsbD 0 = true := by
          clear * - h5
          revert h5; generalize t.sib = s; revert s; decide
        simp only [sibByte, bits4_bits, hf2]
        have h0 : (5#4).getLsbD 2 = true ∧ (5#4).getLsbD 1 = false ∧ (5#4).getLsbD 0 = true := by decide
        simp only [Option.getD_none, h0]
        have := byteOf_bits t.sib
        rw [h3.1, h3.2.1, h3.2.2] at this
        rw [this]
        rfl
      · rw [if_neg h5]
        have hd : t.disp.md = md := disp_md hf hmd (by simpa using h5)
        simp only [hd, Option.getD_some, bits4_bits, sibByte, hf2, byteOf_bits, reduceCtorEq, if_false]
        rfl
    · rename_i hrm
      have hs : hasSib md rm = false := by simp [hasSib, hrm]
      have := hx hmd hrm
      subst this
      split
      · rename_i h5
        obtain ⟨rfl, rfl⟩ := h5
        have := hb rfl (.inl rfl)
        subst this
        have hd : ∃ v, t.disp = .d32 v := by
          revert hf; cases t.disp <;> simp
        obtain ⟨v, hd⟩ := hd
        cases cs <;> simp [RmOperand.encoding, hd, Disp.value32, hs]
      · rename_i h5
        have hd : t.disp.md = md := disp_md hf hmd (by simpa [hrm] using h5)
        simp only [RmOperand.encoding, bits4_bits, bits3_bits, hd, hs]
        rfl

end Sys2Proof
end

