-- ==== Sys2Proof/Laws/State.lean ====
section
/-! SUPPORT. What each update of the state leaves alone: one lemma per field per update. -/

namespace Sys2Proof.Machine

/-! ## writeZmm -/

@[simp] theorem writeZmm_k (s : State) (n : VReg) (v : Vec) : (s.writeZmm n v).k = s.k := rfl

@[simp] theorem writeZmm_x (s : State) (n : VReg) (v : Vec) : (s.writeZmm n v).x = s.x := rfl

@[simp] theorem writeZmm_rip (s : State) (n : VReg) (v : Vec) : (s.writeZmm n v).rip = s.rip := rfl

@[simp] theorem writeZmm_segs (s : State) (n : VReg) (v : Vec) : (s.writeZmm n v).segs = s.segs := rfl

@[simp] theorem writeZmm_csL (s : State) (n : VReg) (v : Vec) : (s.writeZmm n v).csL = s.csL := rfl

@[simp] theorem writeZmm_csD (s : State) (n : VReg) (v : Vec) : (s.writeZmm n v).csD = s.csD := rfl

@[simp] theorem writeZmm_rflags (s : State) (n : VReg) (v : Vec) : (s.writeZmm n v).rflags = s.rflags := rfl

@[simp] theorem writeZmm_mxcsr (s : State) (n : VReg) (v : Vec) : (s.writeZmm n v).mxcsr = s.mxcsr := rfl

@[simp] theorem writeZmm_cr0 (s : State) (n : VReg) (v : Vec) : (s.writeZmm n v).cr0 = s.cr0 := rfl

@[simp] theorem writeZmm_cr4 (s : State) (n : VReg) (v : Vec) : (s.writeZmm n v).cr4 = s.cr4 := rfl

@[simp] theorem writeZmm_xcr0 (s : State) (n : VReg) (v : Vec) : (s.writeZmm n v).xcr0 = s.xcr0 := rfl

@[simp] theorem writeZmm_efer (s : State) (n : VReg) (v : Vec) : (s.writeZmm n v).efer = s.efer := rfl

@[simp] theorem writeZmm_untouched (s : State) (n : VReg) (v : Vec) : (s.writeZmm n v).untouched = s.untouched := rfl

@[simp] theorem writeZmm_cpl (s : State) (n : VReg) (v : Vec) : (s.writeZmm n v).cpl = s.cpl := rfl

@[simp] theorem writeZmm_cpuid7ebx (s : State) (n : VReg) (v : Vec) : (s.writeZmm n v).cpuid7ebx = s.cpuid7ebx := rfl

@[simp] theorem writeZmm_cpuid1ecx (s : State) (n : VReg) (v : Vec) : (s.writeZmm n v).cpuid1ecx = s.cpuid1ecx := rfl

@[simp] theorem writeZmm_mem (s : State) (n : VReg) (v : Vec) : (s.writeZmm n v).mem = s.mem := rfl

@[simp] theorem writeZmm_map (s : State) (n : VReg) (v : Vec) : (s.writeZmm n v).map = s.map := rfl

@[simp] theorem writeZmm_choices (s : State) (n : VReg) (v : Vec) : (s.writeZmm n v).choices = s.choices := rfl

/-! ## advance -/

@[simp] theorem advance_zmm (s : State) (len : Nat) : (s.advance len).zmm = s.zmm := rfl

@[simp] theorem advance_k (s : State) (len : Nat) : (s.advance len).k = s.k := rfl

@[simp] theorem advance_x (s : State) (len : Nat) : (s.advance len).x = s.x := rfl

@[simp] theorem advance_segs (s : State) (len : Nat) : (s.advance len).segs = s.segs := rfl

@[simp] theorem advance_csL (s : State) (len : Nat) : (s.advance len).csL = s.csL := rfl

@[simp] theorem advance_csD (s : State) (len : Nat) : (s.advance len).csD = s.csD := rfl

@[simp] theorem advance_rflags (s : State) (len : Nat) : (s.advance len).rflags = s.rflags := rfl

@[simp] theorem advance_mxcsr (s : State) (len : Nat) : (s.advance len).mxcsr = s.mxcsr := rfl

@[simp] theorem advance_cr0 (s : State) (len : Nat) : (s.advance len).cr0 = s.cr0 := rfl

@[simp] theorem advance_cr4 (s : State) (len : Nat) : (s.advance len).cr4 = s.cr4 := rfl

@[simp] theorem advance_xcr0 (s : State) (len : Nat) : (s.advance len).xcr0 = s.xcr0 := rfl

@[simp] theorem advance_efer (s : State) (len : Nat) : (s.advance len).efer = s.efer := rfl

@[simp] theorem advance_untouched (s : State) (len : Nat) : (s.advance len).untouched = s.untouched := rfl

@[simp] theorem advance_cpl (s : State) (len : Nat) : (s.advance len).cpl = s.cpl := rfl

@[simp] theorem advance_cpuid7ebx (s : State) (len : Nat) : (s.advance len).cpuid7ebx = s.cpuid7ebx := rfl

@[simp] theorem advance_cpuid1ecx (s : State) (len : Nat) : (s.advance len).cpuid1ecx = s.cpuid1ecx := rfl

@[simp] theorem advance_mem (s : State) (len : Nat) : (s.advance len).mem = s.mem := rfl

@[simp] theorem advance_map (s : State) (len : Nat) : (s.advance len).map = s.map := rfl

@[simp] theorem advance_avx512InUse (s : State) (len : Nat) : (s.advance len).avx512InUse = s.avx512InUse := rfl

@[simp] theorem advance_choices (s : State) (len : Nat) : (s.advance len).choices = s.choices := rfl

/-! ## loadCode -/

@[simp] theorem loadCode_zmm (s : State) (base : Word64) (bs : List Byte) : (s.loadCode base bs).zmm = s.zmm := rfl

@[simp] theorem loadCode_k (s : State) (base : Word64) (bs : List Byte) : (s.loadCode base bs).k = s.k := rfl

@[simp] theorem loadCode_x (s : State) (base : Word64) (bs : List Byte) : (s.loadCode base bs).x = s.x := rfl

@[simp] theorem loadCode_rip (s : State) (base : Word64) (bs : List Byte) : (s.loadCode base bs).rip = s.rip := rfl

@[simp] theorem loadCode_segs (s : State) (base : Word64) (bs : List Byte) : (s.loadCode base bs).segs = s.segs := rfl

@[simp] theorem loadCode_csL (s : State) (base : Word64) (bs : List Byte) : (s.loadCode base bs).csL = s.csL := rfl

@[simp] theorem loadCode_csD (s : State) (base : Word64) (bs : List Byte) : (s.loadCode base bs).csD = s.csD := rfl

@[simp] theorem loadCode_rflags (s : State) (base : Word64) (bs : List Byte) :
    (s.loadCode base bs).rflags = s.rflags := rfl

@[simp] theorem loadCode_mxcsr (s : State) (base : Word64) (bs : List Byte) :
    (s.loadCode base bs).mxcsr = s.mxcsr := rfl

@[simp] theorem loadCode_cr0 (s : State) (base : Word64) (bs : List Byte) : (s.loadCode base bs).cr0 = s.cr0 := rfl

@[simp] theorem loadCode_cr4 (s : State) (base : Word64) (bs : List Byte) : (s.loadCode base bs).cr4 = s.cr4 := rfl

@[simp] theorem loadCode_xcr0 (s : State) (base : Word64) (bs : List Byte) : (s.loadCode base bs).xcr0 = s.xcr0 := rfl

@[simp] theorem loadCode_efer (s : State) (base : Word64) (bs : List Byte) : (s.loadCode base bs).efer = s.efer := rfl

@[simp] theorem loadCode_untouched (s : State) (base : Word64) (bs : List Byte) :
    (s.loadCode base bs).untouched = s.untouched := rfl

@[simp] theorem loadCode_cpl (s : State) (base : Word64) (bs : List Byte) : (s.loadCode base bs).cpl = s.cpl := rfl

@[simp] theorem loadCode_cpuid7ebx (s : State) (base : Word64) (bs : List Byte) :
    (s.loadCode base bs).cpuid7ebx = s.cpuid7ebx := rfl

@[simp] theorem loadCode_cpuid1ecx (s : State) (base : Word64) (bs : List Byte) :
    (s.loadCode base bs).cpuid1ecx = s.cpuid1ecx := rfl

@[simp] theorem loadCode_map (s : State) (base : Word64) (bs : List Byte) : (s.loadCode base bs).map = s.map := rfl

@[simp] theorem loadCode_avx512InUse (s : State) (base : Word64) (bs : List Byte) :
    (s.loadCode base bs).avx512InUse = s.avx512InUse := rfl

@[simp] theorem loadCode_choices (s : State) (base : Word64) (bs : List Byte) :
    (s.loadCode base bs).choices = s.choices := rfl

@[simp] theorem writeZmm_avx512InUse (s : State) (n : VReg) (v : Vec) : (s.writeZmm n v).avx512InUse = true := rfl

@[simp] theorem advance_rip (s : State) (len : Nat) : (s.advance len).rip = s.nextRip len := rfl

@[simp] theorem loadCode_mem (s : State) (base : Word64) (bs : List Byte) :
    (s.loadCode base bs).mem = s.mem.writeBytes base bs := rfl

/-! ## countRead -/

@[simp] theorem countRead_zmm (s : State) (b : Bool) : (s.countRead b).zmm = s.zmm := by
  cases b <;> rfl

@[simp] theorem countRead_k (s : State) (b : Bool) : (s.countRead b).k = s.k := by
  cases b <;> rfl

@[simp] theorem countRead_x (s : State) (b : Bool) : (s.countRead b).x = s.x := by
  cases b <;> rfl

@[simp] theorem countRead_rip (s : State) (b : Bool) : (s.countRead b).rip = s.rip := by
  cases b <;> rfl

@[simp] theorem countRead_segs (s : State) (b : Bool) : (s.countRead b).segs = s.segs := by
  cases b <;> rfl

@[simp] theorem countRead_csL (s : State) (b : Bool) : (s.countRead b).csL = s.csL := by
  cases b <;> rfl

@[simp] theorem countRead_csD (s : State) (b : Bool) : (s.countRead b).csD = s.csD := by
  cases b <;> rfl

@[simp] theorem countRead_rflags (s : State) (b : Bool) : (s.countRead b).rflags = s.rflags := by
  cases b <;> rfl

@[simp] theorem countRead_mxcsr (s : State) (b : Bool) : (s.countRead b).mxcsr = s.mxcsr := by
  cases b <;> rfl

@[simp] theorem countRead_cr0 (s : State) (b : Bool) : (s.countRead b).cr0 = s.cr0 := by
  cases b <;> rfl

@[simp] theorem countRead_cr4 (s : State) (b : Bool) : (s.countRead b).cr4 = s.cr4 := by
  cases b <;> rfl

@[simp] theorem countRead_xcr0 (s : State) (b : Bool) : (s.countRead b).xcr0 = s.xcr0 := by
  cases b <;> rfl

@[simp] theorem countRead_efer (s : State) (b : Bool) : (s.countRead b).efer = s.efer := by
  cases b <;> rfl

@[simp] theorem countRead_untouched (s : State) (b : Bool) : (s.countRead b).untouched = s.untouched := by
  cases b <;> rfl

@[simp] theorem countRead_cpl (s : State) (b : Bool) : (s.countRead b).cpl = s.cpl := by
  cases b <;> rfl

@[simp] theorem countRead_cpuid7ebx (s : State) (b : Bool) : (s.countRead b).cpuid7ebx = s.cpuid7ebx := by
  cases b <;> rfl

@[simp] theorem countRead_cpuid1ecx (s : State) (b : Bool) : (s.countRead b).cpuid1ecx = s.cpuid1ecx := by
  cases b <;> rfl

@[simp] theorem countRead_mem (s : State) (b : Bool) : (s.countRead b).mem = s.mem := by
  cases b <;> rfl

@[simp] theorem countRead_map (s : State) (b : Bool) : (s.countRead b).map = s.map := by
  cases b <;> rfl

@[simp] theorem countRead_avx512InUse (s : State) (b : Bool) : (s.countRead b).avx512InUse = s.avx512InUse := by
  cases b <;> rfl

@[simp] theorem countRead_choices (s : State) (b : Bool) :
    (s.countRead b).choices = if b then s.choices + 1 else s.choices := by
  cases b <;> rfl

/-! ## Derived bits that no update changes -/

@[simp] theorem writeZmm_mode (s : State) (n : VReg) (v : Vec) : (s.writeZmm n v).mode = s.mode := rfl

@[simp] theorem advance_mode (s : State) (len : Nat) : (s.advance len).mode = s.mode := rfl

@[simp] theorem loadCode_mode (s : State) (base : Word64) (bs : List Byte) : (s.loadCode base bs).mode = s.mode := rfl

@[simp] theorem countRead_mode (s : State) (b : Bool) : (s.countRead b).mode = s.mode := by
  cases b <;> rfl

@[simp] theorem writeZmm_long (s : State) (n : VReg) (v : Vec) : (s.writeZmm n v).long = s.long := rfl

@[simp] theorem advance_long (s : State) (len : Nat) : (s.advance len).long = s.long := rfl

@[simp] theorem loadCode_long (s : State) (base : Word64) (bs : List Byte) : (s.loadCode base bs).long = s.long := rfl

@[simp] theorem countRead_long (s : State) (b : Bool) : (s.countRead b).long = s.long := by
  cases b <;> rfl

@[simp] theorem writeZmm_codeSize (s : State) (n : VReg) (v : Vec) : (s.writeZmm n v).codeSize = s.codeSize := rfl

@[simp] theorem advance_codeSize (s : State) (len : Nat) : (s.advance len).codeSize = s.codeSize := rfl

@[simp] theorem loadCode_codeSize (s : State) (base : Word64) (bs : List Byte) :
    (s.loadCode base bs).codeSize = s.codeSize := rfl

@[simp] theorem countRead_codeSize (s : State) (b : Bool) : (s.countRead b).codeSize = s.codeSize := by
  cases b <;> rfl

/-! ## atProgram, startProgram -/

@[simp] theorem atProgram_zmm (s : State) (p : Program) : (s.atProgram p).zmm = s.zmm := rfl

@[simp] theorem atProgram_k (s : State) (p : Program) : (s.atProgram p).k = s.k := rfl

@[simp] theorem atProgram_x (s : State) (p : Program) : (s.atProgram p).x = s.x := rfl

@[simp] theorem atProgram_segs (s : State) (p : Program) : (s.atProgram p).segs = s.segs := rfl

@[simp] theorem atProgram_csL (s : State) (p : Program) : (s.atProgram p).csL = s.csL := rfl

@[simp] theorem atProgram_csD (s : State) (p : Program) : (s.atProgram p).csD = s.csD := rfl

@[simp] theorem atProgram_rflags (s : State) (p : Program) : (s.atProgram p).rflags = s.rflags := rfl

@[simp] theorem atProgram_mxcsr (s : State) (p : Program) : (s.atProgram p).mxcsr = s.mxcsr := rfl

@[simp] theorem atProgram_cr0 (s : State) (p : Program) : (s.atProgram p).cr0 = s.cr0 := rfl

@[simp] theorem atProgram_cr4 (s : State) (p : Program) : (s.atProgram p).cr4 = s.cr4 := rfl

@[simp] theorem atProgram_xcr0 (s : State) (p : Program) : (s.atProgram p).xcr0 = s.xcr0 := rfl

@[simp] theorem atProgram_efer (s : State) (p : Program) : (s.atProgram p).efer = s.efer := rfl

@[simp] theorem atProgram_untouched (s : State) (p : Program) : (s.atProgram p).untouched = s.untouched := rfl

@[simp] theorem atProgram_cpl (s : State) (p : Program) : (s.atProgram p).cpl = s.cpl := rfl

@[simp] theorem atProgram_cpuid7ebx (s : State) (p : Program) : (s.atProgram p).cpuid7ebx = s.cpuid7ebx := rfl

@[simp] theorem atProgram_cpuid1ecx (s : State) (p : Program) : (s.atProgram p).cpuid1ecx = s.cpuid1ecx := rfl

@[simp] theorem atProgram_map (s : State) (p : Program) : (s.atProgram p).map = s.map := rfl

@[simp] theorem atProgram_avx512InUse (s : State) (p : Program) : (s.atProgram p).avx512InUse = s.avx512InUse := rfl

@[simp] theorem atProgram_choices (s : State) (p : Program) : (s.atProgram p).choices = s.choices := rfl

@[simp] theorem atProgram_mode (s : State) (p : Program) : (s.atProgram p).mode = s.mode := rfl

@[simp] theorem atProgram_long (s : State) (p : Program) : (s.atProgram p).long = s.long := rfl

@[simp] theorem atProgram_codeSize (s : State) (p : Program) : (s.atProgram p).codeSize = s.codeSize := rfl

@[simp] theorem startProgram_zmm (s : State) (p : Program) : (s.startProgram p).zmm = s.zmm := rfl

@[simp] theorem startProgram_k (s : State) (p : Program) : (s.startProgram p).k = s.k := rfl

@[simp] theorem startProgram_x (s : State) (p : Program) : (s.startProgram p).x = s.x := rfl

@[simp] theorem startProgram_segs (s : State) (p : Program) : (s.startProgram p).segs = s.segs := rfl

@[simp] theorem startProgram_csL (s : State) (p : Program) : (s.startProgram p).csL = s.csL := rfl

@[simp] theorem startProgram_csD (s : State) (p : Program) : (s.startProgram p).csD = s.csD := rfl

@[simp] theorem startProgram_rflags (s : State) (p : Program) : (s.startProgram p).rflags = s.rflags := rfl

@[simp] theorem startProgram_mxcsr (s : State) (p : Program) : (s.startProgram p).mxcsr = s.mxcsr := rfl

@[simp] theorem startProgram_cr0 (s : State) (p : Program) : (s.startProgram p).cr0 = s.cr0 := rfl

@[simp] theorem startProgram_cr4 (s : State) (p : Program) : (s.startProgram p).cr4 = s.cr4 := rfl

@[simp] theorem startProgram_xcr0 (s : State) (p : Program) : (s.startProgram p).xcr0 = s.xcr0 := rfl

@[simp] theorem startProgram_efer (s : State) (p : Program) : (s.startProgram p).efer = s.efer := rfl

@[simp] theorem startProgram_untouched (s : State) (p : Program) : (s.startProgram p).untouched = s.untouched := rfl

@[simp] theorem startProgram_cpl (s : State) (p : Program) : (s.startProgram p).cpl = s.cpl := rfl

@[simp] theorem startProgram_cpuid7ebx (s : State) (p : Program) : (s.startProgram p).cpuid7ebx = s.cpuid7ebx := rfl

@[simp] theorem startProgram_cpuid1ecx (s : State) (p : Program) : (s.startProgram p).cpuid1ecx = s.cpuid1ecx := rfl

@[simp] theorem startProgram_map (s : State) (p : Program) : (s.startProgram p).map = s.map := rfl

@[simp] theorem startProgram_avx512InUse (s : State) (p : Program) :
    (s.startProgram p).avx512InUse = s.avx512InUse := rfl

@[simp] theorem startProgram_choices (s : State) (p : Program) : (s.startProgram p).choices = s.choices := rfl

@[simp] theorem startProgram_mode (s : State) (p : Program) : (s.startProgram p).mode = s.mode := rfl

@[simp] theorem startProgram_long (s : State) (p : Program) : (s.startProgram p).long = s.long := rfl

@[simp] theorem startProgram_codeSize (s : State) (p : Program) : (s.startProgram p).codeSize = s.codeSize := rfl

@[simp] theorem atProgram_rip (s : State) (p : Program) : (s.atProgram p).rip = s.truncAddr p.base := rfl

@[simp] theorem startProgram_rip (s : State) (p : Program) : (s.startProgram p).rip = s.truncAddr p.base := rfl

@[simp] theorem atProgram_mem (s : State) (p : Program) : (s.atProgram p).mem = s.mem := rfl

@[simp] theorem startProgram_mem (s : State) (p : Program) :
    (s.startProgram p).mem = s.mem.writeEach (s.atProgram p).fetchAddr 0 p.bytes := rfl

@[simp] theorem startProgram_fetchAddr (s : State) (p : Program) (i : Nat) :
    (s.startProgram p).fetchAddr i = (s.atProgram p).fetchAddr i := rfl

end Sys2Proof.Machine
end

