-- ==== Sys2Proof/Laws/Ops.lean ====
section
/-! SUPPORT. What each shared operation can do, said once. -/

namespace Sys2Proof.Machine

/-! ## Registers -/

@[simp] theorem readZmm_writeZmm_self (s : State) (n : VReg) (v : Vec) : (s.writeZmm n v).readZmm n = v := by
  simp [State.readZmm, State.writeZmm]

theorem readZmm_writeZmm_ne (s : State) {n m : VReg} (v : Vec) (h : m ≠ n) : (s.writeZmm n v).readZmm m = s.readZmm m := by
  have : n.toNat ≠ m.toNat := fun hh => h (BitVec.eq_of_toNat_eq hh.symm)
  simp [State.readZmm, State.writeZmm, Vector.getElem_set_ne, this]

@[simp] theorem readZmm_advance (s : State) (len : Nat) (n : VReg) : (s.advance len).readZmm n = s.readZmm n := rfl

@[simp] theorem readZmm_countRead (s : State) (b : Bool) (n : VReg) : (s.countRead b).readZmm n = s.readZmm n := by
  cases b <;> rfl

@[simp] theorem readZmm_complete_self (s : State) (w : ElemWidth) (vl : VLen) (len : Nat) (e : Evex) (dst : VReg)
    (src : Vec) (count : Nat → Nat) (b : Bool) :
    (s.complete w vl len e dst src count b).readZmm dst =
      rotateVector w vl src count (s.active e) e.z (s.readZmm dst) := by
  simp [State.complete]

theorem readZmm_complete_ne (s : State) (w : ElemWidth) (vl : VLen) (len : Nat) (e : Evex) {dst n : VReg} (src : Vec)
    (count : Nat → Nat) (b : Bool) (h : n ≠ dst) :
    (s.complete w vl len e dst src count b).readZmm n = s.readZmm n := by
  simp [State.complete, readZmm_writeZmm_ne _ _ h]

/-- An address cut to the width of addresses, as a number (20_memory.md R39). -/
theorem truncAddr_toNat (s : State) (a : Word64) :
    (s.truncAddr a).toNat = a.toNat % (if s.long then 2 ^ 64 else 2 ^ 32) := by
  unfold State.truncAddr
  have := a.isLt
  cases s.long <;> simp <;> omega

/-- Outside 64-bit mode the next program counter has 32 bits (10_state.md R13). -/
theorem nextRip_lt (s : State) (len : Nat) (h : s.long = false) : (s.nextRip len).toNat < 2 ^ 32 := by
  simp only [State.nextRip, h, Bool.false_eq_true, if_false, BitVec.toNat_setWidth]
  omega

/-! ## The enabling state -/

/-- When `enableFault` answers nothing the form is enabled. -/
theorem enableFault_eq_none_iff (s : State) (vl : VLen) : s.enableFault vl = none ↔ s.Enabled vl := by
  unfold State.enableFault State.Enabled
  cases s.mode <;> cases s.cr4OSXSAVE <;> cases s.xcr0Enabled <;> cases s.hasForm vl <;> cases s.cr0TS <;> decide

/-- The enabling state raises nothing but #UD and #NM (60_exceptions.md R121, R122). -/
theorem enableFault_cases (s : State) (vl : VLen) :
    s.enableFault vl = none ∨ s.enableFault vl = some .ud ∨ s.enableFault vl = some .nm := by
  unfold State.enableFault
  split
  · simp
  · split <;> simp

/-! ## The memory read -/

theorem pageFaults_eq_nil {s : State} {r : MemRef} {offs : List Nat}
    (h : ∀ i ∈ offs, ∀ c, s.translate .read (s.byteAddr r i) ≠ .pageFault c) : s.pageFaults r offs = [] := by
  unfold State.pageFaults
  rw [List.filterMap_eq_nil_iff]
  intro i hi
  split
  · rename_i c hc; exact absurd hc (h i hi c)
  · rfl

theorem mem_pageFaults {s : State} {r : MemRef} {offs : List Nat} {p : BitVec 32 × Word64}
    (h : p ∈ s.pageFaults r offs) :
    ∃ i ∈ offs, s.translate .read (s.byteAddr r i) = .pageFault p.1 ∧ p.2 = s.byteAddr r i := by
  unfold State.pageFaults at h
  rw [List.mem_filterMap] at h
  obtain ⟨i, hi, hp⟩ := h
  split at hp
  · rename_i c hc
    obtain rfl := Option.some.inj hp
    exact ⟨i, hi, hc, rfl⟩
  · exact absurd hp (by simp)

/-- The page fault reported is one of the bytes' page faults. -/
theorem pickPageFault_mem (n : Nat) (p : BitVec 32 × Word64) (ps : List (BitVec 32 × Word64)) :
    ∃ q ∈ p :: ps, pickPageFault n p ps = .pf q.1 q.2 := by
  cases ps with
  | nil => exact ⟨p, by simp, rfl⟩
  | cons a as =>
    simp only [pickPageFault]
    have hlt : Config.pageFaultByte n % ((a :: as).length + 1) < (p :: a :: as).length := Nat.mod_lt _ (by simp)
    rw [List.getElem?_eq_getElem hlt]
    exact ⟨_, List.getElem_mem hlt, rfl⟩

/-- Everything the fault of some bytes can be (60_exceptions.md R125 to R128, R130). -/
theorem bytesFault_cases {s : State} {r : MemRef} {offs : List Nat} {f : Fault} (h : s.bytesFault r offs = some f) :
    (f = segmentFault r.seg ∧ ∃ i ∈ offs, s.addressOk r i = false) ∨
    ((∀ i ∈ offs, s.addressOk r i = true) ∧ f = .ac ∧ s.alignmentFaults r = true) ∨
    ((∀ i ∈ offs, s.addressOk r i = true) ∧
      ∃ i ∈ offs, ∃ c, s.translate .read (s.byteAddr r i) = .pageFault c ∧ f = .pf c (s.byteAddr r i)) := by
  unfold State.bytesFault at h
  split at h
  · rename_i hany
    simp only [List.any_eq_true, Bool.not_eq_true'] at hany
    exact .inl ⟨(Option.some.inj h).symm, hany⟩
  · rename_i hany
    have hok : ∀ i ∈ offs, s.addressOk r i = true := by
      intro i hi
      by_contra hc
      exact hany (List.any_eq_true.mpr ⟨i, hi, by simpa using hc⟩)
    split at h
    · split at h
      · rename_i ha; exact .inr (.inl ⟨hok, (Option.some.inj h).symm, ha⟩)
      · exact absurd h (by simp)
    · rename_i p ps hp
      split at h
      · rename_i ha
        simp only [Bool.and_eq_true] at ha
        exact .inr (.inl ⟨hok, (Option.some.inj h).symm, ha.1⟩)
      · obtain ⟨q, hq, he⟩ := pickPageFault_mem s.choices p ps
        rw [← hp] at hq
        obtain ⟨i, hi, hc, ha⟩ := mem_pageFaults hq
        refine .inr (.inr ⟨hok, i, hi, q.1, hc, ?_⟩)
        rw [← Option.some.inj h, he, ha]

/-- Bytes with good addresses that `Translate` does not refuse, aligned or without alignment checking, do not fault. -/
theorem bytesFault_eq_none {s : State} {r : MemRef} {offs : List Nat} (h1 : ∀ i ∈ offs, s.addressOk r i = true)
    (h2 : ∀ i ∈ offs, ∀ c, s.translate .read (s.byteAddr r i) ≠ .pageFault c)
    (h3 : s.alignmentChecking = true → r.size ∣ (s.linear r).toNat) : s.bytesFault r offs = none := by
  have ha : s.alignmentFaults r = false := by
    unfold State.alignmentFaults
    cases hc : s.alignmentChecking
    · rfl
    · simp [Nat.mod_eq_zero_of_dvd (h3 hc)]
  have hany : offs.any (fun i => !s.addressOk r i) = false := by
    rw [List.any_eq_false]
    intro i hi
    simp [h1 i hi]
  simp [State.bytesFault, hany, pageFaults_eq_nil h2, ha]

/-- What the fault of the memory read can be: none, the fault of all its bytes, or, where some bytes belong to masked-off
elements only and the open choice suppresses, the fault of the other bytes (20_memory.md R42). -/
theorem memFault_cases (s : State) (r : MemRef) (act : Nat → Bool) :
    s.memFault r act = s.bytesFault r (List.range r.size) ∨
    ((∃ i < r.size, act i = false) ∧ s.memFault r act = s.bytesFault r ((List.range r.size).filter act)) := by
  unfold State.memFault
  split
  · rename_i h; exact .inl h.symm
  · rename_i f h
    split
    · exact .inl h.symm
    · rename_i hall
      split
      · refine .inr ⟨?_, rfl⟩
        by_contra hc
        push Not at hc
        refine hall (List.all_eq_true.mpr fun i hi => ?_)
        have := hc i (List.mem_range.mp hi)
        simpa using this
      · exact .inl h.symm

/-- A fault of the memory read comes from a byte of the operand. -/
theorem memFault_some {s : State} {r : MemRef} {act : Nat → Bool} {f : Fault} (h : s.memFault r act = some f) :
    ∃ offs : List Nat, (∀ i ∈ offs, i < r.size) ∧ s.bytesFault r offs = some f := by
  rcases memFault_cases s r act with hc | ⟨-, hc⟩
  · exact ⟨_, fun i hi => List.mem_range.mp hi, hc ▸ h⟩
  · exact ⟨_, fun i hi => List.mem_range.mp (List.mem_filter.mp hi).1, hc ▸ h⟩

/-- A readable memory operand does not fault. -/
theorem memFault_eq_none {s : State} {r : MemRef} (act : Nat → Bool) (h : s.Readable r) : s.memFault r act = none := by
  have : s.bytesFault r (List.range r.size) = none :=
    bytesFault_eq_none (fun i hi => (h.1 i (List.mem_range.mp hi)).1)
      (fun i hi c => by rw [(h.1 i (List.mem_range.mp hi)).2]; simp) h.2
  unfold State.memFault
  rw [this]

/-- A readable memory operand lies in no region with read side effects. -/
theorem touchesDevice_eq_false {s : State} {r : MemRef} (h : s.Readable r) : s.touchesDevice r = false := by
  unfold State.touchesDevice
  rw [List.any_eq_false]
  intro i hi
  simp [(h.1 i (List.mem_range.mp hi)).2]

/-- A readable ModRM:r/m operand gives the vector it stands for. -/
theorem readRm_of_readable {s : State} {w : ElemWidth} {vl : VLen} {len : Nat} {e : Evex} {rm : RmOperand}
    (h : s.OperandReadable w vl len e rm) : s.readRm w vl len e rm = .ok (s.operandVector w vl len e rm) := by
  cases rm with
  | reg n => rfl
  | mem bcst m =>
    obtain ⟨h1, h2⟩ := h
    have h3 : (!s.long && !s.csD) = false := by rcases h1 with h1 | h1 <;> simp [h1]
    simp [State.readRm, h3, memFault_eq_none _ h2, touchesDevice_eq_false h2, State.operandVector]

/-- Whatever ModRM:r/m vector is read is the one the operand stands for. -/
theorem readRm_ok {s : State} {w : ElemWidth} {vl : VLen} {len : Nat} {e : Evex} {rm : RmOperand} {v : Vec}
    (h : s.readRm w vl len e rm = .ok v) : v = s.operandVector w vl len e rm := by
  cases rm with
  | reg n => exact (Except.ok.inj h).symm
  | mem bcst m =>
    simp only [State.readRm] at h
    split at h
    · exact absurd h (by simp)
    · split at h
      · exact absurd h (by simp)
      · split at h
        · exact absurd h (by simp)
        · exact (Except.ok.inj h).symm

/-- Why a ModRM:r/m operand is not read: always a memory operand; 16-bit addressing, a fault of the read, or a region
with read side effects. -/
theorem readRm_error {s : State} {w : ElemWidth} {vl : VLen} {len : Nat} {e : Evex} {rm : RmOperand} {stop : Stop}
    (h : s.readRm w vl len e rm = .error stop) :
    ∃ bcst m, rm = .mem bcst m ∧
      ((s.long = false ∧ s.csD = false ∧ stop = .refuse .addressing16) ∨
       (∃ f, s.memFault (s.memRef w vl len e bcst m) (s.byteActive w vl e bcst) = some f ∧ stop = .fault f) ∨
       (s.memFault (s.memRef w vl len e bcst m) (s.byteActive w vl e bcst) = none ∧
         s.touchesDevice (s.memRef w vl len e bcst m) = true ∧ stop = .refuse .deviceMemory)) := by
  cases rm with
  | reg n => exact absurd h (by simp [State.readRm])
  | mem bcst m =>
    refine ⟨bcst, m, rfl, ?_⟩
    simp only [State.readRm] at h
    split at h
    · rename_i hc
      simp only [Bool.and_eq_true, Bool.not_eq_true'] at hc
      exact .inl ⟨hc.1, hc.2, (Except.error.inj h).symm⟩
    · split at h
      · rename_i f hf
        exact .inr (.inl ⟨f, hf, (Except.error.inj h).symm⟩)
      · rename_i hf
        split at h
        · rename_i hd
          exact .inr (.inr ⟨hf, hd, (Except.error.inj h).symm⟩)
        · exact absurd h (by simp)

/-- A memory operand that can be addressed is read unless the read faults or touches a region with read side effects. -/
theorem readRm_mem {s : State} {w : ElemWidth} {vl : VLen} {len : Nat} {e : Evex} {bcst : Bool} {m : MemOp}
    (hl : s.long = true ∨ s.csD = true) :
    s.readRm w vl len e (.mem bcst m) =
      (match s.memFault (s.memRef w vl len e bcst m) (s.byteActive w vl e bcst) with
        | some f => .error (.fault f)
        | none =>
          if s.touchesDevice (s.memRef w vl len e bcst m) then .error (.refuse .deviceMemory)
          else .ok (s.operandVector w vl len e (.mem bcst m))) := by
  have h : (!s.long && !s.csD) = false := by rcases hl with h | h <;> simp [h]
  simp only [State.readRm, h, Bool.false_eq_true, if_false]
  rfl

/-- Without a writemask every byte of the operand belongs to an element that is to be computed. -/
theorem byteActive_of_unmasked {s : State} {w : ElemWidth} {vl : VLen} {bcst : Bool} {e : Evex} (h : e.aaa = 0#3)
    (i : Nat) : s.byteActive w vl e bcst i = true := by
  unfold State.byteActive State.active
  rw [h]
  split
  · simp only [BEq.rfl, Bool.true_or, List.any_eq_true, List.mem_range, and_true]
    exact ⟨0, by cases w <;> cases vl <;> decide⟩
  · rfl

/-- When every byte is needed, nothing is suppressed. -/
theorem memFault_of_active {s : State} {r : MemRef} {act : Nat → Bool} (h : ∀ i < r.size, act i = true) :
    s.memFault r act = s.bytesFault r (List.range r.size) := by
  rcases memFault_cases s r act with h1 | ⟨⟨i, hi, h2⟩, -⟩
  · exact h1
  · rw [h i hi] at h2; cases h2

/-- Whatever is suppressed, the fault of the read is that of some bytes of the operand among which is every byte that is
needed. -/
theorem memFault_of_needed {s : State} {r : MemRef} {act : Nat → Bool} {k : Nat} (hk : k < r.size)
    (hact : act k = true) :
    ∃ offs : List Nat, k ∈ offs ∧ (∀ j ∈ offs, j < r.size) ∧ s.memFault r act = s.bytesFault r offs := by
  rcases memFault_cases s r act with h | ⟨-, h⟩
  · exact ⟨_, List.mem_range.mpr hk, fun j hj => List.mem_range.mp hj, h⟩
  · exact ⟨_, List.mem_filter.mpr ⟨List.mem_range.mpr hk, hact⟩,
      fun j hj => List.mem_range.mp (List.mem_filter.mp hj).1, h⟩

/-- A byte with a bad address or a refused one makes the read of the bytes fault. -/
theorem bytesFault_ne_none {s : State} {r : MemRef} {offs : List Nat} {k : Nat} (hk : k ∈ offs)
    (h : s.addressOk r k = false ∨ ∃ c, s.translate .read (s.byteAddr r k) = .pageFault c) :
    ∃ f, s.bytesFault r offs = some f := by
  unfold State.bytesFault
  split
  · exact ⟨_, rfl⟩
  rename_i hany
  rcases h with h | ⟨c, h⟩
  · exact absurd (List.any_eq_true.mpr ⟨k, hk, by simp [h]⟩) hany
  · have hne : s.pageFaults r offs ≠ [] := by
      intro hnil
      rw [State.pageFaults, List.filterMap_eq_nil_iff] at hnil
      have := hnil k hk
      rw [h] at this
      cases this
    split
    · rename_i hnil; exact absurd hnil hne
    · split <;> exact ⟨_, rfl⟩

end Sys2Proof.Machine
end

