-- ==== Sys2Proof/Laws/Exec.lean ====
section
/-! SUPPORT. What `exec` can do, said once for every instruction. -/

namespace Sys2Proof.Machine

/-- The vector to rotate and the counts, from the ModRM:r/m vector. -/
def formOperands (f : Fields) (s : State) (v : Vec) : Vec × (Nat → Nat) :=
  match f.op with
  | .a imm => (v, fun _ => imm.toNat)
  | .b src1 => (s.readZmm src1, fun j => (elem f.w.bits v j).toNat)

/-- The state an instruction of parts `f` completes in. -/
def completed (f : Fields) (s : State) : State :=
  s.complete f.w f.vl f.len f.e f.dst (s.rotatedVector f) (s.countOf f) (isMem f.rm)

/-- Every arm is the one shared execution of its parts. -/
theorem exec_eq_execForm (i : Instr) (s : State) :
    exec i s = execForm i.fields.w i.fields.vl i.fields.len i.fields.e i.fields.dst i.fields.rm
      (formOperands i.fields s) s := by
  cases i <;> rfl

theorem formOperands_operandVector (f : Fields) (s : State) :
    formOperands f s (s.operandVector f.w f.vl f.len f.e f.rm) = (s.rotatedVector f, s.countOf f) := by
  unfold formOperands State.rotatedVector State.countOf
  cases f.op <;> rfl

/-- Everything `exec` can do: an enabling fault, a stop at the ModRM:r/m operand, or completion. -/
theorem exec_cases (i : Instr) (s : State) :
    (∃ f, s.enableFault i.fields.vl = some f ∧ exec i s = .fault f) ∨
    (s.enableFault i.fields.vl = none ∧
      ∃ stop, s.readRm i.fields.w i.fields.vl i.fields.len i.fields.e i.fields.rm = .error stop ∧
        exec i s = stop.result) ∨
    (s.enableFault i.fields.vl = none ∧
      s.readRm i.fields.w i.fields.vl i.fields.len i.fields.e i.fields.rm =
        .ok (s.operandVector i.fields.w i.fields.vl i.fields.len i.fields.e i.fields.rm) ∧
      exec i s = .next (completed i.fields s)) := by
  rw [exec_eq_execForm]
  unfold execForm
  cases he : s.enableFault i.fields.vl with
  | some f => exact .inl ⟨f, rfl, rfl⟩
  | none =>
    cases hr : s.readRm i.fields.w i.fields.vl i.fields.len i.fields.e i.fields.rm with
    | error stop => exact .inr (.inl ⟨rfl, stop, rfl, rfl⟩)
    | ok v =>
      have hv := readRm_ok hr
      subst hv
      refine .inr (.inr ⟨rfl, rfl, ?_⟩)
      simp only [formOperands_operandVector, completed]

/-- If `exec` answers a next state, it is the completed one, and the form was enabled. -/
theorem exec_next {i : Instr} {s t : State} (h : exec i s = .next t) :
    s.Enabled i.fields.vl ∧ t = completed i.fields s := by
  rcases exec_cases i s with ⟨f, -, hf⟩ | ⟨-, stop, -, hs⟩ | ⟨he, -, hn⟩
  · rw [hf] at h; cases h
  · rw [hs] at h; cases stop <;> cases h
  · rw [hn] at h
    exact ⟨(enableFault_eq_none_iff _ _).mp he, (Host.Outcome.next.inj h).symm⟩

/-- An enabled form whose ModRM:r/m operand can be read completes. -/
theorem exec_of_readable {i : Instr} {s : State} (he : s.Enabled i.fields.vl)
    (hr : s.OperandReadable i.fields.w i.fields.vl i.fields.len i.fields.e i.fields.rm) :
    exec i s = .next (completed i.fields s) := by
  rcases exec_cases i s with ⟨f, hf, -⟩ | ⟨-, stop, hs, -⟩ | ⟨-, -, hn⟩
  · rw [(enableFault_eq_none_iff _ _).mpr he] at hf; cases hf
  · rw [readRm_of_readable hr] at hs; cases hs
  · exact hn

/-- What an enabled form does depends on the ModRM:r/m operand alone. -/
theorem exec_of_enabled {i : Instr} {s : State} (he : s.Enabled i.fields.vl) :
    exec i s = match s.readRm i.fields.w i.fields.vl i.fields.len i.fields.e i.fields.rm with
      | .error stop => stop.result
      | .ok _ => .next (completed i.fields s) := by
  rcases exec_cases i s with ⟨f, hf, -⟩ | ⟨-, stop, hs, hx⟩ | ⟨-, hr, hx⟩
  · rw [(enableFault_eq_none_iff _ _).mpr he] at hf; cases hf
  · rw [hs]; exact hx
  · rw [hr]; exact hx

/-- Everything an enabled form with a memory operand that can be addressed does: the fault of the read, the refusal of a
region with read side effects, or completion. -/
theorem exec_of_mem {i : Instr} {s : State} {bcst : Bool} {m : MemOp} {r : MemRef} (hrm : i.fields.rm = .mem bcst m)
    (hr : r = s.memRef i.fields.w i.fields.vl i.length i.fields.e bcst m) (he : s.Enabled i.fields.vl)
    (hl : s.long = true ∨ s.csD = true) :
    exec i s = match s.memFault r (s.byteActive i.fields.w i.fields.vl i.fields.e bcst) with
      | some f => .fault f
      | none => if s.touchesDevice r then .refused .deviceMemory else .next (completed i.fields s) := by
  have hr : s.memRef i.fields.w i.fields.vl i.fields.len i.fields.e bcst m = r := hr.symm
  rw [exec_of_enabled he, hrm, readRm_mem hl, hr]
  cases s.memFault r (s.byteActive i.fields.w i.fields.vl i.fields.e bcst) with
  | some f => rfl
  | none => cases s.touchesDevice r <;> rfl

/-- A form that is not enabled takes the enabling fault. -/
theorem exec_of_enableFault {i : Instr} {s : State} {f : Fault} (h : s.enableFault i.fields.vl = some f) :
    exec i s = .fault f := by
  rcases exec_cases i s with ⟨g, hg, hx⟩ | ⟨hn, -⟩ | ⟨hn, -⟩
  · rw [h] at hg; cases hg; exact hx
  · rw [h] at hn; cases hn
  · rw [h] at hn; cases hn

/-! ## Completion leaves the rest alone -/

theorem completed_sameElsewhere (f : Fields) (s : State) : SameElsewhere s (completed f s) := by
  simp [SameElsewhere, completed, State.complete]

@[simp] theorem completed_mem (f : Fields) (s : State) : (completed f s).mem = s.mem := by
  simp [completed, State.complete]

@[simp] theorem completed_rip (f : Fields) (s : State) : (completed f s).rip = s.nextRip f.len := by
  simp only [completed, State.complete, countRead_rip, advance_rip]
  rfl

@[simp] theorem completed_long (f : Fields) (s : State) : (completed f s).long = s.long := by
  simp [completed, State.complete]

@[simp] theorem completed_mode (f : Fields) (s : State) : (completed f s).mode = s.mode := by
  simp [completed, State.complete]

@[simp] theorem completed_avx512InUse (f : Fields) (s : State) : (completed f s).avx512InUse = true := by
  simp [completed, State.complete]

@[simp] theorem completed_choices (f : Fields) (s : State) :
    (completed f s).choices = if isMem f.rm then s.choices + 1 else s.choices := by
  simp [completed, State.complete]

theorem readZmm_completed_ne {f : Fields} {s : State} {n : VReg} (h : n ≠ f.dst) :
    (completed f s).readZmm n = s.readZmm n := by
  simp [completed, readZmm_complete_ne _ _ _ _ _ _ _ _ h]

theorem readZmm_completed_self (f : Fields) (s : State) :
    (completed f s).readZmm f.dst =
      rotateVector f.w f.vl (s.rotatedVector f) (s.countOf f) (s.active f.e) f.e.z (s.readZmm f.dst) := by
  simp [completed]

end Sys2Proof.Machine
end

