-- ==== Sys2Proof/Laws/Memory.lean ====
section
/-! SUPPORT. Memory: what a read after a write gives, and that every operation keeps the canonical form. -/

namespace Sys2Proof.Machine

theorem readCells_of_lt {a lo : Nat} {cells : List Host.Cell} (h : cellsWf lo cells = true) (ha : a < lo) :
    readCells a cells = Config.unlistedByte := by
  induction cells generalizing lo with
  | nil => rfl
  | cons c rest ih =>
    obtain ⟨b, v⟩ := c
    simp only [cellsWf, Bool.and_eq_true, decide_eq_true_eq] at h
    simp only [readCells]
    rw [if_neg (by omega)]
    exact ih h.2 (by omega)

theorem readCells_writeCells_self {a lo : Nat} (v : Byte) {cells : List Host.Cell} (h : cellsWf lo cells = true) :
    readCells a (writeCells a v cells) = v := by
  induction cells generalizing lo with
  | nil =>
    simp only [writeCells]
    split <;> simp_all [readCells]
  | cons c rest ih =>
    obtain ⟨b, u⟩ := c
    simp only [cellsWf, Bool.and_eq_true, decide_eq_true_eq] at h
    simp only [writeCells]
    split
    · split
      · rename_i hab hv
        simp only [readCells]
        rw [if_neg (by omega), readCells_of_lt h.2 (by omega), hv]
      · simp [readCells]
    · split
      · rename_i hab
        subst hab
        split
        · rename_i hv
          rw [readCells_of_lt h.2 (by omega), hv]
        · simp [readCells]
      · simp only [readCells]
        rw [if_neg (by omega)]
        exact ih h.2

theorem readCells_writeCells_ne {a c : Nat} (v : Byte) (cells : List Host.Cell) (hne : c ≠ a) :
    readCells c (writeCells a v cells) = readCells c cells := by
  induction cells with
  | nil =>
    simp only [writeCells]
    split
    · rfl
    · simp [readCells, Ne.symm hne]
  | cons p rest ih =>
    obtain ⟨b, u⟩ := p
    simp only [writeCells]
    split
    · split
      · rfl
      · simp [readCells, Ne.symm hne]
    · split
      · rename_i hab
        subst hab
        split <;> simp [readCells, Ne.symm hne]
      · simp only [readCells, ih]

theorem cellsWf_mono {lo lo' : Nat} {cells : List Host.Cell} (h : cellsWf lo cells = true) (hl : lo' ≤ lo) :
    cellsWf lo' cells = true := by
  cases cells with
  | nil => rfl
  | cons c rest =>
    obtain ⟨b, v⟩ := c
    simp only [cellsWf, Bool.and_eq_true, decide_eq_true_eq] at h ⊢
    exact ⟨⟨⟨by omega, h.1.1.2⟩, h.1.2⟩, h.2⟩

theorem cellsWf_writeCells {a lo : Nat} (v : Byte) {cells : List Host.Cell} (h : cellsWf lo cells = true)
    (ha : a < 2 ^ 64) (hlo : lo ≤ a) : cellsWf lo (writeCells a v cells) = true := by
  induction cells generalizing lo with
  | nil =>
    simp only [writeCells]
    split
    · rfl
    · simp_all [cellsWf]
  | cons c rest ih =>
    obtain ⟨b, u⟩ := c
    have h0 := h
    simp only [cellsWf, Bool.and_eq_true, decide_eq_true_eq, bne_iff_ne, ne_eq] at h
    simp only [writeCells]
    split
    · split
      · exact h0
      · simp only [cellsWf, Bool.and_eq_true, decide_eq_true_eq, bne_iff_ne, ne_eq]
        exact ⟨⟨⟨hlo, ha⟩, by assumption⟩, ⟨⟨by omega, h.1.1.2⟩, h.1.2⟩, h.2⟩
    · split
      · rename_i hab
        subst hab
        split
        · exact cellsWf_mono h.2 (by omega)
        · simp only [cellsWf, Bool.and_eq_true, decide_eq_true_eq, bne_iff_ne, ne_eq]
          exact ⟨⟨⟨hlo, ha⟩, by assumption⟩, h.2⟩
      · simp only [cellsWf, Bool.and_eq_true, decide_eq_true_eq, bne_iff_ne, ne_eq]
        exact ⟨⟨⟨h.1.1.1, h.1.1.2⟩, h.1.2⟩, ih h.2 (by omega)⟩

/-- Every store keeps the canonical form. -/
theorem Memory.wf_write {m : Memory} (h : m.wf = true) (a : Word64) (v : Byte) : (m.write a v).wf = true :=
  cellsWf_writeCells v h a.isLt (Nat.zero_le _)

/-- Every store of several bytes keeps the canonical form. -/
theorem Memory.wf_writeBytes {m : Memory} (h : m.wf = true) (a : Word64) (bs : List Byte) :
    (m.writeBytes a bs).wf = true := by
  induction bs generalizing m a with
  | nil => exact h
  | cons b rest ih => exact ih (m.wf_write h a b) (a + 1)

/-- Storing bytes each at its own address keeps the canonical form. -/
theorem Memory.wf_writeEach {m : Memory} (h : m.wf = true) (addr : Nat → Word64) (i : Nat) (bs : List Byte) :
    (m.writeEach addr i bs).wf = true := by
  induction bs generalizing m i with
  | nil => exact h
  | cons b rest ih => exact ih (m.wf_write h (addr i) b) (i + 1)

theorem Memory.read_write_self {m : Memory} (h : m.wf = true) (a : Word64) (v : Byte) : (m.write a v).read a = v :=
  readCells_writeCells_self v h

theorem Memory.read_write_ne (m : Memory) {a b : Word64} (v : Byte) (h : b ≠ a) :
    (m.write a v).read b = m.read b :=
  readCells_writeCells_ne v m.cells (fun hh => h (BitVec.eq_of_toNat_eq hh))

/-- Storing bytes each at its own address leaves every other byte alone. -/
theorem Memory.read_writeEach_ne (m : Memory) {addr : Nat → Word64} {a : Word64} (i : Nat) (bs : List Byte)
    (h : ∀ k, k < bs.length → a ≠ addr (i + k)) : (m.writeEach addr i bs).read a = m.read a := by
  induction bs generalizing m i with
  | nil => rfl
  | cons b rest ih =>
    rw [Memory.writeEach, ih _ (i + 1) fun k hk => by
      have := h (k + 1) (by simpa using hk)
      rwa [show i + (k + 1) = i + 1 + k by omega] at this]
    exact read_write_ne m b (h 0 (by simp))

/-- Bytes stored at different addresses read back. -/
theorem Memory.read_writeEach {m : Memory} (hw : m.wf = true) {addr : Nat → Word64} (i : Nat) (bs : List Byte)
    (h : ∀ j k, j < k → k < bs.length → addr (i + j) ≠ addr (i + k)) {k : Nat} (hk : k < bs.length) :
    (m.writeEach addr i bs).read (addr (i + k)) = bs[k] := by
  induction bs generalizing m i k with
  | nil => exact absurd hk (by simp)
  | cons b rest ih =>
    have hs : ∀ j, i + (j + 1) = i + 1 + j := fun j => by omega
    cases k with
    | zero =>
      refine (read_writeEach_ne _ (i + 1) rest fun k hk => ?_).trans (read_write_self hw _ b)
      have := h 0 (k + 1) (by omega) (by simpa using hk)
      rwa [hs k] at this
    | succ k =>
      have := ih (m.wf_write hw (addr i) b) (i + 1) (fun j k hj hk => by
        have := h (j + 1) (k + 1) (by omega) (by simpa using hk)
        rwa [hs j, hs k] at this) (k := k) (by simpa using hk)
      rw [← hs k] at this
      simpa [Memory.writeEach] using this

end Sys2Proof.Machine
end

