-- ==== Sys2Proof/Laws/PerInstr.lean ====
section
/-! SUPPORT. Statements about every instruction, one lemma for each constructor. -/

namespace Sys2Proof.Laws

/-- The encoding of an instruction has as many bytes as the instruction's length says (30_encoding.md R69). -/
def EncodeLength.Statement (i : Instr) : Prop := (encode i).length = i.length

theorem EncodeLength.vprord128 (e : Evex) (dst : VReg) (src : RmOperand) (imm : BitVec 8) :
    EncodeLength.Statement (.vprord128 e dst src imm) := length_fieldsEncode _

theorem EncodeLength.vprord256 (e : Evex) (dst : VReg) (src : RmOperand) (imm : BitVec 8) :
    EncodeLength.Statement (.vprord256 e dst src imm) := length_fieldsEncode _

theorem EncodeLength.vprord512 (e : Evex) (dst : VReg) (src : RmOperand) (imm : BitVec 8) :
    EncodeLength.Statement (.vprord512 e dst src imm) := length_fieldsEncode _

theorem EncodeLength.vprorvd128 (e : Evex) (dst src : VReg) (cnt : RmOperand) :
    EncodeLength.Statement (.vprorvd128 e dst src cnt) := length_fieldsEncode _

theorem EncodeLength.vprorvd256 (e : Evex) (dst src : VReg) (cnt : RmOperand) :
    EncodeLength.Statement (.vprorvd256 e dst src cnt) := length_fieldsEncode _

theorem EncodeLength.vprorvd512 (e : Evex) (dst src : VReg) (cnt : RmOperand) :
    EncodeLength.Statement (.vprorvd512 e dst src cnt) := length_fieldsEncode _

theorem EncodeLength.vprorq128 (e : Evex) (dst : VReg) (src : RmOperand) (imm : BitVec 8) :
    EncodeLength.Statement (.vprorq128 e dst src imm) := length_fieldsEncode _

theorem EncodeLength.vprorq256 (e : Evex) (dst : VReg) (src : RmOperand) (imm : BitVec 8) :
    EncodeLength.Statement (.vprorq256 e dst src imm) := length_fieldsEncode _

theorem EncodeLength.vprorq512 (e : Evex) (dst : VReg) (src : RmOperand) (imm : BitVec 8) :
    EncodeLength.Statement (.vprorq512 e dst src imm) := length_fieldsEncode _

theorem EncodeLength.vprorvq128 (e : Evex) (dst src : VReg) (cnt : RmOperand) :
    EncodeLength.Statement (.vprorvq128 e dst src cnt) := length_fieldsEncode _

theorem EncodeLength.vprorvq256 (e : Evex) (dst src : VReg) (cnt : RmOperand) :
    EncodeLength.Statement (.vprorvq256 e dst src cnt) := length_fieldsEncode _

theorem EncodeLength.vprorvq512 (e : Evex) (dst src : VReg) (cnt : RmOperand) :
    EncodeLength.Statement (.vprorvq512 e dst src cnt) := length_fieldsEncode _

end Sys2Proof.Laws
end

