-- ==== Sys2Proof/Laws/Step.lean ====
section
/-! SUPPORT. What the fetch and a step can do, said once. -/

namespace Sys2Proof.Machine

/-- Everything a step can do: run the instruction read at the program counter, or stop. -/
theorem step_cases (s : State) :
    (∃ i, s.instrAt = .ok i ∧ step s = exec i s) ∨ (∃ stop, s.instrAt = .error stop ∧ step s = stop.result) := by
  unfold step
  cases s.instrAt with
  | ok i => exact .inl ⟨i, rfl, rfl⟩
  | error stop => exact .inr ⟨stop, rfl, rfl⟩

/-- If a step answers a next state, some instruction has completed. -/
theorem step_next {s t : State} (h : step s = .next t) : ∃ i, s.instrAt = .ok i ∧ t = completed i.fields s := by
  rcases step_cases s with ⟨i, hi, hx⟩ | ⟨stop, -, hx⟩
  · exact ⟨i, hi, (exec_next (hx ▸ h)).2⟩
  · rw [hx] at h; cases stop <;> cases h

/-- An instruction at the program counter is one that the decoder reads from the bytes fetched there. -/
theorem instrAt_ok {s : State} {i : Instr} (h : s.instrAt = .ok i) :
    decode Config.strictIgnoredBits s.codeSize (s.fetchBytes 15 0).1 = .instr i := by
  unfold State.instrAt at h
  split at h
  · rename_i hd; rw [hd, Except.ok.inj h]
  all_goals first | cases h | (split at h <;> cases h)

/-- Bytes that can be fetched from byte `k` on are fetched, whatever follows them. -/
theorem fetchBytes_append (s : State) (bs : List Byte) (n k : Nat) (hn : bs.length ≤ n)
    (h : ∀ j, (hj : j < bs.length) → s.fetchByte (k + j) = .ok bs[j]) :
    (s.fetchBytes n k).1 = bs ++ (s.fetchBytes (n - bs.length) (k + bs.length)).1 ∧
      (s.fetchBytes n k).2 = (s.fetchBytes (n - bs.length) (k + bs.length)).2 := by
  induction bs generalizing n k with
  | nil => exact ⟨rfl, rfl⟩
  | cons b bs ih =>
    obtain ⟨m, rfl⟩ : ∃ m, n = m + 1 := ⟨n - 1, by simp at hn; omega⟩
    have h0 : s.fetchByte k = .ok b := h 0 (by simp)
    obtain ⟨h1, h2⟩ := ih m (k + 1) (by simpa using hn) fun j hj => by
      have := h (j + 1) (by simpa using hj)
      rwa [show k + (j + 1) = k + 1 + j by omega] at this
    have e1 : m + 1 - (b :: bs).length = m - bs.length := by simp
    have e2 : k + (b :: bs).length = k + 1 + bs.length := by simp; omega
    rw [e1, e2, State.fetchBytes, h0, ← h2]
    exact ⟨congrArg (b :: ·) h1, rfl⟩

/-- As many bytes as are asked for, all of which can be fetched. -/
theorem fetchBytes_all (s : State) {bs : List Byte} (h : s.CodeAt bs) : s.fetchBytes bs.length 0 = (bs, none) := by
  obtain ⟨h1, h2⟩ := fetchBytes_append s bs bs.length 0 le_rfl fun j hj => by simpa using h j hj
  rw [Nat.sub_self] at h1 h2
  exact Prod.ext (by simpa [State.fetchBytes] using h1) h2

/-- Bytes that can be fetched, and then one that cannot: the fetch stops there. -/
theorem fetchBytes_stop (s : State) {bs : List Byte} {n : Nat} {stop : Stop} (hn : bs.length < n)
    (h : ∀ j, (hj : j < bs.length) → s.fetchByte j = .ok bs[j]) (hs : s.fetchByte bs.length = .error stop) :
    s.fetchBytes n 0 = (bs, some stop) := by
  obtain ⟨h1, h2⟩ := fetchBytes_append s bs n 0 hn.le (by simpa using h)
  obtain ⟨m, hm⟩ : ∃ m, n - bs.length = m + 1 := ⟨n - bs.length - 1, by omega⟩
  rw [hm, Nat.zero_add, State.fetchBytes, hs] at h1 h2
  exact Prod.ext (by simpa using h1) h2

/-- Where the bytes that can be fetched end before the instruction does, the step stops for the next byte; where there are
fifteen of them the instruction is too long. -/
theorem step_of_short {s : State} (h : decode Config.strictIgnoredBits s.codeSize (s.fetchBytes 15 0).1 = .short) :
    step s = ((s.fetchBytes 15 0).2.getD (.fault .gp)).result := by
  simp only [step, State.instrAt, h]

/-- A step at a memory form with 16-bit addresses: the fault of the enabling state, or the refusal (log 9). -/
theorem step_of_addressing16 {s : State} {vl : VLen}
    (h : decode Config.strictIgnoredBits s.codeSize (s.fetchBytes 15 0).1 = .addressing16 vl) :
    step s = match s.enableFault vl with
      | some f => .fault f
      | none => .refused .addressing16 := by
  simp only [step, State.instrAt, h]
  cases s.enableFault vl <;> rfl

/-! ## The bytes before 62H, as 30_encoding.md R70 lists them -/

theorem isLegacy_iff (cs : CodeSize) (b : Byte) : isLegacy cs b = true ↔ SkippedByte cs b := by
  have h64 : ∀ b : Byte, isLegacy .bits64 b = true ↔
      (b ∈ [0x26#8, 0x2E#8, 0x36#8, 0x3E#8, 0x64#8, 0x65#8, 0x67#8, 0xF0#8, 0x66#8, 0xF2#8, 0xF3#8] ∨
        (0x40 ≤ b.toNat ∧ b.toNat ≤ 0x4F)) := by decide
  have h32 : ∀ b : Byte, isLegacy .bits32 b = true ↔
      b ∈ [0x26#8, 0x2E#8, 0x36#8, 0x3E#8, 0x64#8, 0x65#8, 0x67#8, 0xF0#8, 0x66#8, 0xF2#8, 0xF3#8] := by decide
  cases cs
  · simpa [SkippedByte] using h64 b
  · simpa [SkippedByte] using h32 b
  · simpa [SkippedByte] using (show isLegacy .bits16 b = true ↔ _ from h32 b)

theorem isForbiddenLegacy_iff (cs : CodeSize) (b : Byte) : isForbiddenLegacy cs b = true ↔ ForbiddenByte cs b := by
  cases cs <;> simp [isForbiddenLegacy, ForbiddenByte, or_assoc]

/-- 67H is among the bytes, in the decoder's own terms. -/
theorem any_isAddressSize (pre : List Byte) : pre.any isAddressSize = true ↔ 0x67#8 ∈ pre := by
  simp [isAddressSize]

theorem field2_eq_extract (b : Byte) : field2 b = b.extractLsb' 6 2 := by revert b; decide

/-- What `MeasuredPrefix` says, in the decoder's own terms. -/
theorem MeasuredPrefix.decoder {cs : CodeSize} {pre : List Byte} {p0 modrm : Byte}
    (h : MeasuredPrefix cs pre p0 modrm) :
    (∀ b ∈ pre, isLegacy cs b = true) ∧
      (pre.any isAddressSize = true → pre.any (isForbiddenLegacy cs) = true) ∧
      (cs ≠ .bits64 → p0.getLsbD 7 = true ∧ p0.getLsbD 6 = true) ∧
      (usesAddressing16 cs pre = true → field2 modrm = 3#2) := by
  obtain ⟨h1, h2, h3, h4, h5⟩ := h
  refine ⟨fun b hb => (isLegacy_iff cs b).mpr (h1 b hb), fun ha => ?_, fun hc => ?_, fun hu => ?_⟩
  · obtain ⟨c, hc, hf⟩ := h2 ((any_isAddressSize pre).mp ha)
    exact List.any_eq_true.mpr ⟨c, hc, (isForbiddenLegacy_iff cs c).mpr hf⟩
  · have : ∀ b : Byte, b.extractLsb' 6 2 = 3#2 → b.getLsbD 7 = true ∧ b.getLsbD 6 = true := by decide
    exact this p0 (h3 hc)
  · rw [field2_eq_extract]
    cases cs with
    | bits64 => cases hu
    | bits32 => exact h4 rfl ((any_isAddressSize pre).mp hu)
    | bits16 =>
      refine h5 rfl fun hm => ?_
      rw [usesAddressing16, (any_isAddressSize pre).mpr hm] at hu
      cases hu

theorem field3_eq_extract (b : Byte) : field3 b 0 = b.extractLsb' 0 3 ∧ field3 b 3 = b.extractLsb' 3 3 := by
  revert b; decide

/-- The formula of 30_encoding.md R69 counts the bytes the decoder reads. -/
theorem lengthByFormula_eq {opA : Bool} {modrm : Byte} {tail : List Byte} {t : Tail}
    (h : readTail opA (field2 modrm) (field3 modrm 0) tail = some t) (p : Nat) :
    lengthByFormula p opA modrm (tail.headD 0) = p + 6 + t.len := by
  rw [(readTail_some h).len_formula]
  simp only [lengthByFormula, field2_eq_extract, (field3_eq_extract _).1]
  omega

end Sys2Proof.Machine
end

