-- ==== Sys2Proof/Tests/Slice0.lean ====
section
/-! SUPPORT. The model's own tests: ill-formed terms refused, words written out from the spec decoded, one step of each
instruction on values of 95_test_vectors.md, and a witness for the hypotheses of each statement. -/

namespace Sys2Proof.Tests

set_option maxRecDepth 2048

open Sys2Proof.Machine

/-! ## Helpers -/

/-- A vector with the given elements of `w` bits, element 0 first. -/
def elems (w : Nat) (l : List Nat) : Vec := l.foldr (fun x acc => acc <<< w ||| BitVec.ofNat 512 x) 0

/-- A state with a vector register set. -/
def setZmm (s : State) (n : VReg) (v : Vec) : State := { s with zmm := s.zmm.set n.toNat v (by have := n.isLt; omega) }

/-- A state with a general register set. -/
def setX (s : State) (n : GReg) (v : Word64) : State := { s with x := s.x.set n.toNat v (by have := n.isLt; omega) }

/-- A state with an opmask register set. -/
def setK (s : State) (n : KReg) (v : Word64) : State := { s with k := s.k.set n.toNat v (by have := n.isLt; omega) }

/-- The launched machine after reset: 64-bit mode, forms enabled, everything mapped. -/
def ready : State := State.reset.launch

/-- A launched machine in a 32-bit mode with 32-bit addressing and flat readable segments. -/
def ready32 : State :=
  let flat : Segment := ⟨0, 0xFFFFFFFF#32, false, true⟩
  { ready with csL := false, csD := true, segs := ⟨flat, flat, flat, flat, flat, flat⟩ }

/-- The launched machine at privilege level 3 with only the addresses 3000H to 3FFFH mapped, and the first 64 KiB page of
code (rows F5 to F8 of 95_test_vectors.md). -/
def paged : State :=
  { ready with cpl := 3, map := [⟨0x3000, 0x1000, true, true, false, false⟩, ⟨0xF000, 0x1000, true, true, false, false⟩] }

/-- One step on an instruction's bytes at the program counter. -/
def stepOn (s : State) (bytes : List Byte) : Result := step (s.loadCode s.rip bytes)

/-- A vector register after a step that completes. -/
def zmmAfter (r : Result) (n : VReg) : Option Vec :=
  match r with
  | .next t => some (t.readZmm n)
  | _ => none

/-- How far the program counter has moved in a step that completes. -/
def ripAfter (r : Result) (s : State) : Option Word64 :=
  match r with
  | .next t => some (t.rip - s.rip)
  | _ => none

/-- The step faults with `f`. -/
def faultsWith (r : Result) (f : Fault) : Bool :=
  match r with
  | .fault g => g == f
  | _ => false

/-- The step is refused with `e`. -/
def refusedWith (r : Result) (e : Refusal) : Bool :=
  match r with
  | .refused g => g == e
  | _ => false

/-- All ones. -/
def ones : Vec := BitVec.allOnes 512

/-- No writemask, merging, no override. -/
def plain : Evex := ⟨[], 0, false⟩

/-! ## Ill-formed terms (WellFormed) -/

theorem test_wf_zeroing_needs_mask : (Instr.vprord128 ⟨[], 0, true⟩ 1 (.reg 2) 8).wellFormed .bits64 = false := by decide
theorem test_wf_dst_32bit : (Instr.vprord128 plain 8 (.reg 2) 8).wellFormed .bits32 = false := by decide
theorem test_wf_rm_reg_32bit : (Instr.vprord128 plain 1 (.reg 16) 8).wellFormed .bits32 = false := by decide
theorem test_wf_src_32bit : (Instr.vprorvd128 plain 1 9 (.reg 3)).wellFormed .bits32 = false := by decide
theorem test_wf_ripRel_32bit : (Instr.vprord128 plain 1 (.mem false (.ripRel 0)) 8).wellFormed .bits32 = false := by decide
theorem test_wf_abs32_64bit : (Instr.vprord128 plain 1 (.mem false (.abs32 0)) 8).wellFormed .bits64 = false := by decide
theorem test_wf_base_100_needs_sib :
    (Instr.vprord128 plain 1 (.mem false (.base 12 .absent)) 8).wellFormed .bits64 = false := by decide
theorem test_wf_base_101_needs_disp :
    (Instr.vprord128 plain 1 (.mem false (.base 13 .absent)) 8).wellFormed .bits64 = false := by decide
theorem test_wf_base_32bit :
    (Instr.vprord128 plain 1 (.mem false (.base 8 .absent)) 8).wellFormed .bits32 = false := by decide
theorem test_wf_index_not_rsp :
    (Instr.vprord128 plain 1 (.mem false (.sib 0 (some 4) (some 0) .absent)) 8).wellFormed .bits64 = false := by decide
theorem test_wf_index_32bit :
    (Instr.vprord128 plain 1 (.mem false (.sib 0 (some 9) (some 0) .absent)) 8).wellFormed .bits32 = false := by decide
theorem test_wf_no_base_needs_disp32 :
    (Instr.vprord128 plain 1 (.mem false (.sib 0 (some 1) none (.d8 4))) 8).wellFormed .bits64 = false := by decide
theorem test_wf_sib_base_101_needs_disp :
    (Instr.vprord128 plain 1 (.mem false (.sib 0 (some 1) (some 5) .absent)) 8).wellFormed .bits64 = false := by decide
theorem test_wf_sib_base_32bit :
    (Instr.vprord128 plain 1 (.mem false (.sib 0 (some 1) (some 8) .absent)) 8).wellFormed .bits32 = false := by decide
theorem test_wf_mem_16bit :
    (Instr.vprord128 plain 1 (.mem false (.base 0 .absent)) 8).wellFormed .bits16 = false ∧
    (Instr.vprord128 plain 8 (.reg 2) 8).wellFormed .bits16 = false ∧
    (Instr.vprord128 plain 1 (.reg 2) 8).wellFormed .bits16 = true := by decide
theorem test_wf_sixteen_bytes :
    (Instr.vprord128 ⟨List.replicate 9 .fs, 0, false⟩ 1 (.reg 2) 8).wellFormed .bits64 = false := by decide
theorem test_wf_fifteen_bytes :
    (Instr.vprord128 ⟨List.replicate 8 .fs, 0, false⟩ 1 (.reg 2) 8).wellFormed .bits64 = true := by decide

/-! ## Words decoded: the bytes are rows of 95_test_vectors.md section 2.3, the operands those of its assembly column -/

theorem test_decode_vprord128 :
    decode false .bits64 [0x62, 0xF1, 0x75, 0x08, 0x72, 0xC2, 0x08] = .instr (.vprord128 plain 1 (.reg 2) 8) ∧
    decode false .bits64 [0x62, 0xD1, 0x05, 0x00, 0x72, 0xC7, 0x24] = .instr (.vprord128 plain 31 (.reg 15) 36) ∧
    decode false .bits64 [0x62, 0xF1, 0x75, 0x18, 0x72, 0x40, 0x01, 0x04] =
      .instr (.vprord128 plain 1 (.mem true (.base 0 (.d8 1))) 4) ∧
    decode false .bits64 [0x62, 0xF1, 0x75, 0x08, 0x72, 0x80, 0x00, 0x10, 0x00, 0x00, 0x08] =
      .instr (.vprord128 plain 1 (.mem false (.base 0 (.d32 0x1000))) 8) := by decide

theorem test_decode_vprord256 :
    decode false .bits64 [0x62, 0xF1, 0x65, 0x2C, 0x72, 0xC3, 0x1F] =
      .instr (.vprord256 ⟨[], 4, false⟩ 3 (.reg 3) 31) ∧
    decode false .bits64 [0x62, 0xF1, 0x75, 0x28, 0x72, 0x00, 0x04] =
      .instr (.vprord256 plain 1 (.mem false (.base 0 .absent)) 4) := by decide

theorem test_decode_vprord512 :
    decode false .bits64 [0x62, 0x91, 0x75, 0x47, 0x72, 0xC6, 0x21] =
      .instr (.vprord512 ⟨[], 7, false⟩ 17 (.reg 30) 33) ∧
    decode false .bits64 [0x62, 0xF1, 0x6D, 0x48, 0x72, 0x44, 0x75, 0x01, 0x07] =
      .instr (.vprord512 plain 2 (.mem false (.sib 1 (some 6) (some 5) (.d8 1))) 7) ∧
    decode false .bits64 [0x62, 0xF1, 0x6D, 0x48, 0x72, 0x04, 0x75, 0x40, 0x00, 0x00, 0x00, 0x07] =
      .instr (.vprord512 plain 2 (.mem false (.sib 1 (some 6) none (.d32 0x40))) 7) := by decide

theorem test_decode_vprorvd128 :
    decode false .bits64 [0x62, 0xF2, 0x75, 0x89, 0x14, 0xDC] = .instr (.vprorvd128 ⟨[], 1, true⟩ 3 1 (.reg 4)) ∧
    decode false .bits64 [0x64, 0x62, 0xD2, 0x6D, 0x18, 0x14, 0x0C, 0x24] =
      .instr (.vprorvd128 ⟨[.fs], 0, false⟩ 1 2 (.mem true (.sib 0 none (some 12) .absent))) ∧
    decode false .bits64 [0x62, 0xD2, 0x6D, 0x08, 0x14, 0x4D, 0x00] =
      .instr (.vprorvd128 plain 1 2 (.mem false (.base 13 (.d8 0)))) ∧
    decode false .bits64 [0x62, 0xF2, 0x75, 0x08, 0x14, 0x04, 0x25, 0x00, 0x10, 0x00, 0x00] =
      .instr (.vprorvd128 plain 0 1 (.mem false (.sib 0 none none (.d32 0x1000)))) := by decide

theorem test_decode_vprorvd256 :
    decode false .bits64 [0x62, 0x12, 0x2D, 0xBB, 0x14, 0x4C, 0x88, 0xE0] =
      .instr (.vprorvd256 ⟨[], 3, true⟩ 9 10 (.mem true (.sib 2 (some 9) (some 8) (.d8 0xE0)))) := by decide

theorem test_decode_vprorvd512 :
    decode false .bits64 [0x62, 0x42, 0x7D, 0x40, 0x14, 0xFF] = .instr (.vprorvd512 plain 31 16 (.reg 15)) := by decide

theorem test_decode_vprorq128 :
    decode false .bits64 [0x62, 0xD1, 0x85, 0x00, 0x72, 0xC7, 0x24] = .instr (.vprorq128 plain 31 (.reg 15) 36) ∧
    decode false .bits64 [0x62, 0xF1, 0xFD, 0x08, 0x72, 0x05, 0x10, 0x00, 0x00, 0x00, 0x3F] =
      .instr (.vprorq128 plain 0 (.mem false (.ripRel 0x10)) 63) := by decide

theorem test_decode_vprorq256 :
    decode false .bits64 [0x62, 0xF1, 0xD5, 0x3A, 0x72, 0x00, 0x01] =
      .instr (.vprorq256 ⟨[], 2, false⟩ 5 (.mem true (.base 0 .absent)) 1) := by decide

theorem test_decode_vprorq512 :
    decode false .bits64 [0x62, 0xF1, 0xBD, 0xCD, 0x72, 0x44, 0xCC, 0x40, 0x40] =
      .instr (.vprorq512 ⟨[], 5, true⟩ 8 (.mem false (.sib 3 (some 1) (some 4) (.d8 0x40))) 64) := by decide

theorem test_decode_vprorvq128 :
    decode false .bits64 [0x62, 0xF2, 0xED, 0x08, 0x14, 0xCB] = .instr (.vprorvq128 plain 1 2 (.reg 3)) := by decide

theorem test_decode_vprorvq256 :
    decode false .bits64 [0x62, 0xA2, 0xD5, 0x20, 0x14, 0xE6] = .instr (.vprorvq256 plain 20 21 (.reg 22)) := by decide

theorem test_decode_vprorvq512 :
    decode false .bits64 [0x62, 0xD2, 0x85, 0xC7, 0x14, 0xC0] =
      .instr (.vprorvq512 ⟨[], 7, true⟩ 0 31 (.reg 8)) ∧
    decode false .bits64 [0x62, 0xF2, 0xD5, 0x49, 0x14, 0xB3, 0x48, 0x00, 0x00, 0x00] =
      .instr (.vprorvq512 ⟨[], 1, false⟩ 6 5 (.mem false (.base 3 (.d32 0x48)))) := by decide

/-- Rows X1 to X8 of 95_test_vectors.md section 2.4. -/
theorem test_decode_invalid :
    decode false .bits64 [0x62, 0xF1, 0x75, 0x18, 0x72, 0xC2, 0x08] = .ud .broadcastRegister ∧
    decode false .bits64 [0x62, 0xF1, 0x75, 0x68, 0x72, 0xC2, 0x08] = .ud .vectorLength ∧
    decode false .bits64 [0x62, 0xF1, 0x75, 0x80, 0x72, 0xC2, 0x08] = .ud .zeroingWithoutMask ∧
    decode false .bits64 [0x62, 0xF9, 0x75, 0x08, 0x72, 0xC2, 0x08] = .ud .reservedBit ∧
    decode false .bits64 [0x62, 0xF1, 0x71, 0x08, 0x72, 0xC2, 0x08] = .ud .reservedBit ∧
    decode false .bits64 [0x66, 0x62, 0xF1, 0x75, 0x08, 0x72, 0xC2, 0x08] = .ud .forbiddenLegacy ∧
    decode false .bits64 [0xF0, 0x62, 0xF1, 0x75, 0x08, 0x72, 0xC2, 0x08] = .ud .forbiddenLegacy ∧
    decode false .bits64 [0x48, 0x62, 0xF1, 0x75, 0x08, 0x72, 0xC2, 0x08] = .ud .forbiddenLegacy := by decide

/-- Rows X9 to X17 of 95_test_vectors.md section 2.4. -/
theorem test_decode_refused_or_ignored :
    decode false .bits64 [0x67, 0x62, 0xF1, 0x75, 0x08, 0x72, 0x00, 0x08] = .refused .addressSizeOverride ∧
    decode false .bits64 [0x62, 0xF1, 0x75, 0x08, 0x72, 0xCA, 0x08] = .refused .notInScope ∧
    decode false .bits64 [0x62, 0xF2, 0x75, 0x08, 0x15, 0xDC] = .refused .notInScope ∧
    decode false .bits64 [0x62, 0xF1, 0x74, 0x08, 0x72, 0xC2, 0x08] = .refused .notInScope ∧
    decode false .bits64 [0x62, 0xF3, 0x75, 0x08, 0x72, 0xC2, 0x08] = .refused .notInScope ∧
    decode true .bits64 [0x62, 0x71, 0x75, 0x08, 0x72, 0xC2, 0x08] = .refused .ignoredBit ∧
    decode false .bits64 [0x62, 0x71, 0x75, 0x08, 0x72, 0xC2, 0x08] = .instr (.vprord128 plain 1 (.reg 2) 8) ∧
    decode true .bits64 [0x62, 0xB1, 0x75, 0x08, 0x72, 0x00, 0x08] = .refused .ignoredBit ∧
    decode true .bits64 [0x62, 0xD1, 0x75, 0x08, 0x72, 0x04, 0x25, 0x00, 0x10, 0x00, 0x00, 0x08] =
      .refused .ignoredBit := by decide

/-- 67H beside LOCK: #UD with 15 bytes, too long with 16, and short with 15 of 16 (30_encoding.md R70, 60_exceptions.md
R130). -/
theorem test_decode_forbidden_with_67 :
    decode false .bits64 (0xF0 :: List.replicate 8 0x67 ++ [0x62, 0xF2, 0xED, 0x08, 0x14, 0xCB]) = .ud .forbiddenLegacy ∧
    decode false .bits64 (0xF0 :: List.replicate 9 0x67 ++ [0x62, 0xF2, 0xED, 0x08, 0x14, 0xCB]) = .tooLong ∧
    decode false .bits64 (0xF0 :: List.replicate 9 0x67 ++ [0x62, 0xF2, 0xED, 0x08, 0x14]) = .short := by decide

/-- 16-bit addressing (30_encoding.md R74, log 9): no byte after ModRM is asked for, and the invalid encodings come first. The
bytes are row E1, its memory form with `mod = 00`, `rm = 101`, and row X2's P2. With 67H beside LOCK a memory form of 32-bit
code is not measured and one of 16-bit code is. -/
theorem test_decode_16bit :
    decode false .bits16 [0x62, 0xF1, 0x75, 0x08, 0x72, 0xC2, 0x08] = .instr (.vprord128 plain 1 (.reg 2) 8) ∧
    decode false .bits16 [0x62, 0xF1, 0x75, 0x08, 0x72, 0x05] = .addressing16 .l128 ∧
    decode false .bits16 [0x62, 0xF1, 0x75, 0x68, 0x72, 0x05] = .ud .vectorLength ∧
    decode false .bits32 [0x62, 0xF1, 0x75, 0x08, 0x72, 0x05] = .short ∧
    decode false .bits32 [0xF0, 0x67, 0x62, 0xF1, 0x75, 0x08, 0x72, 0x05] = .ud .forbiddenLegacy ∧
    decode false .bits16 [0xF0, 0x67, 0x62, 0xF1, 0x75, 0x08, 0x72, 0x05] = .short := by decide

/-- Code with D = 0 at the last byte the fetch can reach: the memory form is refused without a byte after ModRM; after reset,
in real-address mode, it is #UD. -/
theorem test_step_16bit :
    let bytes : List Byte := [0x62, 0xF1, 0x75, 0x08, 0x72, 0x05]
    refusedWith (stepOn { ready32 with csD := false, segs.cs.limit := 0xFFF5 } bytes) .addressing16 = true ∧
    faultsWith (stepOn { ready32 with csD := false, segs.cs.limit := 0xFFF4 } bytes) .gp = true ∧
    faultsWith (step (State.reset.loadCode 0xFFFFFFF0 bytes)) .ud = true := by decide

/-! ## One step of each instruction: rows of 95_test_vectors.md sections 2.5 to 2.9 -/

/-- Row D1. -/
theorem test_step_vprord128_D1 :
    let s := setZmm (setZmm ready 2 (elems 32 [0x12345678, 0x9ABCDEF0, 1, 0x80000000])) 1 ones
    let r := stepOn s [0x62, 0xF1, 0x75, 0x08, 0x72, 0xC2, 0x08]
    zmmAfter r 1 = some (elems 32 [0x78123456, 0xF09ABCDE, 0x01000000, 0x00800000]) ∧ ripAfter r s = some 7 := by
  decide

/-- Row D7. -/
theorem test_step_vprord128_D7 :
    let s := (setX ready 0 0x6000).loadCode 0x6004 [0xEF, 0xBE, 0xAD, 0xDE]
    zmmAfter (stepOn s [0x62, 0xF1, 0x75, 0x18, 0x72, 0x40, 0x01, 0x04]) 1 =
      some (elems 32 (List.replicate 4 0xFDEADBEE)) := by
  decide

/-- Row D3. -/
theorem test_step_vprord256_D3 :
    let s := setZmm (setK ready 4 0x05A5) 3 (elems 32 ([1, 0x80000000, 0xDEADBEEF, 0xFFFFFFFF, 0x12345678, 0,
      0x7FFFFFFF, 0xAAAAAAAA] ++ List.replicate 8 9))
    zmmAfter (stepOn s [0x62, 0xF1, 0x65, 0x2C, 0x72, 0xC3, 0x1F]) 3 =
      some (elems 32 [2, 0x80000000, 0xBD5B7DDF, 0xFFFFFFFF, 0x12345678, 0, 0x7FFFFFFF, 0x55555555]) := by
  decide

/-- Row D6. -/
theorem test_step_vprord256_D6 :
    let s := (setZmm (setX ready 0 0x5003) 1 ones).loadCode 0x5003 ((List.range 32).map (BitVec.ofNat 8))
    zmmAfter (stepOn s [0x62, 0xF1, 0x75, 0x28, 0x72, 0x00, 0x04]) 1 =
      some (elems 32 [0x00302010, 0x40706050, 0x80B0A090, 0xC0F0E0D0, 0x01312111, 0x41716151, 0x81B1A191,
        0xC1F1E1D1]) := by
  decide

/-- Row D4. -/
theorem test_step_vprord512_D4 :
    let s := setZmm (setZmm (setK ready 7 0xFF) 30 (elems 32 ((List.range 16).map (0x80000000 + ·)))) 17
      (elems 32 ((List.range 16).map (0x11110000 + ·)))
    zmmAfter (stepOn s [0x62, 0x91, 0x75, 0x47, 0x72, 0xC6, 0x21]) 17 =
      some (elems 32 [0x40000000, 0xC0000000, 0x40000001, 0xC0000001, 0x40000002, 0xC0000002, 0x40000003, 0xC0000003,
        0x11110008, 0x11110009, 0x1111000A, 0x1111000B, 0x1111000C, 0x1111000D, 0x1111000E, 0x1111000F]) := by
  decide

/-- Row D5. -/
theorem test_step_vprord512_D5 :
    zmmAfter (stepOn (setZmm ready 2 (elems 32 (List.replicate 16 0x12345678))) [0x62, 0xF1, 0x75, 0x48, 0x72, 0xC2, 0xFF])
      1 = some (elems 32 (List.replicate 16 0x2468ACF0)) := by
  decide

/-- Row VD1. -/
theorem test_step_vprorvd128_VD1 :
    let s := setZmm (setZmm (setK ready 1 0xFFF5) 1 (elems 32 [0x78123456, 0xF09ABCDE, 0x01000000, 0x00800000])) 4
      (elems 32 [4, 0x20, 0x21, 0xFFFFFFFF])
    zmmAfter (stepOn s [0x62, 0xF2, 0x75, 0x89, 0x14, 0xDC]) 3 = some (elems 32 [0x67812345, 0, 0x00800000, 0]) := by
  decide

/-- Row VD7: the FS base is added. -/
theorem test_step_vprorvd128_VD7 :
    let s := setZmm (setX ready 12 0x100) 2 (elems 32 [0x12345678, 0x9ABCDEF0, 1, 0x80000000])
    let s := { s with segs.fs.base := 0x7F0000000000 }.loadCode 0x7F0000000100 [0x24]
    let r := stepOn s [0x64, 0x62, 0xD2, 0x6D, 0x18, 0x14, 0x0C, 0x24]
    zmmAfter r 1 = some (elems 32 [0x81234567, 0x09ABCDEF, 0x10000000, 0x08000000]) ∧ ripAfter r s = some 8 := by
  decide

/-- Row VD2. -/
theorem test_step_vprorvd256_VD2 :
    let s := setZmm (setZmm ready 2 (elems 32 (List.replicate 8 0x80000001))) 3 (elems 32 (List.range 8))
    zmmAfter (stepOn s [0x62, 0xF2, 0x6D, 0x28, 0x14, 0xCB]) 1 =
      some (elems 32 [0x80000001, 0xC0000000, 0x60000000, 0x30000000, 0x18000000, 0x0C000000, 0x06000000,
        0x03000000]) := by
  decide

/-- Row VD5: broadcast at a negative scaled displacement. -/
theorem test_step_vprorvd256_VD5 :
    let s := setZmm (setK (setX (setX ready 8 0x7000) 9 0x40) 3 0xFF7D) 10
      (elems 32 [0x12345678, 0x9ABCDEF0, 0xFFFFFFFF, 0, 1, 0x80000000, 0xDEADBEEF, 0x0F0F0F0F])
    let s := (setZmm s 9 ones).loadCode 0x7080 [0x28]
    zmmAfter (stepOn s [0x62, 0x12, 0x2D, 0xBB, 0x14, 0x4C, 0x88, 0xE0]) 9 =
      some (elems 32 [0x78123456, 0, 0xFFFFFFFF, 0, 0x01000000, 0x00800000, 0xEFDEADBE, 0]) := by
  decide

/-- Row VD3. -/
theorem test_step_vprorvd512_VD3 :
    let s := setZmm (setZmm ready 16 (elems 32 (List.replicate 16 0x80000001))) 15
      (elems 32 ((List.range 16).map (3 * ·)))
    zmmAfter (stepOn s [0x62, 0x42, 0x7D, 0x40, 0x14, 0xFF]) 31 =
      some (elems 32 [0x80000001, 0x30000000, 0x06000000, 0x00C00000, 0x00180000, 0x00030000, 0x00006000, 0x00000C00,
        0x00000180, 0x00000030, 0x00000006, 0xC0000000, 0x18000000, 0x03000000, 0x00600000, 0x000C0000]) := by
  decide

/-- Row VD4: one register as destination, data and counts. -/
theorem test_step_vprorvd512_VD4 :
    let s := setZmm (setK ready 1 0xAAAA) 1 (elems 32 ((List.range 16).map (0x80000000 + ·)))
    zmmAfter (stepOn s [0x62, 0xF2, 0x75, 0x49, 0x14, 0xC9]) 1 =
      some (elems 32 [0x80000000, 0xC0000000, 0x80000002, 0x70000000, 0x80000004, 0x2C000000, 0x80000006, 0x0F000000,
        0x80000008, 0x04C00000, 0x8000000A, 0x01700000, 0x8000000C, 0x006C0000, 0x8000000E, 0x001F0000]) := by
  decide

/-- Row Q3. -/
theorem test_step_vprorq128_Q3 :
    zmmAfter (stepOn (setZmm ready 15 (elems 64 (List.replicate 2 0x0123456789ABCDEF)))
      [0x62, 0xD1, 0x85, 0x00, 0x72, 0xC7, 0x24]) 31 = some (elems 64 (List.replicate 2 0x789ABCDEF0123456)) := by
  decide

/-- Row Q6: relative to the next instruction. -/
theorem test_step_vprorq128_Q6 :
    let s := { ready with rip := 0x1000 }.loadCode 0x101B
      [0xEF, 0xCD, 0xAB, 0x89, 0x67, 0x45, 0x23, 0x01, 0x01]
    let r := stepOn s [0x62, 0xF1, 0xFD, 0x08, 0x72, 0x05, 0x10, 0x00, 0x00, 0x00, 0x3F]
    zmmAfter r 0 = some (elems 64 [0x02468ACF13579BDE, 2]) ∧ ripAfter r s = some 11 := by
  decide

/-- Row Q2. -/
theorem test_step_vprorq256_Q2 :
    let s := setZmm ready 2 (elems 64 [1, 0x8000000000000000, 0x0123456789ABCDEF, 0xFFFFFFFFFFFFFFFE])
    zmmAfter (stepOn s [0x62, 0xF1, 0xF5, 0x28, 0x72, 0xC2, 0x01]) 1 =
      some (elems 64 [0x8000000000000000, 0x4000000000000000, 0x8091A2B3C4D5E6F7, 0x7FFFFFFFFFFFFFFF]) := by
  decide

/-- Row Q4: broadcast, merging, upper bits zeroed. -/
theorem test_step_vprorq256_Q4 :
    let s := setZmm (setK (setX ready 0 0x2000) 2 0xA) 5 (elems 64 [0x1111111111111111, 0x2222222222222222,
      0x3333333333333333, 0x4444444444444444, 5, 6, 7, 8])
    let s := s.loadCode 0x2000 [0xEF, 0xCD, 0xAB, 0x89, 0x67, 0x45, 0x23, 0x01]
    zmmAfter (stepOn s [0x62, 0xF1, 0xD5, 0x3A, 0x72, 0x00, 0x01]) 5 =
      some (elems 64 [0x1111111111111111, 0x8091A2B3C4D5E6F7, 0x3333333333333333, 0x8091A2B3C4D5E6F7]) := by
  decide

/-- Row Q5. -/
theorem test_step_vprorq512_Q5 :
    let s := (setX ready 0 0x2000).loadCode 0x2000 [0xEF, 0xCD, 0xAB, 0x89, 0x67, 0x45, 0x23, 0x01]
    zmmAfter (stepOn s [0x62, 0xF1, 0xF5, 0x58, 0x72, 0x00, 0x04]) 1 =
      some (elems 64 (List.replicate 8 0xF0123456789ABCDE)) := by
  decide

/-- Row Q7, with one element of the operand set: scaled displacement, index and stack segment. -/
theorem test_step_vprorq512_Q7 :
    let s := setZmm (setK (setX (setX ready 4 0x10000) 1 0x10) 5 0x39) 8 ones
    let s := s.loadCode 0x110A0 [0xF3, 0xCD, 0xAB, 0x89, 0x67, 0x45, 0x23, 0x01]
    zmmAfter (stepOn s [0x62, 0xF1, 0xBD, 0xCD, 0x72, 0x44, 0xCC, 0x40, 0x40]) 8 =
      some (elems 64 [0, 0, 0, 0, 0x0123456789ABCDF3]) := by
  decide

/-- Row VQ1. -/
theorem test_step_vprorvq128_VQ1 :
    let s := (setZmm (setX ready 2 0x9000) 3 (elems 64 (List.replicate 2 0x0123456789ABCDEF))).loadCode 0x9008 [0x44]
    zmmAfter (stepOn s [0x62, 0xF2, 0xE5, 0x18, 0x14, 0x52, 0x01]) 2 =
      some (elems 64 (List.replicate 2 0xF0123456789ABCDE)) := by
  decide

/-- Row VQ4. -/
theorem test_step_vprorvq128_VQ4 :
    let s := setZmm (setZmm (setK ready 1 0xFE) 4 (elems 64 ([0x0123456789ABCDEF, 0xFEDCBA9876543210] ++
      List.replicate 6 7))) 5 (elems 64 [8, 8])
    zmmAfter (stepOn s [0x62, 0xF2, 0xDD, 0x09, 0x14, 0xE5]) 4 =
      some (elems 64 [0x0123456789ABCDEF, 0x10FEDCBA98765432]) := by
  decide

/-- Row VQ2. -/
theorem test_step_vprorvq256_VQ2 :
    let s := setZmm (setZmm ready 21 (elems 64 (List.replicate 4 0x0123456789ABCDEF))) 22 (elems 64 [0, 4, 32, 63])
    zmmAfter (stepOn s [0x62, 0xA2, 0xD5, 0x20, 0x14, 0xE6]) 20 =
      some (elems 64 [0x0123456789ABCDEF, 0xF0123456789ABCDE, 0x89ABCDEF01234567, 0x02468ACF13579BDE]) := by
  decide

/-- Row VQ5: a misaligned read through base and index. -/
theorem test_step_vprorvq256_VQ5 :
    let s := setZmm (setX (setX ready 0 0xB000) 3 0x123) 2 (elems 64 (List.replicate 4 0x0123456789ABCDEF))
    let s := (((s.loadCode 0xB123 [2]).loadCode 0xB12B [3]).loadCode 0xB133 [0x24]).loadCode 0xB13B [0x44]
    zmmAfter (stepOn s [0x62, 0xF2, 0xED, 0x28, 0x14, 0x0C, 0x18]) 1 =
      some (elems 64 [0xC048D159E26AF37B, 0xE02468ACF13579BD, 0x789ABCDEF0123456, 0xF0123456789ABCDE]) := by
  decide

/-- Row VQ3: counts with high bits set, one element zeroed. -/
theorem test_step_vprorvq512_VQ3 :
    let s := setZmm (setZmm (setK ready 7 0xEF) 31 (elems 64 (List.replicate 8 0x0123456789ABCDEF))) 8
      (elems 64 [0, 1, 0x20, 0x3F, 0x40, 0xFFFFFFFFFFFFFFC4, 0x0000000100000004, 0xFF])
    zmmAfter (stepOn (setZmm s 0 ones) [0x62, 0xD2, 0x85, 0xC7, 0x14, 0xC0]) 0 =
      some (elems 64 [0x0123456789ABCDEF, 0x8091A2B3C4D5E6F7, 0x89ABCDEF01234567, 0x02468ACF13579BDE, 0,
        0xF0123456789ABCDE, 0xF0123456789ABCDE, 0x02468ACF13579BDE]) := by
  decide

/-- Row VQ6: a broadcast count of all ones at a negative displacement. -/
theorem test_step_vprorvq512_VQ6 :
    let s := setZmm (setX ready 0 0xC008) 2 (elems 64 [0x0123456789ABCDEF, 1, 0x8000000000000000, 0,
      0xFFFFFFFFFFFFFFFF, 2, 0x4000000000000000, 0xFFFFFFFF])
    zmmAfter (stepOn (s.loadCode 0xC000 (List.replicate 8 0xFF)) [0x62, 0xF2, 0xED, 0x58, 0x14, 0x48, 0xFF]) 1 =
      some (elems 64 [0x02468ACF13579BDE, 2, 1, 0, 0xFFFFFFFFFFFFFFFF, 4, 0x8000000000000000, 0x1FFFFFFFE]) := by
  decide

/-! ## Faults and refusals of a step -/

/-- Rows F1 and F4: a non-canonical address, and one that becomes so within the access. -/
theorem test_step_noncanonical :
    faultsWith (stepOn (setX ready 0 0x800000000000) [0x62, 0xF1, 0x75, 0x28, 0x72, 0x00, 0x04]) .gp = true ∧
    faultsWith (stepOn (setX ready 0 0x7FFFFFFFFFF0) [0x62, 0xF1, 0x75, 0x28, 0x72, 0x00, 0x04]) .gp = true := by
  decide

/-- Rows F2 and F3: the same through SS, with base RSP and base RBP. -/
theorem test_step_stack_fault :
    faultsWith (stepOn (setX ready 4 0x7FFFFFFFF000)
      [0x62, 0xF1, 0xBD, 0xC8, 0x72, 0x44, 0xCC, 0x40, 0x40]) .ud = true ∧
    faultsWith (stepOn (setX ready 4 0x7FFFFFFFF000)
      [0x62, 0xF1, 0xBD, 0x48, 0x72, 0x44, 0xCC, 0x40, 0x40]) .ss = true ∧
    faultsWith (stepOn (setX ready 5 0x800000000000) [0x62, 0xF1, 0x6D, 0x48, 0x72, 0x44, 0x75, 0x01, 0x07]) .ss =
      true := by
  decide

/-- After row F8: a broadcast element whose last byte is not present, read at privilege level 3. -/
theorem test_step_page_fault :
    faultsWith (stepOn (setX paged 0 0x3FFD) [0x62, 0xF1, 0x75, 0x58, 0x72, 0x00, 0x04]) (.pf 4 0x4000) = true := by
  decide

/-- Rows X20 and X21, and program P6 with CR0.TS = 1. -/
theorem test_step_not_enabled :
    faultsWith (stepOn { ready with cr4 := 0x20 } [0x62, 0xF1, 0x75, 0x08, 0x72, 0xC2, 0x08]) .ud = true ∧
    faultsWith (stepOn { ready with cr0 := 0x80000009 } [0x62, 0xF1, 0x75, 0x08, 0x72, 0xC2, 0x08]) .nm = true ∧
    faultsWith (stepOn { ready with cr0 := 0x80000009 } [0x62, 0xF1, 0x75, 0x18, 0x72, 0xC2, 0x08]) .ud = true := by
  decide

/-- The host's question: the instruction stored where the next step fetches is the one that runs. -/
theorem test_withFetchWord :
    zmmAfter (step (State.reset.withFetchWord 56 0x08C2720875F162)) 1 = some 0 ∧
    decodeTableWord 56 0x08C2720875F162 = some (.vprord128 plain 1 (.reg 2) 8) := by
  decide

/-! ## Witnesses: states and operands that meet the hypotheses of each statement, clause by clause -/

/-- Row E1, without and with a writemask. -/
def regForm : Instr := .vprord128 plain 1 (.reg 2) 8

/-- Row E8: 32 bytes at RAX, no writemask. -/
def memForm : Instr := .vprord256 plain 1 (.mem false (.base 0 .absent)) 4

/-- Row E9's shape at RAX: one doubleword, broadcast. -/
def bcstForm : Instr := .vprord128 plain 1 (.mem true (.base 0 .absent)) 4

/-- 16 bytes at RAX through SS by an override, in a 32-bit mode. -/
def ssForm : Instr := .vprord128 ⟨[.ss], 0, false⟩ 1 (.mem false (.base 0 .absent)) 4

/-- Row E44: 64 bytes at RBX + 48H under k1. -/
def maskedForm : Instr := .vprorvq512 ⟨[], 1, false⟩ 6 5 (.mem false (.base 3 (.d32 0x48)))

/-- The memory operand of a form in a state. -/
def refOf (i : Instr) (s : State) (bcst : Bool) (m : MemOp) : MemRef :=
  s.memRef i.fields.w i.fields.vl i.length i.fields.e bcst m

/-- `State.Enabled` by evaluation. -/
def enabledB (s : State) (vl : VLen) : Bool :=
  (s.mode == .mode64 || s.mode == .mode32) && s.cr4OSXSAVE && s.xcr0Enabled && s.hasForm vl && !s.cr0TS

theorem enabled_of {s : State} {vl : VLen} (h : enabledB s vl = true) : s.Enabled vl := by
  simpa [enabledB, State.Enabled, and_assoc] using h

/-- `State.Readable` without alignment checking, by evaluation. -/
def readableB (s : State) (r : MemRef) : Bool :=
  (List.range r.size).all (fun i => s.addressOk r i && s.translate .read (s.byteAddr r i) == .admitted) &&
    !s.alignmentChecking

theorem readable_of {s : State} {r : MemRef} (h : readableB s r = true) : s.Readable r := by
  simp only [readableB, Bool.and_eq_true, List.all_eq_true, List.mem_range, beq_iff_eq, Bool.not_eq_true'] at h
  exact ⟨h.1, by simp [h.2]⟩

theorem witness_DecodeOfEncodeIsInstruction :
    regForm.wellFormed .bits64 = true ∧ ssForm.wellFormed .bits32 = true ∧ regForm.wellFormed .bits16 = true := by decide

theorem witness_StrictDecodeReadsTheEncoding :
    decode true .bits64 [0x62, 0xF1, 0x75, 0x08, 0x72, 0xC2, 0x08, 0x90] = .instr regForm ∧
    decode true .bits32 [0x36, 0x62, 0xF1, 0x75, 0x08, 0x72, 0x00, 0x04] = .instr ssForm := by decide

theorem witness_DecodedInstructionIsWellFormed :
    decode false .bits64 [0x62, 0x71, 0x75, 0x08, 0x72, 0xC2, 0x08] = .instr regForm := by decide

/-- A legacy byte of each kind, and each boundary: 15 bytes in all, 40H and 4FH, and a 32-bit mode. -/
theorem witness_ForbiddenLegacyByteIsInvalidOpcode :
    regForm.wellFormed .bits64 = true ∧ [0x64#8, 0x67#8, 0x40#8, 0xF3#8, 0x4F#8, 0x66#8, 0xF2#8, 0xF0#8].length +
      regForm.length = 15 ∧
    (∀ c ∈ [0x64#8, 0x67#8, 0x40#8, 0xF3#8, 0x4F#8, 0x66#8, 0xF2#8, 0xF0#8], SkippedByte .bits64 c) ∧
    (∀ b ∈ [0x40#8, 0xF3#8, 0x4F#8, 0x66#8, 0xF2#8, 0xF0#8], ForbiddenByte .bits64 b) ∧
    ssForm.wellFormed .bits32 = true ∧ 1 + ssForm.length ≤ 15 ∧ SkippedByte .bits32 0xF0 ∧ ForbiddenByte .bits32 0xF0 := by
  unfold SkippedByte ForbiddenByte
  decide

theorem witness_ReservedEncodingsAreInvalidOpcodes :
    opEnOf 0xF9 0x75 0x72 0xC2 = some true ∧ (0xF9#8).getLsbD 3 = true ∧
    opEnOf 0xF1 0x71 0x72 0xC2 = some true ∧ (0x71#8).getLsbD 2 = false ∧
    opEnOf 0xF2 0x75 0x14 0xC2 = some false ∧
    ((0x68#8).getLsbD 6 = true ∧ (0x68#8).getLsbD 5 = true) ∧
    ((0x80#8).getLsbD 7 = true ∧ (0x80#8).extractLsb' 0 3 = 0#3) ∧
    ((0xC2#8).extractLsb' 6 2 = 3#2 ∧ (0x18#8).getLsbD 4 = true) ∧
    6 ≤ (List.replicate 6 (0x08#8)).length := by decide

theorem witness_OtherInstructionsAreRefused :
    (∀ c ∈ [0x64#8, 0x67#8, 0x48#8], SkippedByte .bits64 c) ∧ ¬ SkippedByte .bits64 0x90 ∧ (0x90#8) ≠ 0x62#8 ∧
    (0x67#8) ∈ [0x64#8, 0x67#8] ∧ (∀ c ∈ [0x64#8, 0x67#8], ¬ ForbiddenByte .bits64 c) ∧ (0x67#8) ∉ [0x64#8] ∧
    (0xF1#8).getLsbD 3 = false ∧ (0x74#8).getLsbD 2 = true ∧ (0x74#8).extractLsb' 0 2 ≠ 1#2 ∧
    (0x75#8).getLsbD 2 = true ∧
    (¬ (((0xF1#8).extractLsb' 0 3 = 1#3 ∧ (0x72#8) = 0x72#8 ∧ (0xCA#8).extractLsb' 3 3 = 0#3) ∨
      ((0xF1#8).extractLsb' 0 3 = 2#3 ∧ (0x72#8) = 0x14#8))) ∧
    (¬ (((0xF2#8).extractLsb' 0 3 = 1#3 ∧ (0x15#8) = 0x72#8 ∧ (0xDC#8).extractLsb' 3 3 = 0#3) ∨
      ((0xF2#8).extractLsb' 0 3 = 2#3 ∧ (0x15#8) = 0x14#8))) := by
  unfold SkippedByte ForbiddenByte
  decide

/-- 9 overrides and a form of 7 bytes whose encoding is also invalid (row X1); 10 legacy bytes with 67H and LOCK and a form
of 6 bytes; 16 bytes in a 32-bit mode of which the first 15 stand at the program counter; and in each 32-bit code size a
prefix with 67H. -/
theorem witness_OverlongInstructionIsTooLong :
    MeasuredPrefix .bits64 (List.replicate 9 0x3E#8) 0xF1 0xC2 ∧ opEnOf 0xF1 0x75 0x72 0xC2 = some true ∧
    lengthByFormula 9 true 0xC2 0x08 = 16 ∧ lengthByFormula 8 true 0xC2 0x08 = 15 ∧
    MeasuredPrefix .bits64 (0xF0#8 :: List.replicate 9 0x67#8) 0xF2 0xCB ∧ opEnOf 0xF2 0xED 0x14 0xCB = some false ∧
    lengthByFormula 10 false 0xCB 0x90 = 16 ∧
    MeasuredPrefix .bits32 (List.replicate 9 0x3E#8) 0xF1 0xC2 ∧ ready32.codeSize = .bits32 ∧
    MeasuredPrefix .bits32 (0xF0#8 :: List.replicate 9 0x67#8) 0xF2 0xCB ∧
    MeasuredPrefix .bits16 (0xF0#8 :: List.replicate 9 0x67#8) 0xF2 0x0C ∧
    (let bytes := (List.replicate 9 0x3E#8 ++ [0x62, 0xF1, 0x75, 0x08, 0x72, 0xC2] ++ List.replicate 6 0x08).take 15
     (List.range 15).map (fun k => ((ready32.loadCode 0xFFF0 bytes).fetchByte k).toOption) = bytes.map some) := by
  refine ⟨?_, by decide, by decide, by decide, ?_, by decide, by decide, ?_, by decide, ?_, ?_, by decide⟩ <;>
    unfold MeasuredPrefix SkippedByte ForbiddenByte <;> decide

/-- Bytes F1 and 61 differ in bits 7 and 4, F1 and B1 in bit 6, F1 and D1 in bit 5 (rows X14 to X17); F1 and C1 in bits 5
and 4, 75 and 35 in bit 6. -/
theorem witness_IgnoredBitsHaveNoEffect :
    opEnOf 0xF1 0x75 0x72 0xC2 = some true ∧ opEnOf 0xF1 0x75 0x72 0x00 = some true ∧
    opEnOf 0xF1 0x75 0x72 0x04 = some true ∧
    (∀ j < 8, (0x61#8).getLsbD j = (0xF1#8).getLsbD j ∨ j = 7 ∨ j = 4) ∧
    (∀ j < 8, (0xB1#8).getLsbD j = (0xF1#8).getLsbD j ∨ j = 6) ∧
    (∀ j < 8, (0xD1#8).getLsbD j = (0xF1#8).getLsbD j ∨ j = 5) ∧
    (0x00#8).extractLsb' 6 2 ≠ 3#2 ∧ (0x00#8).extractLsb' 0 3 ≠ 4#3 ∧
    (0x04#8).extractLsb' 6 2 = 0#2 ∧ (0x04#8).extractLsb' 0 3 = 4#3 ∧ (0x25#8).extractLsb' 0 3 = 5#3 ∧
    (0x05#8).extractLsb' 6 2 = 0#2 ∧ (0x05#8).extractLsb' 0 3 = 5#3 ∧
    (∀ j < 8, (0xC1#8).getLsbD j = (0xF1#8).getLsbD j ∨ j = 5 ∨ j = 4) ∧
    (∀ j < 8, (0x35#8).getLsbD j = (0x75#8).getLsbD j ∨ j = 6) := by decide

theorem witness_EvexIn32BitModes :
    (0x71#8).extractLsb' 6 2 ≠ 3#2 ∧ (0xB1#8).extractLsb' 6 2 ≠ 3#2 ∧ (0x31#8).extractLsb' 6 2 ≠ 3#2 ∧
    (0xF1#8).extractLsb' 6 2 = 3#2 ∧ opEnOf 0xF1 0x75 0x72 0xC2 = some true ∧ (0x00#8).getLsbD 3 = false := by decide

/-- Each form of VPRORD is enabled and its operand can be read: a register; 16 bytes at the top of the canonical half;
and in a 32-bit mode. -/
theorem witness_VprordCompletes :
    (ready.Enabled .l128 ∧ ready.OperandReadable .dword .l128 regForm.length plain (.reg 2)) ∧
    (let s := setX ready 0 0x7FFFFFFFFFE0
     s.Enabled .l256 ∧ s.OperandReadable .dword .l256 memForm.length plain (.mem false (.base 0 .absent))) ∧
    (ready32.Enabled .l512 ∧ ready32.OperandReadable .dword .l512 7 plain (.mem true (.base 0 .absent))) :=
  ⟨⟨enabled_of (by decide), trivial⟩,
    ⟨enabled_of (by decide), .inl (by decide), readable_of (by decide)⟩,
    enabled_of (by decide), .inr rfl, readable_of (by decide)⟩

theorem witness_VprorvdCompletes :
    (ready.Enabled .l128 ∧ ready.OperandReadable .dword .l128 6 plain (.reg 4)) ∧
    (ready.Enabled .l256 ∧ ready.OperandReadable .dword .l256 6 plain (.mem true (.base 0 .absent))) ∧
    (ready.Enabled .l512 ∧ ready.OperandReadable .dword .l512 6 plain (.mem false (.base 0 .absent))) :=
  ⟨⟨enabled_of (by decide), trivial⟩,
    ⟨enabled_of (by decide), .inl (by decide), readable_of (by decide)⟩,
    enabled_of (by decide), .inl (by decide), readable_of (by decide)⟩

theorem witness_VprorqCompletes :
    (ready.Enabled .l128 ∧ ready.OperandReadable .qword .l128 11 plain (.mem false (.ripRel 0x10))) ∧
    (ready.Enabled .l256 ∧ ready.OperandReadable .qword .l256 7 plain (.mem true (.base 0 .absent))) ∧
    (ready.Enabled .l512 ∧ ready.OperandReadable .qword .l512 7 plain (.reg 3)) :=
  ⟨⟨enabled_of (by decide), .inl (by decide), readable_of (by decide)⟩,
    ⟨enabled_of (by decide), .inl (by decide), readable_of (by decide)⟩, enabled_of (by decide), trivial⟩

theorem witness_VprorvqCompletes :
    (ready.Enabled .l128 ∧ ready.OperandReadable .qword .l128 6 plain (.reg 3)) ∧
    (ready32.Enabled .l256 ∧ ready32.OperandReadable .qword .l256 10 plain (.mem false (.abs32 0x1000))) ∧
    (ready.Enabled .l512 ∧ ready.OperandReadable .qword .l512 6 plain (.mem false (.base 3 (.d8 1)))) :=
  ⟨⟨enabled_of (by decide), trivial⟩,
    ⟨enabled_of (by decide), .inr rfl, readable_of (by decide)⟩,
    enabled_of (by decide), .inl (by decide), readable_of (by decide)⟩

/-- Some next state exists: the hypothesis of `ElementLoop`, `ExecutionFrame` and `ProgramCounterFallsThrough`. -/
theorem witness_exec_next : ∃ t, exec regForm ready = .next t := ⟨_, rfl⟩

/-- With every mask bit 0 and merging. -/
theorem witness_UpperBitsAreZeroed :
    let i := Instr.vprord128 ⟨[], 1, false⟩ 1 (.reg 2) 8
    (∃ t, exec i ready = .next t) ∧ i.fields.e.z = false ∧
      ∀ j, j < numElems i.fields.w i.fields.vl → ready.active i.fields.e j = false :=
  ⟨⟨_, rfl⟩, rfl, by decide⟩

theorem witness_MemoryOperandBits : 511 < VLen.bits .l512 ∧ 0 < VLen.bits .l128 := by decide

theorem witness_EffectiveAddressModuloAddressSize :
    ready.long = true ∧ ready32.long = false ∧ (2 ^ 64 : Int) = (if ready.long then 2 ^ 64 else 2 ^ 32) ∧
    (2 ^ 32 : Int) = (if ready32.long then 2 ^ 64 else 2 ^ 32) := by decide

/-- No override, one that is named twice, and two different ones. -/
theorem witness_LinearAddressIn32BitModes :
    ready32.long = false ∧ SegReg.ss ∈ [SegReg.ss, SegReg.ss] ∧ (∀ q ∈ [SegReg.ss, SegReg.ss], q = .ss) ∧
    [SegReg.es, SegReg.cs] ≠ [] := by decide

theorem witness_LinearAddressIn64BitMode :
    ready.long = true ∧ SegReg.gs ∈ [SegReg.ds, SegReg.gs] ∧
    (∀ q ∈ [SegReg.ds, SegReg.gs], q = .fs ∨ q = .gs → q = .gs) ∧
    (∀ q ∈ [SegReg.es, SegReg.ss], q ≠ .fs ∧ q ≠ .gs) := by decide

/-- Two states that differ in unread state: the upper bits of the source and a masked-off element of it. -/
theorem witness_ResultIgnoresUnreadState :
    let i := Instr.vprord128 ⟨[], 1, true⟩ 1 (.reg 2) 8
    let s₁ := setK ready 1 1
    let s₂ := setZmm (setK ready 1 0xF1) 2 (elems 32 [0, 7, 7, 7, 7])
    let s₂ := setK s₂ 1 0x11
    (∃ t, exec i s₁ = .next t) ∧ (∃ t, exec i s₂ = .next t) ∧
    (∀ j, j < numElems i.fields.w i.fields.vl → s₁.active i.fields.e j = s₂.active i.fields.e j) ∧
    (∀ j, j < numElems i.fields.w i.fields.vl → s₁.active i.fields.e j = true →
      elem i.fields.w.bits (s₁.rotatedVector i.fields) j = elem i.fields.w.bits (s₂.rotatedVector i.fields) j ∧
      s₁.countOf i.fields j % i.fields.w.bits = s₂.countOf i.fields j % i.fields.w.bits) ∧
    (∀ j, j < numElems i.fields.w i.fields.vl → s₁.active i.fields.e j = false → i.fields.e.z = false →
      elem i.fields.w.bits (s₁.readZmm i.fields.dst) j = elem i.fields.w.bits (s₂.readZmm i.fields.dst) j) := by
  refine ⟨⟨_, rfl⟩, ⟨_, rfl⟩, ?_, ?_, ?_⟩ <;> decide

theorem witness_DisabledFormIsInvalidOpcode :
    State.reset.mode = .real ∧ State.mode { ready with efer := 0, rflags := 0x20002 } = .virtual8086 ∧
    ({ ready with cr4 := 0x20 } : State).cr4.getLsbD 18 = false ∧
    ({ ready with xcr0 := 0x67 } : State).xcr0.extractLsb' 5 3 ≠ 7#3 ∧
    ({ ready with xcr0 := 0xE3 } : State).xcr0.extractLsb' 1 2 ≠ 3#2 ∧
    ({ ready with cpuid7ebx := 0x80000000 } : State).cpuid7ebx.getLsbD 16 = false ∧
    (regForm.fields.vl ≠ .l512 ∧ ({ ready with cpuid7ebx := 0x10000 } : State).cpuid7ebx.getLsbD 31 = false) := by
  decide

/-- CR0.TS = 1 with the forms enabled, in 64-bit mode and in a 32-bit mode, and with a decoder's #UD cause. -/
theorem witness_TaskSwitchedIsDeviceNotAvailable :
    let s := { ready with cr0 := 0x80000009, cpuid7ebx := 0x10000 }
    let i := Instr.vprord512 plain 1 (.reg 2) 8
    s.cr0.getLsbD 3 = true ∧ (s.mode = .mode64 ∧ s.cr4.getLsbD 18 = true ∧ s.xcr0.extractLsb' 5 3 = 7#3 ∧
      s.xcr0.extractLsb' 1 2 = 3#2 ∧ s.cpuid7ebx.getLsbD 16 = true ∧ i.fields.vl = .l512) ∧
    State.mode { ready32 with cr0 := 0x80000009 } = .mode32 ∧
    (let u := s.loadCode 0xFFF0 [0x62, 0xF1, 0x75, 0x18, 0x72, 0xC2, 0x08]
     decode Config.strictIgnoredBits u.codeSize (u.fetchBytes 15 0).1 = .ud .broadcastRegister) := by
  decide

theorem witness_RegisterFormFaults : regForm.fields.rm = .reg 2 := rfl

/-- Clause by clause: not canonical at the first and at the last byte only; past the limit by one byte; a null and an
unreadable segment; under a writemask, a byte of an element that is computed and one of an element that is not. -/
theorem witness_BadOperandAddressFaults :
    (let s := setX ready 0 0x800000000000
     let r := refOf memForm s false (.base 0 .absent)
     s.Enabled .l256 ∧ s.mode = .mode64 ∧ s.byteActive .dword .l256 plain false 0 = true ∧
       canonical s.laBits (s.linear r + BitVec.ofNat 64 0) = false) ∧
    (let s := setX ready 0 0x7FFFFFFFFFE1
     let r := refOf memForm s false (.base 0 .absent)
     r.size = 32 ∧ canonical s.laBits (s.linear r + BitVec.ofNat 64 30) = true ∧
       canonical s.laBits (s.linear r + BitVec.ofNat 64 31) = false) ∧
    (let s := { setX ready32 0 0xFF1 with segs.ss.limit := 0xFFF }
     let r := refOf ssForm s false (.base 0 .absent)
     s.Enabled .l128 ∧ s.mode = .mode32 ∧ s.csD = true ∧ r.seg = .ss ∧ r.size = 16 ∧
       (s.segment r.seg).limit.toNat < r.ea.toNat + 15 ∧ ¬ (s.segment r.seg).limit.toNat < r.ea.toNat + 14) ∧
    (let s := { ready32 with segs.ss.null := true }
     (s.segment (refOf ssForm s false (.base 0 .absent)).seg).null = true) ∧
    (let s := { ready32 with segs.ds.readable := false }
     (s.segment (refOf memForm s false (.base 0 .absent)).seg).readable = false) ∧
    (let s := setK (setX ready 3 0x7FFFFFFFFF90) 1 0x20
     let r := refOf maskedForm s false (.base 3 (.d32 0x48))
     s.byteActive .qword .l512 maskedForm.fields.e false 40 = true ∧
       s.byteActive .qword .l512 maskedForm.fields.e false 48 = false ∧
       canonical s.laBits (s.linear r + BitVec.ofNat 64 40) = false) :=
  ⟨⟨enabled_of (by decide), by decide, by decide, by decide⟩, by decide, ⟨enabled_of (by decide), by decide⟩, by decide,
    by decide, by decide⟩

/-- Row F5's shape: 32 bytes of which the last is not present. -/
theorem witness_RefusedOperandByteIsPageFault :
    let s := setX paged 0 0x3FE1
    let r := refOf memForm s false (.base 0 .absent)
    s.Enabled .l256 ∧ s.long = true ∧ s.alignmentChecking = false ∧
    (∀ j, j < r.size → s.addressOk r j = true) ∧ 31 < r.size ∧ s.byteActive .dword .l256 plain false 31 = true ∧
    s.translate .read (s.byteAddr r 31) = .pageFault 4 ∧ s.translate .read (s.byteAddr r 30) = .admitted :=
  ⟨enabled_of (by decide), by decide⟩

theorem witness_PageFaultCodeBits :
    paged.translate .read 0x4000 = .pageFault 4 ∧ paged.translate .fetch 0x4000 = .pageFault 20 ∧
    State.translate { paged with map := [⟨0x4000, 1, false, true, false, false⟩] } .read 0x4000 = .pageFault 5 ∧
    State.translate { paged with map := [⟨0x4000, 1, true, true, true, false⟩] } .read 0x4000 = .pageFault 13 ∧
    State.translate { paged with cpl := 0, map := [⟨0x4000, 1, true, false, false, false⟩] } .fetch 0x4000 =
      .pageFault 17 := by
  decide

/-- Alignment checking on: CR0.AM, RFLAGS.AC and privilege level 3. -/
def checked : State := { ready with cr0 := 0x80040001, rflags := 0x40002, cpl := 3 }

theorem witness_AlignmentCheckOnlyWhenEnabled :
    checked.alignmentChecking = true ∧ ({ checked with cr0 := 0x80000001 } : State).cr0.getLsbD 18 = false ∧
    ({ checked with rflags := 2 } : State).rflags.getLsbD 18 = false ∧ ({ checked with cpl := 0 } : State).cpl ≠ 3#2 ∧
    (∀ bcst m, bcstForm.fields.rm = .mem bcst m → operandBytes bcstForm.fields.w bcstForm.fields.vl bcst ∣
      (checked.linear (refOf bcstForm checked bcst m)).toNat) := by
  refine ⟨by decide, by decide, by decide, by decide, ?_⟩
  rintro bcst m h
  cases h
  decide

/-- Row F10's shape: a broadcast doubleword at an address that is not a multiple of 4. -/
theorem witness_MisalignedOperandFaultsOrCompletes :
    let s := setX checked 0 0x6001
    let r := refOf bcstForm s true (.base 0 .absent)
    s.Enabled .l128 ∧ s.long = true ∧ s.alignmentChecking = true ∧
    (∀ j, j < r.size → s.addressOk r j = true ∧ s.translate .read (s.byteAddr r j) = .admitted) ∧
    ¬ (r.size ∣ (s.linear r).toNat) :=
  ⟨enabled_of (by decide), by decide⟩

/-- Row F6: elements 5 to 7 are masked off and not present. -/
theorem witness_MaskedOffFaultIsOpen :
    let s := setK (setX paged 3 0x3F90) 1 0x1F
    let r := refOf maskedForm s false (.base 3 (.d32 0x48))
    s.Enabled .l512 ∧ s.long = true ∧ s.alignmentChecking = false ∧
    (∀ j, j < r.size → s.byteActive .qword .l512 maskedForm.fields.e false j = true →
      s.addressOk r j = true ∧ s.translate .read (s.byteAddr r j) = .admitted) ∧
    (∀ j, j < r.size → s.translate .read (s.byteAddr r j) ≠ .device) ∧
    s.translate .read (s.byteAddr r 40) = .pageFault 4 :=
  ⟨enabled_of (by decide), by decide⟩

/-- Row F7: element 5 is computed and not present; and one at a bad address. -/
theorem witness_UnmaskedFaultIsReported :
    (let s := setK (setX paged 3 0x3F90) 1 0x20
     let r := refOf maskedForm s false (.base 3 (.d32 0x48))
     s.Enabled .l512 ∧ s.long = true ∧ 40 < r.size ∧
       s.byteActive .qword .l512 maskedForm.fields.e false 40 = true ∧ s.ByteFault r 40 (.pf 4 (s.byteAddr r 40))) ∧
    (let s := setK (setX ready 3 0x7FFFFFFFFF90) 1 0x20
     s.ByteFault (refOf maskedForm s false (.base 3 (.d32 0x48))) 40 .gp) :=
  ⟨⟨enabled_of (by decide), by decide, by decide, by decide, .inr ⟨4, by decide, rfl⟩⟩, .inl (by decide)⟩

/-- A launched machine with one byte that has read side effects, at 1000H. -/
def withDevice : State :=
  { setX ready 0 0xFE1 with map := [⟨0x1000, 1, true, true, false, true⟩, ⟨0, 2 ^ 64, true, true, false, false⟩] }

/-- The last byte of the operand lies in a region with read side effects. -/
theorem witness_DeviceOperandIsRefused :
    let r := refOf memForm withDevice false (.base 0 .absent)
    withDevice.Enabled .l256 ∧ withDevice.long = true ∧ withDevice.alignmentChecking = false ∧
    (∀ j, j < r.size → withDevice.addressOk r j = true ∧
      ∀ c, withDevice.translate .read (withDevice.byteAddr r j) ≠ .pageFault c) ∧
    31 < r.size ∧ withDevice.translate .read (withDevice.byteAddr r 31) = .device := by
  refine ⟨enabled_of (by decide), by decide, by decide, ?_, by decide, by decide⟩
  intro j hj
  have h : let r := refOf memForm withDevice false (.base 0 .absent)
      ∀ j < r.size, withDevice.addressOk r j = true ∧
      (withDevice.translate .read (withDevice.byteAddr r j) = .admitted ∨
        withDevice.translate .read (withDevice.byteAddr r j) = .device) := by decide
  refine ⟨(h j hj).1, fun c hc => ?_⟩
  rcases (h j hj).2 with h | h <;> rw [h] at hc <;> cases hc

theorem witness_SixteenBitAddressingIsRefused :
    let s := { ready32 with csD := false }
    memForm.fields.rm = .mem false (.base 0 .absent) ∧ s.Enabled .l256 ∧ s.mode = .mode32 ∧ s.csD = false :=
  ⟨rfl, enabled_of (by decide), by decide, rfl⟩

/-- A memory form at the end of the segment, so that no byte after ModRM can be fetched: in a 32-bit mode with D = 0, in
real-address mode and in virtual-8086 mode. -/
theorem witness_SixteenBitMemoryFormIsNotRead :
    let bytes : List Byte := [0x36, 0x62, 0xF1, 0x75, 0x08, 0x72, 0x05]
    let s := { ready32 with csD := false, segs.cs.limit := 0xFFF6 }.loadCode 0xFFF0 bytes
    opEnOf 0xF1 0x75 0x72 0x05 = some true ∧ 1 + 6 + 1 ≤ 15 ∧ (0xF1#8).extractLsb' 6 2 = 3#2 ∧
    (0x05#8).extractLsb' 6 2 ≠ 3#2 ∧ (0xF1#8).getLsbD 3 = false ∧ (0x75#8).getLsbD 2 = true ∧
    vlenOf 0x08 = some .l128 ∧ (0x08#8).getLsbD 7 = false ∧ (0x08#8).getLsbD 3 = true ∧
    [SegReg.ss].map SegReg.toByte ++ [0x62, 0xF1, 0x75, 0x08, 0x72, 0x05] = bytes ∧
    (List.range 8).map (fun k => (s.fetchByte k).toOption) = bytes.map some ++ [none] ∧
    s.mode = .mode32 ∧ s.csD = false ∧ s.Enabled .l128 ∧
    (let t := State.reset.loadCode 0xFFFFFFF0 bytes
     t.mode = .real ∧ (List.range 7).map (fun k => (t.fetchByte k).toOption) = bytes.map some) ∧
    (let t := { s with efer := 0, rflags := 0x20002 }
     t.mode = .virtual8086 ∧ (List.range 7).map (fun k => (t.fetchByte k).toOption) = bytes.map some) :=
  ⟨by decide, by decide, by decide, by decide, by decide, by decide, by decide, by decide, by decide, by decide,
    by decide, by decide, by decide, enabled_of (by decide), by decide, by decide⟩

theorem witness_StepRunsTheDecodedInstruction :
    let s := ready.loadCode 0xFFF0 [0x62, 0xF1, 0x75, 0x08, 0x72, 0xC2, 0x08]
    decode Config.strictIgnoredBits s.codeSize (s.fetchBytes 15 0).1 = .instr regForm := by
  decide

theorem witness_StepRunsTheEncodedInstruction :
    let s := ready.loadCode 0xFFF0 [0x62, 0xF1, 0x75, 0x08, 0x72, 0xC2, 0x08]
    regForm.wellFormed s.codeSize = true ∧ encode regForm = [0x62, 0xF1, 0x75, 0x08, 0x72, 0xC2, 0x08] ∧
    (List.range 7).map (fun k => (s.fetchByte k).toOption) = (encode regForm).map some := by
  decide

/-- The boundary of each clause: the first byte past the lower half, the last byte before the wrap and the first after it,
and an instruction whose second byte is not present. -/
theorem witness_FetchFaultsStopTheStep :
    ({ ready with rip := 0x800000000000 } : State).mode = .mode64 ∧ canonical 48 0x800000000000 = false ∧
    ({ paged with rip := 0x4000 } : State).mode = .mode64 ∧ canonical 48 0x4000 = true ∧
    ({ paged with rip := 0x4000 } : State).translate .fetch 0x4000 = .pageFault 20 ∧
    canonical 48 (0x7FFFFFFFFFFF#64 + BitVec.ofNat 64 1) = false ∧
    2 ^ 64 ≤ (0xFFFFFFFFFFFFFFFF#64).toNat + 1 ∧ (0xFFFFFFFFFFFFFFFF#64).toNat + 0 < 2 ^ 64 ∧
    canonical 48 0xFFFFFFFFFFFFFFFF = true ∧
    ({ paged with rip := 0x3FFF } : State).translate .fetch (0x3FFF#64 + BitVec.ofNat 64 1) = .pageFault 20 := by
  decide

/-- The boundaries of each clause: the last byte within the limit of CS and the first past it, the last offset before the
wrap and the first past it, with a base that wraps the linear address, and bytes that are not present, a device, and
admitted. -/
theorem witness_FetchIn32BitModes :
    ready32.mode = .mode32 ∧
    (let s := { ready32 with rip := 0xFF8, segs.cs.limit := 0xFFF }
     s.mode = .mode32 ∧ s.segs.cs.limit.toNat < 0xFF8 + 8 ∧ 0xFF8 + 7 ≤ s.segs.cs.limit.toNat) ∧
    (let s := { ready32 with rip := 0x1000, segs.cs.limit := 0xFFF }
     s.mode = .mode32 ∧ s.segs.cs.limit.toNat < 0x1000) ∧
    (let s := { ready32 with rip := 0xFFFFFFFE, segs.cs.base := 0x1000 }
     s.mode = .mode32 ∧ 2 ^ 32 ≤ s.rip.toNat % 2 ^ 32 + 2 ∧ s.rip.toNat % 2 ^ 32 + 1 < 2 ^ 32 ∧
       s.fetchAddr 1 = 0xFFF ∧ s.translate .fetch 0xFFF = .admitted) ∧
    (let s := { ready32 with rip := 0xFFF, map := [⟨0x1000, 1, true, true, false, true⟩] }
     s.mode = .mode32 ∧ 0xFFF ≤ s.segs.cs.limit.toNat ∧ s.translate .fetch (s.fetchAddr 0) = .pageFault 16 ∧
       s.translate .fetch (s.fetchAddr 1) = .device) := by
  decide

/-- An invalid encoding (row X7, LOCK) whose last two bytes are past the lower canonical half; and the same with 67H beside
LOCK in a 32-bit mode, its last byte past the limit of CS. -/
theorem witness_UnfetchableByteStopsTheStep :
    (let bytes : List Byte := [0xF0, 0x62, 0xF1, 0x75, 0x08, 0x72, 0xC2, 0x08]
     let s := { ready with rip := 0x7FFFFFFFFFFA }.loadCode 0x7FFFFFFFFFFA bytes
     MeasuredPrefix s.codeSize [0xF0] 0xF1 0xC2 ∧ opEnOf 0xF1 0x75 0x72 0xC2 = some true ∧
     6 < lengthByFormula 1 true 0xC2 0x08 ∧
     (List.range 6).map (fun k => (s.fetchByte k).toOption) = (bytes.take 6).map some ∧
     s.fetchByte 6 = .error (.refuse .fetchWrap)) ∧
    (let bytes : List Byte := [0xF0, 0x67, 0x62, 0xF1, 0x75, 0x08, 0x72, 0xC2, 0x08]
     let s := { ready32 with rip := 0x1000, segs.cs.limit := 0x1007 }.loadCode 0x1000 bytes
     MeasuredPrefix s.codeSize [0xF0, 0x67] 0xF1 0xC2 ∧ 8 < lengthByFormula 2 true 0xC2 0x08 ∧
     (List.range 8).map (fun k => (s.fetchByte k).toOption) = (bytes.take 8).map some ∧
     s.fetchByte 8 = .error (.fault .gp)) := by
  refine ⟨⟨?_, by decide, by decide, by decide, by decide⟩, ?_, by decide, by decide, by decide⟩ <;>
    unfold MeasuredPrefix SkippedByte ForbiddenByte <;> decide

theorem witness_FifteenOverrideBytesAreTooLong :
    let s := { ready with rip := 0x1000 }.loadCode 0x1000 (List.replicate 15 0x64)
    (List.range 15).map (fun k => (s.fetchByte k).toOption) =
      ((List.replicate 15 SegReg.fs).map SegReg.toByte).map some := by
  decide

/-- A step that completes, and a run of one. -/
theorem witness_StepKeepsTheRestOfTheState :
    ∃ t, stepOn ready [0x62, 0xF1, 0x75, 0x08, 0x72, 0xC2, 0x08] = .next t := by
  have h : (zmmAfter (stepOn ready [0x62, 0xF1, 0x75, 0x08, 0x72, 0xC2, 0x08]) 1).isSome = true := by decide
  revert h
  cases stepOn ready [0x62, 0xF1, 0x75, 0x08, 0x72, 0xC2, 0x08] with
  | next t => exact fun _ => ⟨t, rfl⟩
  | fault f => nofun
  | refused r => nofun

theorem witness_RunKeepsTheRestOfTheState : (runFrom 0x1007 3 ready).state = (runFrom 0x1007 3 ready).state := rfl

/-- One step from a state that meets the invariant, in 64-bit mode and in a 32-bit mode. -/
theorem witness_StepKeepsTheInvariant :
    let bytes : List Byte := [0x62, 0xF1, 0x75, 0x08, 0x72, 0xC2, 0x08]
    (ready.loadCode 0xFFF0 bytes).mem.wf = true ∧ (ready32.loadCode 0xFFF0 bytes).mem.wf = true ∧
    ready32.rip.toNat < 2 ^ 32 ∧ ripAfter (stepOn ready bytes) ready = some 7 ∧
    ripAfter (stepOn ready32 bytes) ready32 = some 7 := by
  decide

/-- A program of one invalid instruction (program P6), and one of a byte that is no instruction of the model. -/
theorem witness_RunFaultsBeforeTheInstruction :
    ready.programPlaced ⟨0x1000, [0x62, 0xF1, 0x75, 0x18, 0x72, 0xC2, 0x08]⟩ = true ∧
    (match runProgram ⟨0x1000, [0x62, 0xF1, 0x75, 0x18, 0x72, 0xC2, 0x08]⟩ 3 ready with
      | .faulted t f => t.rip == 0x1000 && f == .ud
      | _ => false) = true ∧
    (match runProgram ⟨0x1000, [0x90]⟩ 3 ready with
      | .refused t r => t.rip == 0x1000 && r == .notInScope
      | _ => false) = true := by
  decide

/-- A program of one instruction finishes after it; an empty program does not finish where it starts. -/
theorem witness_RunFinishesByFallThrough :
    ready.programPlaced ⟨0x1000, [0x62, 0xF1, 0x75, 0x08, 0x72, 0xC2, 0x08]⟩ = true ∧
    (match runProgram ⟨0x1000, [0x62, 0xF1, 0x75, 0x08, 0x72, 0xC2, 0x08]⟩ 3 ready with
      | .finished t => t.rip == 0x1007
      | _ => false) = true ∧
    (match runProgram ⟨0x1000, []⟩ 3 ready with
      | .refused t r => t.rip == 0x1000 && r == .notInScope
      | _ => false) = true := by
  decide

/-- One byte too far: past the lower canonical half, and past the wrap; in a 32-bit mode a base and a byte past 2^32. -/
theorem witness_MisplacedProgramIsRefused :
    (ready32.mode ≠ .mode64 ∧ 2 ^ 32 ≤ (0x100000000#64).toNat ∧ ¬ 2 ^ 32 ≤ (0xFFFFFFFF#64).toNat ∧
      2 ^ 32 ≤ (0xFFFFFFFF#64).toNat + 1) ∧
    ready.mode = .mode64 ∧ canonical ready.laBits (0x7FFFFFFFFFFF#64 + BitVec.ofNat 64 0) = true ∧
    canonical ready.laBits (0x7FFFFFFFFFFF#64 + BitVec.ofNat 64 1) = false ∧
    2 ^ 64 ≤ (0xFFFFFFFFFFFFFFFF#64).toNat + 1 := by
  decide

/-- A program that ends at the last address, and one in a 32-bit mode. -/
theorem witness_ProgramStandsAtItsBase :
    ready.programPlaced ⟨0xFFFFFFFFFFFFFFFE, [1, 2]⟩ = true ∧ ready32.programPlaced ⟨0xFFFFFFFE, [1, 2]⟩ = true ∧
    ready.mem.wf = true ∧ ready.programEnd ⟨0xFFFFFFFFFFFFFFFE, [1, 2]⟩ = 0 ∧
    ready32.programEnd ⟨0xFFFFFFFE, [1, 2]⟩ = 0 ∧ ready32.programPlaced ⟨0x1FFFFFFFE, [1, 2]⟩ = false := by
  decide

/-- Stores in either order give one memory. -/
theorem witness_CanonicalMemoriesAreEqual :
    let m₁ := (Memory.write ⟨[]⟩ 1 7).write 2 8
    let m₂ := (Memory.write ⟨[]⟩ 2 8).write 1 7
    m₁.wf = true ∧ m₂.wf = true ∧ m₁ = m₂ := by decide

/-- Bytes across the end of the address space. -/
theorem witness_LoadedBytesReadBack :
    let m := Memory.writeBytes ⟨[]⟩ 0xFFFFFFFFFFFFFFFF [1, 2]
    m.wf = true ∧ m.read 0xFFFFFFFFFFFFFFFF = 1 ∧ m.read 0 = 2 := by decide

theorem witness_LoadedInstructionRunsNext :
    (Instr.vprorvq512 ⟨[], 7, true⟩ 0 31 (.reg 8)).wellFormed .bits64 = true := by decide

end Sys2Proof.Tests
end

section
/-! SUPPORT. The length of a decoded instruction (30_encoding.md R69), as the decoder's bound gives it. -/

namespace Sys2Proof

/-- Every form takes at least the four bytes of EVEX, its opcode and ModRM (30_encoding.md R69). -/
theorem Fields.six_le_len (f : Fields) : 6 ≤ f.len := by
  unfold Fields.len; omega

/-- Skipped bytes with neither a forbidden byte nor 67H are as many segment overrides. -/
theorem length_filterMap_ofByte {cs : CodeSize} {legacy : List Byte} (h : ∀ b ∈ legacy, isLegacy cs b = true)
    (ha : legacy.any isAddressSize = false) (hf : legacy.any (isForbiddenLegacy cs) = false) :
    (legacy.filterMap SegReg.ofByte).length = legacy.length := by
  simpa using congrArg List.length (legacy_eq_overrides h ha hf)

/-- The assembled parts take as many bytes as were read: overrides, the six bytes to ModRM, and the tail. -/
theorem len_assemble {cs : CodeSize} {opA : Bool} (vl : VLen) (overrides : List SegReg) {p0 : Byte} (p1 p2 : Byte)
    {modrm : Byte} {tail : List Byte} {t : Tail} (h : TailRead opA (field2 modrm) (field3 modrm 0) tail t)
    (hx : cs ≠ .bits64 → p0.getLsbD 6 = true) (h16 : cs = .bits16 → field2 modrm = 3#2) :
    (assemble cs opA vl overrides p0 p1 p2 modrm t).len = overrides.length + 6 + t.len := by
  have hrm := (rmOperand_wf (x := !p0.getLsbD 6) (b := cs == .bits64 && !p0.getLsbD 5) (bcst := p2.getLsbD 4) h
    (fun hc => by simp [hc, hx hc]) h16).2
  rw [← hrm]
  cases opA with
  | false => rfl
  | true => rfl

/-- An instruction the decoder accepts is at most 15 bytes long (30_encoding.md R69). -/
theorem decode_instr_len_le {strict : Bool} {cs : CodeSize} {bytes : List Byte} {i : Instr}
    (h : decode strict cs bytes = .instr i) : i.fields.len ≤ 15 := by
  obtain ⟨legacy, p0, p1, p2, op, modrm, tail, opA, t, vl, -, hleg, haddr, hp0, h16, -, ht, hacc, rfl⟩ :=
    decode_instr h
  have hmd : cs = .bits16 → field2 modrm = 3#2 := fun hc => h16 (by simp [hc, usesAddressing16, haddr])
  rw [fields_toInstr, len_assemble vl _ p1 p2 (readTail_some ht) (fun hc => (hp0 hc).2) hmd,
    length_filterMap_ofByte hleg haddr hacc.legacy_ok]
  exact hacc.short

end Sys2Proof
end

section
/-! PROOFS. What a step and a run leave unchanged (10_state.md R27). -/

namespace Sys2Proof.Machine

/-! ## The relation `SameElsewhere` -/

theorem SameElsewhere.refl (s : State) : SameElsewhere s s := by simp [SameElsewhere]

theorem SameElsewhere.trans {s t u : State} (h : SameElsewhere s t) (h' : SameElsewhere t u) : SameElsewhere s u := by
  unfold SameElsewhere at *
  simp only [h, h', and_self]

/-- The operating mode is a function of control state that `SameElsewhere` fixes (10_state.md R23). -/
theorem SameElsewhere.mode_eq {s t : State} (h : SameElsewhere s t) : t.mode = s.mode := by
  obtain ⟨-, -, -, hcsL, -, hrflags, -, hcr0, -, -, hefer, -⟩ := h
  unfold State.mode State.cr0PE State.eferLMA State.rflagsVM
  rw [hcr0, hefer, hcsL, hrflags]

theorem SameElsewhere.read_eq {s t : State} (h : SameElsewhere s t) (a : Word64) : t.mem.read a = s.mem.read a := by
  unfold SameElsewhere at h
  simp only [h]

/-! ## One step -/

/-- The instruction at the program counter is 6 to 15 bytes long, as the decoder read it there. -/
theorem instrAt_len {s : State} {i : Instr} (h : s.instrAt = .ok i) : 6 ≤ i.fields.len ∧ i.fields.len ≤ 15 :=
  ⟨i.fields.six_le_len, decode_instr_len_le (instrAt_ok h)⟩

/-- Completion counts at most one read of memory. -/
theorem completed_choices_cases (f : Fields) (s : State) :
    (completed f s).choices = s.choices ∨ (completed f s).choices = s.choices + 1 := by
  rw [completed_choices]
  cases isMem f.rm with
  | false => exact .inl rfl
  | true => exact .inr rfl

/-- Settles O51: a step that completes is the completion of a decoded instruction. -/
theorem stepKeepsTheRestOfTheState : Obligations.StepKeepsTheRestOfTheState := by
  intro s t h
  obtain ⟨i, hi, rfl⟩ := step_next h
  have hsame := completed_sameElsewhere i.fields s
  obtain ⟨hmin, hmax⟩ := instrAt_len hi
  exact ⟨hsame, hsame.mode_eq, hsame.read_eq, ⟨i.fields.dst, fun _ hn => readZmm_completed_ne hn⟩,
    ⟨i.fields.len, hmin, hmax, completed_rip _ _⟩, completed_avx512InUse _ _, completed_choices_cases _ _⟩

/-! ## Runs -/

/-- What at most `n` steps keep: all but the vector registers and the program counter, with the mark of R24 not cleared
and the model's counter grown by at most `n`. -/
structure KeepsRest (n : Nat) (s t : State) : Prop where
  same : SameElsewhere s t
  mark : s.avx512InUse = true → t.avx512InUse = true
  choices_ge : s.choices ≤ t.choices
  choices_le : t.choices ≤ s.choices + n

theorem KeepsRest.refl (n : Nat) (s : State) : KeepsRest n s s :=
  ⟨.refl s, id, Nat.le_refl _, Nat.le_add_right _ _⟩

theorem KeepsRest.trans {m n : Nat} {s t u : State} (h : KeepsRest m s t) (h' : KeepsRest n t u) :
    KeepsRest (n + m) s u where
  same := h.same.trans h'.same
  mark := h'.mark ∘ h.mark
  choices_ge := h.choices_ge.trans h'.choices_ge
  choices_le := by have := h.choices_le; have := h'.choices_le; omega

theorem step_keepsRest {s t : State} (h : step s = .next t) : KeepsRest 1 s t := by
  obtain ⟨hsame, -, -, -, -, hmark, hcount⟩ := stepKeepsTheRestOfTheState s t h
  exact ⟨hsame, fun _ => hmark, by omega, by omega⟩

/-- Where a run of at most `n + 1` steps stands at its end: where it began, if the first step stops, or after that step,
or where the rest of the run stands. -/
theorem runFrom_succ_state (stopAt : Word64) (n : Nat) (s : State) :
    (runFrom stopAt (n + 1) s).state = s ∨
    ∃ t, step s = .next t ∧ ((runFrom stopAt (n + 1) s).state = t ∨
      (runFrom stopAt (n + 1) s).state = (runFrom stopAt n t).state) := by
  rw [runFrom]
  cases step s with
  | fault f => exact .inl rfl
  | refused r => exact .inl rfl
  | next t =>
    refine .inr ⟨t, rfl, ?_⟩
    by_cases hend : t.rip = stopAt
    · exact .inl (by simp only [if_pos hend]; rfl)
    · exact .inr (by simp only [if_neg hend])

theorem runFrom_keepsRest (stopAt : Word64) (n : Nat) (s : State) : KeepsRest n s (runFrom stopAt n s).state := by
  induction n generalizing s with
  | zero => exact .refl 0 s
  | succ n ih =>
    rcases runFrom_succ_state stopAt n s with hs | ⟨t, hstep, ht | hrest⟩
    · rw [hs]; exact .refl _ s
    · rw [ht]; exact (step_keepsRest hstep).trans (.refl n t)
    · rw [hrest]; exact (step_keepsRest hstep).trans (ih t)

/-- Settles O52, by induction on the number of steps. -/
theorem runKeepsTheRestOfTheState : Obligations.RunKeepsTheRestOfTheState := by
  rintro stopAt n s _ rfl
  obtain ⟨hsame, hmark, hge, hle⟩ := runFrom_keepsRest stopAt n s
  exact ⟨hsame, hsame.mode_eq, hsame.read_eq, hmark, hge, hle⟩

end Sys2Proof.Machine
end

section
/-! SUPPORT. Where the bytes of an instruction and of a program stand, and when the new value of a destination and two
canonical memories agree (10_state.md R13, R18, R19). -/

namespace Sys2Proof.Machine

/-! ## The mode and the width of addresses (10_state.md R13, R23) -/

theorem long_iff (s : State) : s.long = true ↔ s.mode = .mode64 := by simp [State.long]

theorem long_eq_false_iff (s : State) : s.long = false ↔ s.mode ≠ .mode64 := by simp [State.long]

theorem truncAddr_of_long {s : State} (h : s.long = true) (a : Word64) : s.truncAddr a = a := by
  simp [State.truncAddr, h]

theorem truncAddr_toNat_of_not_long {s : State} (h : s.long = false) (a : Word64) :
    (s.truncAddr a).toNat = a.toNat % 2 ^ 32 := by
  rw [truncAddr_toNat, h]; rfl

/-! ## The bytes at the program counter (10_state.md R13, 60_exceptions.md R129) -/

/-- In 64-bit mode a byte is placed below the wrap and at a canonical address (10_state.md R13). -/
theorem fetchPlaced_iff_of_long {s : State} (h : s.long = true) (k : Nat) :
    s.fetchPlaced k = true ↔
      s.rip.toNat + k < 2 ^ 64 ∧ canonical s.laBits (s.rip + BitVec.ofNat 64 k) = true := by
  simp [State.fetchPlaced, State.fetchInRange, State.fetchAddr, h]

/-- Outside 64-bit mode a byte is placed below the wrap of EIP (10_state.md R13). -/
theorem fetchPlaced_iff_of_not_long {s : State} (h : s.long = false) (k : Nat) :
    s.fetchPlaced k = true ↔ s.rip.toNat % 2 ^ 32 + k < 2 ^ 32 := by
  simp only [State.fetchPlaced, State.fetchInRange, h, truncAddr_toNat_of_not_long h, Bool.false_eq_true, if_false,
    Bool.not_false, Bool.true_or, Bool.and_true, decide_eq_true_eq]

/-- Outside 64-bit mode the address of a byte is good within the limit of CS (log 8). -/
theorem fetchAddressOk_iff_of_not_long {s : State} (h : s.long = false) (k : Nat) :
    s.fetchAddressOk k = true ↔ s.rip.toNat % 2 ^ 32 + k ≤ s.segs.cs.limit.toNat := by
  simp only [State.fetchAddressOk, h, truncAddr_toNat_of_not_long h, Bool.false_eq_true, if_false, decide_eq_true_eq]

/-- Outside 64-bit mode byte `k` stands at the base of CS plus EIP plus `k`, modulo 2^32 (log 8). -/
theorem fetchAddr_toNat_of_not_long {s : State} (h : s.long = false) (k : Nat) :
    (s.fetchAddr k).toNat = (s.segs.cs.base.toNat + s.rip.toNat % 2 ^ 32 + k) % 2 ^ 32 := by
  simp only [State.fetchAddr, h, Bool.false_eq_true, if_false, truncAddr_toNat_of_not_long h, BitVec.toNat_add,
    BitVec.toNat_ofNat]
  omega

/-- A byte after the first that is not placed is refused (log 21). -/
theorem fetchByte_of_not_placed {s : State} {k : Nat} (hk : k ≠ 0) (h : s.fetchPlaced k = false) :
    s.fetchByte k = .error (.refuse .fetchWrap) := by
  simp [State.fetchByte, hk, h]

/-- A byte that is placed, or the first, is #GP(0) at a bad address (60_exceptions.md R129). -/
theorem fetchByte_of_bad_address {s : State} {k : Nat} (hp : k = 0 ∨ s.fetchPlaced k = true)
    (h : s.fetchAddressOk k = false) : s.fetchByte k = .error (.fault .gp) := by
  rcases hp with rfl | hp
  · simp [State.fetchByte, h]
  · simp [State.fetchByte, h, hp]

/-- What a byte that is placed, or the first, gives at a good address is as `Translate` answers (20_memory.md R40). -/
theorem fetchByte_of_good_address {s : State} {k : Nat} (hp : k = 0 ∨ s.fetchPlaced k = true)
    (h : s.fetchAddressOk k = true) :
    s.fetchByte k = match s.translate .fetch (s.fetchAddr k) with
      | .pageFault c => .error (.fault (.pf c (s.fetchAddr k)))
      | .device => .error (.refuse .deviceMemory)
      | .admitted => .ok (s.mem.read (s.fetchAddr k)) := by
  have hpass : (k != 0 && !s.fetchPlaced k) = false := by rcases hp with rfl | hp <;> simp [*]
  cases htr : s.translate .fetch (s.fetchAddr k) <;> simp [State.fetchByte, hpass, h, htr]

/-- When the first byte cannot be fetched the step stops for it (60_exceptions.md R130). -/
theorem step_of_first_byte {s : State} {stop : Stop} (h : s.fetchByte 0 = .error stop) : step s = stop.result := by
  have hb : s.fetchBytes 15 0 = ([], some stop) :=
    fetchBytes_stop s (bs := []) (by decide) (fun j hj => absurd hj (Nat.not_lt_zero j)) h
  rw [step_of_short (by rw [hb]; rfl), hb]
  rfl

/-! ## A program that is not placed (10_state.md R13) -/

theorem runProgram_of_not_placed {p : Program} {s : State} (n : Nat) (h : s.programPlaced p = false) :
    runProgram p n s = .refused s .fetchWrap := by
  simp [runProgram, h]

/-- A base that the program counter cannot hold places no program (log 26). -/
theorem programPlaced_of_base {p : Program} {s : State} (h : s.truncAddr p.base ≠ p.base) :
    s.programPlaced p = false := by
  simp [State.programPlaced, h]

/-- One byte that is not placed is enough (10_state.md R13). -/
theorem programPlaced_of_byte {p : Program} {s : State} {k : Nat} (hk : k < p.bytes.length)
    (h : (s.atProgram p).fetchPlaced k ≠ true) : s.programPlaced p = false := by
  have hall : (List.range p.bytes.length).all (s.atProgram p).fetchPlaced = false :=
    List.all_eq_false.mpr ⟨k, List.mem_range.mpr hk, h⟩
  simp [State.programPlaced, hall]

@[simp] theorem atProgram_laBits (s : State) (p : Program) : (s.atProgram p).laBits = s.laBits := rfl

/-! ## What the new value of a destination depends on (40_rotate_common.md R84, R85, R92) -/

theorem packElems_congr {w : Nat} {f g : Nat → BitVec w} {n : Nat} (h : ∀ j, j < n → f j = g j) :
    packElems w f n = packElems w g n := by
  induction n with
  | zero => rfl
  | succ n ih => rw [packElems, packElems, ih fun j hj => h j (by omega), h n n.lt_succ_self]

/-- A rotate looks at its count modulo the width only (40_rotate_common.md R80). -/
theorem ror_congr_mod {w : Nat} (v : BitVec w) {c d : Nat} (h : c % w = d % w) : ror w v c = ror w v d := by
  rw [ror, ror, h]

/-- An element that is computed depends on its source element and its count modulo the width; one that is merged on its
old value; one that is zeroed on nothing. -/
theorem newElem_congr {w : ElemWidth} {src₁ src₂ old₁ old₂ : Vec} {count₁ count₂ : Nat → Nat}
    {active₁ active₂ : Nat → Bool} {z : Bool} {j : Nat} (hact : active₁ j = active₂ j)
    (hsrc : active₁ j = true →
      elem w.bits src₁ j = elem w.bits src₂ j ∧ count₁ j % w.bits = count₂ j % w.bits)
    (hold : active₁ j = false → z = false → elem w.bits old₁ j = elem w.bits old₂ j) :
    newElem w src₁ count₁ active₁ z old₁ j = newElem w src₂ count₂ active₂ z old₂ j := by
  unfold newElem
  rw [← hact]
  cases ha : active₁ j with
  | true =>
    obtain ⟨helem, hcount⟩ := hsrc ha
    simp only [if_true, helem, ror_congr_mod _ hcount]
  | false =>
    cases hz : z with
    | true => rfl
    | false => simp only [Bool.false_eq_true, if_false, hold ha hz]

/-! ## Canonical memories (10_state.md R19) -/

theorem cellsWf_cons_iff {lo b : Nat} {v : Byte} {rest : List Host.Cell} :
    cellsWf lo ((b, v) :: rest) = true ↔
      lo ≤ b ∧ b < 2 ^ 64 ∧ v ≠ Config.unlistedByte ∧ cellsWf (b + 1) rest = true := by
  simp [cellsWf, and_assoc]

@[simp] theorem readCells_cons_self (b : Nat) (v : Byte) (rest : List Host.Cell) :
    readCells b ((b, v) :: rest) = v := by
  simp [readCells]

theorem readCells_cons_ne {a b : Nat} (v : Byte) (rest : List Host.Cell) (h : b ≠ a) :
    readCells a ((b, v) :: rest) = readCells a rest := by
  simp [readCells, h]

/-- No byte is listed below the first cell. -/
theorem le_of_readCells_ne {lo a b : Nat} {v : Byte} {rest : List Host.Cell}
    (h : cellsWf lo ((b, v) :: rest) = true) (ha : readCells a ((b, v) :: rest) ≠ Config.unlistedByte) : b ≤ a := by
  obtain ⟨-, hb, hv, hrest⟩ := cellsWf_cons_iff.mp h
  have hself : cellsWf b ((b, v) :: rest) = true := cellsWf_cons_iff.mpr ⟨le_rfl, hb, hv, hrest⟩
  by_contra hlt
  exact ha (readCells_of_lt hself (by omega))

/-- Cells with the same first address and the same reads list the same bytes after it. -/
theorem readCells_rest_eq {b : Nat} {v u : Byte} {rest₁ rest₂ : List Host.Cell} (h₁ : cellsWf (b + 1) rest₁ = true)
    (h₂ : cellsWf (b + 1) rest₂ = true) {a : Nat}
    (h : readCells a ((b, v) :: rest₁) = readCells a ((b, u) :: rest₂)) :
    readCells a rest₁ = readCells a rest₂ := by
  by_cases hab : b = a
  · rw [readCells_of_lt h₁ (by omega), readCells_of_lt h₂ (by omega)]
  · rwa [readCells_cons_ne v _ hab, readCells_cons_ne u _ hab] at h

/-- Canonical cells are determined by what they read. -/
theorem cells_ext {lo₁ lo₂ : Nat} {cells₁ cells₂ : List Host.Cell} (h₁ : cellsWf lo₁ cells₁ = true)
    (h₂ : cellsWf lo₂ cells₂ = true) (h : ∀ a, a < 2 ^ 64 → readCells a cells₁ = readCells a cells₂) :
    cells₁ = cells₂ := by
  induction cells₁ generalizing lo₁ lo₂ cells₂ with
  | nil =>
    cases cells₂ with
    | nil => rfl
    | cons c rest₂ =>
      obtain ⟨b, v⟩ := c
      obtain ⟨-, hb, hv, -⟩ := cellsWf_cons_iff.mp h₂
      exact absurd ((readCells_cons_self b v rest₂).symm.trans (h b hb).symm) hv
  | cons c₁ rest₁ ih =>
    obtain ⟨b, v⟩ := c₁
    obtain ⟨-, hb, hv, hrest₁⟩ := cellsWf_cons_iff.mp h₁
    have hread : v = readCells b cells₂ := (readCells_cons_self b v rest₁).symm.trans (h b hb)
    cases cells₂ with
    | nil => exact absurd hread hv
    | cons c₂ rest₂ =>
      obtain ⟨c, u⟩ := c₂
      obtain ⟨-, hc, hu, hrest₂⟩ := cellsWf_cons_iff.mp h₂
      have hcb : c ≤ b := le_of_readCells_ne h₂ (hread ▸ hv)
      have hbc : b ≤ c := le_of_readCells_ne h₁ (by rwa [h c hc, readCells_cons_self])
      obtain rfl : b = c := Nat.le_antisymm hbc hcb
      obtain rfl : v = u := by rwa [readCells_cons_self] at hread
      rw [ih hrest₁ hrest₂ fun a ha => readCells_rest_eq hrest₁ hrest₂ (h a ha)]

end Sys2Proof.Machine
end

section
/-! PROOFS. The state (10_state.md): the invariant, what a form changes and depends on, the fetch in 32-bit modes, the
values after reset, misplaced programs, and the canonical form of memory. -/

namespace Sys2Proof.Machine

/-! ## The invariant -/

/-- Completion touches no memory, and outside 64-bit mode cuts the next program counter to 32 bits. -/
theorem completed_inv {s : State} (f : Fields) (h : s.Inv) : (completed f s).Inv := by
  obtain ⟨hmem, -⟩ := h
  refine ⟨by rwa [completed_mem], fun hlong => ?_⟩
  rw [completed_rip]
  exact nextRip_lt s f.len (by rwa [completed_long] at hlong)

/-- Settles O49: a step that answers a next state has completed an instruction. -/
theorem stepKeepsTheInvariant : Obligations.StepKeepsTheInvariant := by
  intro s t hs h
  obtain ⟨i, -, rfl⟩ := step_next h
  exact completed_inv i.fields hs

/-- Settles O50: after reset no byte is listed and the program counter is FFF0H. -/
theorem resetMeetsTheInvariant : Obligations.ResetMeetsTheInvariant :=
  ⟨rfl, fun _ => by decide⟩

/-! ## What a form changes and depends on -/

/-- Settles O26, from the frame of a completed form. -/
theorem executionFrame : Obligations.ExecutionFrame := by
  intro i s t h
  obtain ⟨-, rfl⟩ := exec_next h
  have hsame := completed_sameElsewhere i.fields s
  exact ⟨fun n hn => readZmm_completed_ne hn, hsame, hsame.read_eq⟩

/-- Settles O27: the two new values agree element by element. -/
theorem resultIgnoresUnreadState : Obligations.ResultIgnoresUnreadState := by
  intro i s₁ s₂ t₁ t₂ h₁ h₂ hact hsrc hold
  obtain ⟨-, rfl⟩ := exec_next h₁
  obtain ⟨-, rfl⟩ := exec_next h₂
  rw [readZmm_completed_self, readZmm_completed_self]
  exact packElems_congr fun j hj => newElem_congr (hact j hj) (hsrc j hj) (hold j hj)

/-! ## The fetch in 32-bit modes -/

/-- Settles O46: the limit of CS has 32 bits, so a byte within it is also below the wrap of EIP. -/
theorem fetchIn32BitModes : Obligations.FetchIn32BitModes := by
  rintro s eip hmode rfl
  have hlong : s.long = false := (long_eq_false_iff s).mpr (by rw [hmode]; decide)
  have hpast (k : Nat) (hk : s.segs.cs.limit.toNat < s.rip.toNat % 2 ^ 32 + k) : s.fetchAddressOk k = false := by
    rw [Bool.eq_false_iff, ne_eq, fetchAddressOk_iff_of_not_long hlong]
    omega
  have hgood (k : Nat) (hk : s.rip.toNat % 2 ^ 32 + k ≤ s.segs.cs.limit.toNat) :=
    fetchByte_of_good_address (s := s) (k := k)
      (.inr ((fetchPlaced_iff_of_not_long hlong k).mpr (hk.trans_lt s.segs.cs.limit.isLt)))
      ((fetchAddressOk_iff_of_not_long hlong k).mpr hk)
  refine ⟨fetchAddr_toNat_of_not_long hlong, fun k hwrap hk => ?_, fun k hwrap => ?_, fun k hk => ⟨fun c hc => ?_,
    fun hd => ?_, fun ha => ?_⟩, fun h0 => ?_, fun c h0 hc => ?_⟩
  · exact fetchByte_of_bad_address (.inr ((fetchPlaced_iff_of_not_long hlong k).mpr hwrap)) (hpast k hk)
  · refine fetchByte_of_not_placed (by omega) ?_
    rw [Bool.eq_false_iff, ne_eq, fetchPlaced_iff_of_not_long hlong]
    omega
  · rw [hgood k hk, hc]
  · rw [hgood k hk, hd]
  · rw [hgood k hk, ha]
  · exact step_of_first_byte (fetchByte_of_bad_address (.inl rfl) (hpast 0 h0))
  · exact step_of_first_byte (by rw [hgood 0 h0, hc])

/-! ## Misplaced programs -/

/-- A base of more than 32 bits does not fit the program counter outside 64-bit mode. -/
theorem programPlaced_of_large_base {p : Program} {s : State} (hlong : s.long = false)
    (h : 2 ^ 32 ≤ p.base.toNat) : s.programPlaced p = false := by
  refine programPlaced_of_base fun heq => ?_
  have := congrArg BitVec.toNat heq
  rw [truncAddr_toNat_of_not_long hlong] at this
  omega

/-- Settles O55: the misplaced byte, or the base, keeps the program from being placed. -/
theorem misplacedProgramIsRefused : Obligations.MisplacedProgramIsRefused := by
  refine fun p n s => ⟨fun k hmode hk hbad => ?_, fun hmode hbase => ?_, fun k hmode hk hwrap => ?_⟩
  · have hlong : s.long = true := (long_iff s).mpr hmode
    refine runProgram_of_not_placed n (programPlaced_of_byte hk ?_)
    rw [ne_eq, fetchPlaced_iff_of_long (by rwa [atProgram_long]), atProgram_rip, truncAddr_of_long hlong,
      atProgram_laBits]
    rintro ⟨hlt, hcan⟩
    rcases hbad with hge | hnot
    · omega
    · rw [hnot] at hcan; cases hcan
  · exact runProgram_of_not_placed n (programPlaced_of_large_base ((long_eq_false_iff s).mpr hmode) hbase)
  · have hlong : s.long = false := (long_eq_false_iff s).mpr hmode
    refine runProgram_of_not_placed n ?_
    by_cases hbase : 2 ^ 32 ≤ p.base.toNat
    · exact programPlaced_of_large_base hlong hbase
    · refine programPlaced_of_byte hk ?_
      rw [ne_eq, fetchPlaced_iff_of_not_long (by rwa [atProgram_long]), atProgram_rip,
        truncAddr_toNat_of_not_long hlong]
      omega

/-! ## After reset -/

theorem reset_readZmm (n : VReg) : State.reset.readZmm n = 0 := by
  simp [State.readZmm, State.reset]

theorem reset_readK (n : KReg) : State.reset.readK n = 0 := by
  simp [State.readK, State.reset]

/-- Every general register but RDX is 0 after reset (10_state.md R25). -/
theorem reset_readX {n : GReg} (h : n ≠ 2#4) : State.reset.readX n = 0 := by
  have hne : 2 ≠ n.toNat := fun hn => h (BitVec.eq_of_toNat_eq hn.symm)
  simp [State.readX, State.reset, Vector.getElem_set_ne, hne]

/-- No form is enabled in real-address mode, in which the machine is after reset (70_reset_and_hazards.md R150). -/
theorem reset_enableFault (vl : VLen) : State.reset.enableFault vl = some .ud := by
  have hmode : State.reset.mode = .real := by decide
  simp [State.enableFault, hmode]

/-- Settles O57: the registers one by one; every form is disabled by the mode. -/
theorem resetValues : Obligations.ResetValues :=
  ⟨reset_readZmm, reset_readK, fun _ => reset_readX, rfl, rfl, by decide, by decide, rfl, rfl, rfl, rfl, rfl, rfl, rfl,
    fun _ => exec_of_enableFault (reset_enableFault _)⟩

/-! ## The canonical form of memory -/

/-- Settles O58, by induction on the cells: the first cell is the first address that reads as listed. -/
theorem canonicalMemoriesAreEqual : Obligations.CanonicalMemoriesAreEqual := by
  rintro ⟨cells₁⟩ ⟨cells₂⟩ h₁ h₂ h
  exact congrArg Memory.mk (cells_ext h₁ h₂ fun a ha => h (BitVec.ofNatLT a ha))

end Sys2Proof.Machine
end

section
/-! SUPPORT. Addresses of a memory operand as numbers, what the bytes of an operand give and when they fault (20_memory.md
R31 to R42), and the effect of a form that completes (40_rotate_common.md R80 to R90). -/

namespace Sys2Proof.Machine

/-! ## Canonical addresses (20_memory.md R39) -/

/-- A word is below `2^m` when its bits from `m` upward are 0. -/
theorem toNat_lt_two_pow_iff {w : Nat} (a : BitVec w) (m : Nat) :
    a.toNat < 2 ^ m ↔ ∀ j, m ≤ j → j < w → a.getLsbD j = false := by
  constructor
  · intro h j hj _
    exact Nat.testBit_lt_two_pow (h.trans_le (Nat.pow_le_pow_right (by decide) hj))
  · intro h
    refine Nat.lt_pow_two_of_testBit _ fun j hj => ?_
    by_cases hw : j < w
    · exact h j hj hw
    · exact BitVec.getLsbD_of_ge a j (Nat.not_lt.mp hw)

/-- A word is at most `2^m` below the wrap when its bits from `m` upward are 1: its complement is below `2^m`. -/
theorem two_pow_sub_le_toNat_iff {w : Nat} (a : BitVec w) {m : Nat} (hm : m ≤ w) :
    2 ^ w - 2 ^ m ≤ a.toNat ↔ ∀ j, m ≤ j → j < w → a.getLsbD j = true := by
  have hlt : 2 ^ w - 2 ^ m ≤ a.toNat ↔ (~~~a).toNat < 2 ^ m := by
    have ha := a.isLt
    have hle : 2 ^ m ≤ 2 ^ w := Nat.pow_le_pow_right (by decide) hm
    rw [BitVec.toNat_not]
    omega
  rw [hlt, toNat_lt_two_pow_iff]
  refine forall₃_congr fun j _ hj => ?_
  simp [hj]

/-- Canonical means that the bits from `n - 1` upward are all 0 or all 1, that is, all equal to the top one. -/
theorem canonical_iff {n : Nat} (hn : n - 1 < 64) (a : Word64) :
    canonical n a = true ↔ ∀ j, n - 1 ≤ j → j < 64 → a.getLsbD j = a.getLsbD 63 := by
  rw [canonical, decide_eq_true_eq, toNat_lt_two_pow_iff, two_pow_sub_le_toNat_iff a hn.le]
  constructor
  · rintro (h | h) j hj hj' <;> rw [h j hj hj', h 63 (by omega) (by decide)]
  · intro h
    cases htop : a.getLsbD 63 with
    | false => exact .inl fun j hj hj' => (h j hj hj').trans htop
    | true => exact .inr fun j hj hj' => (h j hj hj').trans htop

theorem laBits_cases (s : State) : s.laBits = 57 ∨ s.laBits = 48 := by
  unfold State.laBits
  split <;> simp

/-! ## The segment of an operand (20_memory.md R39, log 15) -/

/-- Among overrides, one of them counts. -/
theorem chooseOverride_mem (dflt : SegReg) {os : List SegReg} (h : os ≠ []) : chooseOverride dflt os ∈ os := by
  cases os with
  | nil => exact absurd rfl h
  | cons o os =>
    rw [chooseOverride]
    split
    · exact List.mem_cons_self
    · have hlt : Config.overrideChoice ((o :: os).map SegReg.toByte) % (os.length + 1) < (o :: os).length :=
        Nat.mod_lt _ (Nat.succ_pos _)
      rw [List.getElem?_eq_getElem hlt]
      exact List.getElem_mem hlt

/-- Where only one segment is named, it counts. -/
theorem chooseOverride_of_only {dflt o : SegReg} {os : List SegReg} (ho : o ∈ os) (h : ∀ q ∈ os, q = o) :
    chooseOverride dflt os = o :=
  h _ (chooseOverride_mem dflt (List.ne_nil_of_mem ho))

theorem operandSegment_of_long {s : State} (h : s.long = true) (overrides : List SegReg) (m : MemOp) :
    s.operandSegment overrides m =
      chooseOverride (defaultSegment m) (overrides.filter fun o => o == .fs || o == .gs) := by
  rw [State.operandSegment, if_pos h]

theorem operandSegment_of_not_long {s : State} (h : s.long = false) (overrides : List SegReg) (m : MemOp) :
    s.operandSegment overrides m = chooseOverride (defaultSegment m) overrides := by
  simp [State.operandSegment, h]

theorem defaultSegment_ne_fs_gs (m : MemOp) : defaultSegment m ≠ .fs ∧ defaultSegment m ≠ .gs := by
  unfold defaultSegment
  split <;> decide

/-! ## The linear address (20_memory.md R39) -/

/-- In 64-bit mode FS and GS add their base (10_state.md R15). -/
theorem linear_of_long_fs_gs {s : State} (h : s.long = true) {r : MemRef} (hr : r.seg = .fs ∨ r.seg = .gs) :
    s.linear r = (s.segment r.seg).base + r.ea := by
  rw [State.linear, truncAddr_of_long h, State.segmentBase]
  rcases hr with hr | hr <;> simp [hr]

/-- In 64-bit mode the other segments add nothing (10_state.md R15). -/
theorem linear_of_long_flat {s : State} (h : s.long = true) {r : MemRef} (hr : r.seg ≠ .fs ∧ r.seg ≠ .gs) :
    s.linear r = r.ea := by
  rw [State.linear, truncAddr_of_long h, State.segmentBase]
  simp [h, hr]

/-- In 32-bit modes every segment adds its base, modulo 2^32. -/
theorem linear_toNat_of_not_long {s : State} (h : s.long = false) (r : MemRef) :
    (s.linear r).toNat = ((s.segment r.seg).base.toNat + r.ea.toNat) % 2 ^ 32 := by
  rw [State.linear, truncAddr_toNat_of_not_long h, State.segmentBase, h, BitVec.toNat_add]
  simp only [Bool.false_and, Bool.false_eq_true, if_false]
  omega

/-- Byte `i` stands `i` above the linear address, wrapping at the width of addresses (log 22). -/
theorem byteAddr_toNat (s : State) (r : MemRef) (i : Nat) :
    (s.byteAddr r i).toNat = ((s.linear r).toNat + i) % (if s.long then 2 ^ 64 else 2 ^ 32) := by
  rw [State.byteAddr, truncAddr_toNat, BitVec.toNat_add, BitVec.toNat_ofNat]
  split <;> omega

/-! ## The effective address as an integer (20_memory.md R38) -/

/-- The sum that R38 takes of the parts of a memory operand, before it is cut to the width of addresses. -/
def addressSum (s : State) (len : Nat) (n : Int) : MemOp → Int
  | .ripRel d => s.rip.toNat + len + d.toInt
  | .abs32 d => d.toInt
  | .base b d => (s.readX b).toNat + displacement n d
  | .sib ss idx bs d =>
    bs.elim (0 : Int) (fun b => (s.readX b).toNat) + idx.elim (0 : Int) (fun i => (s.readX i).toNat * 2 ^ ss.toNat) +
      displacement n d

/-- An integer put into 64 bits and cut to the width of addresses. -/
theorem truncAddr_ofInt_toNat (s : State) (z : Int) :
    ((s.truncAddr (BitVec.ofInt 64 z)).toNat : Int) = z % (if s.long then 2 ^ 64 else 2 ^ 32) := by
  rw [truncAddr_toNat, BitVec.toNat_ofInt]
  split <;> omega

theorem ofInt_toNat {w : Nat} (a : BitVec w) : BitVec.ofInt w a.toNat = a := by
  rw [BitVec.ofInt_natCast, BitVec.ofNat_toNat, BitVec.setWidth_eq]

/-- The signed reading of a word is congruent to the unsigned one. -/
theorem toInt_emod_two_pow {w : Nat} (a : BitVec w) : a.toInt % ((2 ^ w : Nat) : Int) = a.toNat := by
  rw [BitVec.toInt_eq_toNat_bmod, Int.bmod_emod]
  exact Int.emod_eq_of_lt (Int.natCast_nonneg _) (Int.ofNat_lt.mpr a.isLt)

theorem dispValue_eq_ofInt (n : Nat) (d : Disp) : dispValue n d = BitVec.ofInt 64 (displacement n d) := by
  cases d with
  | absent => rfl
  | d8 v => rw [displacement, BitVec.ofInt_mul, BitVec.ofInt_natCast]; rfl
  | d32 v => rfl

/-- An index scaled by a shift is the index times the scale. -/
theorem shiftLeft_eq_ofInt (a : Word64) (k : Nat) : a <<< k = BitVec.ofInt 64 (a.toNat * 2 ^ k) := by
  have hshift : a <<< k = BitVec.ofNat 64 (a.toNat * 2 ^ k) := by
    rw [← Nat.shiftLeft_eq]
    exact BitVec.eq_of_toNat_eq rfl
  rw [hshift, ← BitVec.ofInt_natCast, Int.natCast_mul, Int.natCast_pow]
  rfl

/-- The effective address is the sum of its parts modulo the width of addresses, whatever wraps on the way. -/
theorem effectiveAddress_toNat (s : State) (len n : Nat) (m : MemOp) :
    ((s.effectiveAddress len n m).toNat : Int) = addressSum s len n m % (if s.long then 2 ^ 64 else 2 ^ 32) := by
  rw [← truncAddr_ofInt_toNat]
  refine congrArg (fun a => ((s.truncAddr a).toNat : Int)) ?_
  cases m with
  | ripRel d => rw [addressSum, BitVec.ofInt_add, BitVec.ofInt_add, ofInt_toNat, BitVec.ofInt_natCast]; rfl
  | abs32 d => rfl
  | base b d => simp only [addressSum, BitVec.ofInt_add, ofInt_toNat, dispValue_eq_ofInt]
  | sib ss idx bs d =>
    rw [addressSum, BitVec.ofInt_add, BitVec.ofInt_add, ← dispValue_eq_ofInt]
    refine congrArg₂ (fun b i => b + i + dispValue n d) ?_ ?_
    · cases bs with
      | none => rfl
      | some b => exact (ofInt_toNat _).symm
    · cases idx with
      | none => rfl
      | some x => exact shiftLeft_eq_ofInt _ _

/-- The bytes an operand takes are N of the table of 30_encoding.md R64. -/
theorem operandBytes_eq_factorByTable (bcst : Bool) (w : ElemWidth) (vl : VLen) :
    (operandBytes w vl bcst : Int) = factorByTable bcst w vl := by
  cases bcst <;> cases w <;> cases vl <;> rfl

/-- The effective address of a form's memory operand, with N by the table of 30_encoding.md R64. -/
theorem memRef_ea_toNat (s : State) (w : ElemWidth) (vl : VLen) (len : Nat) (e : Evex) (bcst : Bool) (m : MemOp) :
    ((s.memRef w vl len e bcst m).ea.toNat : Int) =
      addressSum s len (factorByTable bcst w vl) m % (if s.long then 2 ^ 64 else 2 ^ 32) := by
  rw [← operandBytes_eq_factorByTable]
  exact effectiveAddress_toNat s len _ m

/-! ## The bytes of an operand (20_memory.md R31 to R34) -/

/-- The operand is little-endian: bit `p` is bit `p % 8` of byte `p / 8`. -/
theorem getLsbD_readBytes (s : State) {r : MemRef} {p : Nat} (hp : p < r.size * 8) (h512 : p < 512) :
    (s.readBytes r).getLsbD p = (s.mem.read (s.byteAddr r (p / 8))).getLsbD (p % 8) := by
  rw [State.readBytes, getLsbD_packElems, decide_eq_true hp, decide_eq_true h512]
  rfl

/-- A broadcast operand repeats the one element that is read (20_memory.md R32). -/
theorem getLsbD_memVector_broadcast (s : State) (w : ElemWidth) {vl : VLen} (r : MemRef) {p : Nat} (hp : p < vl.bits) :
    (s.memVector w vl true r).getLsbD p = (s.readBytes r).getLsbD (p % w.bits) := by
  rw [State.memVector, if_pos rfl, getLsbD_packElems, numElems_mul, decide_eq_true hp,
    decide_eq_true (hp.trans_le (vlen_le vl)), getLsbD_elem, decide_eq_true (Nat.mod_lt p (bits_pos w)), Nat.zero_mul,
    Nat.zero_add]
  rfl

theorem operandBytes_mul (w : ElemWidth) (vl : VLen) (bcst : Bool) :
    operandBytes w vl bcst * 8 = if bcst then w.bits else vl.bits := by
  cases bcst <;> cases w <;> cases vl <;> rfl

/-! ## What a byte contributes to the fault of the read (R125 to R130) -/

/-- Why a byte can fault, without the fault it raises. -/
theorem State.ByteFault.cause {s : State} {r : MemRef} {j : Nat} {f : Fault} (h : s.ByteFault r j f) :
    s.addressOk r j = false ∨ ∃ c, s.translate .read (s.byteAddr r j) = .pageFault c := by
  rcases h with ⟨hbad, -⟩ | ⟨c, hc, -⟩
  · exact .inl hbad
  · exact .inr ⟨c, hc⟩

/-- A fault of the read is that of one of the bytes, or #AC(0) for a misaligned operand under alignment checking. -/
theorem bytesFault_byteFault {s : State} {r : MemRef} {offs : List Nat} {f : Fault} (h : s.bytesFault r offs = some f) :
    (∃ j ∈ offs, s.ByteFault r j f) ∨
      (f = .ac ∧ s.alignmentChecking = true ∧ ¬ (r.size ∣ (s.linear r).toNat)) := by
  rcases bytesFault_cases h with ⟨hf, j, hj, hbad⟩ | ⟨-, hf, hal⟩ | ⟨-, j, hj, c, hc, hf⟩
  · exact .inl ⟨j, hj, .inl ⟨hbad, hf⟩⟩
  · simp only [State.alignmentFaults, Bool.and_eq_true, bne_iff_ne] at hal
    obtain ⟨⟨hcheck, hmod⟩, -⟩ := hal
    exact .inr ⟨hf, hcheck, fun hdvd => hmod (Nat.mod_eq_zero_of_dvd hdvd)⟩
  · exact .inl ⟨j, hj, .inr ⟨c, hc, hf⟩⟩

/-- A bad address comes before every other fault of the read (60_exceptions.md R130). -/
theorem bytesFault_of_bad_address {s : State} {r : MemRef} {offs : List Nat} {k : Nat} {f : Fault} (hk : k ∈ offs)
    (h : s.bytesFault r offs = some f) (hbad : s.addressOk r k = false) : f = segmentFault r.seg := by
  rcases bytesFault_cases h with ⟨hf, -⟩ | ⟨hok, -⟩ | ⟨hok, -⟩
  · exact hf
  · rw [hok k hk] at hbad; cases hbad
  · rw [hok k hk] at hbad; cases hbad

/-- Without alignment checking a fault of the memory read is that of a byte of the operand. -/
theorem memFault_byteFault {s : State} {r : MemRef} {act : Nat → Bool} {f : Fault}
    (hac : s.alignmentChecking = false) (h : s.memFault r act = some f) : ∃ j < r.size, s.ByteFault r j f := by
  obtain ⟨offs, hoffs, hf⟩ := memFault_some h
  rcases bytesFault_byteFault hf with ⟨j, hj, hbf⟩ | ⟨-, hcheck, -⟩
  · exact ⟨j, hoffs j hj, hbf⟩
  · rw [hac] at hcheck; cases hcheck

/-- A byte with a good address that `Translate` does not refuse cannot fault. -/
theorem not_byteFault {s : State} {r : MemRef} {j : Nat} (hok : s.addressOk r j = true)
    (hpf : ∀ c, s.translate .read (s.byteAddr r j) ≠ .pageFault c) (f : Fault) : ¬ s.ByteFault r j f := by
  intro h
  rcases h.cause with hbad | ⟨c, hc⟩
  · rw [hok] at hbad; cases hbad
  · exact hpf c hc

/-- An operand is refused as a device's when a byte of it at a good address lies in one (20_memory.md R37, log 23). -/
theorem touchesDevice_iff (s : State) (r : MemRef) :
    s.touchesDevice r = true ↔
      ∃ j < r.size, s.addressOk r j = true ∧ s.translate .read (s.byteAddr r j) = .device := by
  simp [State.touchesDevice]

/-! ## Completion, bit by bit -/

/-- Bit `p` of element `j` of the new value (40_rotate_common.md R80, R81, R84, R85). -/
theorem getLsbD_rotateVector {w : ElemWidth} {vl : VLen} (src : Vec) (count : Nat → Nat) (active : Nat → Bool)
    (z : Bool) (old : Vec) {j p : Nat} (hj : j < numElems w vl) (hp : p < w.bits) :
    (rotateVector w vl src count active z old).getLsbD (j * w.bits + p) =
      if active j then src.getLsbD (j * w.bits + (p + count j) % w.bits)
      else if z then false else old.getLsbD (j * w.bits + p) := by
  have helem := getLsbD_elem w.bits (rotateVector w vl src count active z old) j p
  rw [elem_rotateVector _ _ _ _ _ hj, decide_eq_true hp, Bool.true_and] at helem
  rw [← helem, newElem]
  have hmod : (p + count j) % w.bits < w.bits := Nat.mod_lt _ (bits_pos w)
  split
  · rw [getLsbD_ror, decide_eq_true hp, Bool.true_and, getLsbD_elem, decide_eq_true hmod, Bool.true_and]
  · split
    · exact BitVec.getLsbD_zero
    · rw [getLsbD_elem, decide_eq_true hp, Bool.true_and]

/-- Completion changes the destination, the program counter, the mark of R24 and the model's counter of reads. -/
theorem completed_eq (f : Fields) (s : State) :
    completed f s = { s with
      zmm := (completed f s).zmm
      rip := (completed f s).rip
      avx512InUse := true
      choices := if isMem f.rm then s.choices + 1 else s.choices } := by
  unfold completed State.complete State.countRead
  cases isMem f.rm <;> rfl

/-- A form that completes has the effect of R84 to R86 and R90. -/
theorem completed_rotateEffect (f : Fields) (s : State) : RotateEffect f s (completed f s) := by
  refine ⟨fun j p hj hp => ?_, fun p hp => ?_, fun n hn => readZmm_completed_ne hn, completed_rip f s,
    completed_eq f s⟩
  · rw [readZmm_completed_self]
    exact getLsbD_rotateVector _ _ _ _ _ hj hp
  · rw [readZmm_completed_self]
    exact getLsbD_rotateVector_of_ge _ _ _ _ _ hp

end Sys2Proof.Machine
end

section
/-! PROOFS. Memory operands (20_memory.md): their addresses and bytes, and the faults and refusals of the read. -/

namespace Sys2Proof.Machine

/-! ## Addresses and bytes (R31 to R39) -/

/-- Settles O21: the vector read is packed from bytes, the broadcast one from copies of the element read. -/
theorem memoryOperandBits : Obligations.MemoryOperandBits := by
  refine fun s => ⟨byteAddr_toNat s, fun w vl len e m p hp => ⟨?_, ?_⟩⟩
  · exact getLsbD_readBytes s (by simpa [State.memRef, operandBytes_mul] using hp) (hp.trans_le (vlen_le vl))
  · have hmod : p % w.bits < w.bits := Nat.mod_lt p (bits_pos w)
    have h8 : 8 ∣ w.bits := by cases w <;> decide
    have h512 : w.bits ≤ 512 := by cases w <;> decide
    rw [State.operandVector, getLsbD_memVector_broadcast s w _ hp,
      getLsbD_readBytes s (by simpa [State.memRef, operandBytes_mul] using hmod) (hmod.trans_le h512),
      Nat.mod_mod_of_dvd p h8]

/-- Settles O22: the sum of R38, read off for each form. -/
theorem effectiveAddressModuloAddressSize : Obligations.EffectiveAddressModuloAddressSize := by
  rintro s w vl len e bcst _ rfl
  have hea (m : MemOp) := memRef_ea_toNat s w vl len e bcst m
  refine ⟨fun _ d => hea _, fun hlong d => ?_, fun b d => hea _, fun ss i b d => hea _, fun ss b d => ?_,
    fun ss i d => ?_, fun ss d => ?_⟩
  · have habs := hea (.abs32 d)
    rw [hlong] at habs
    exact Int.ofNat_inj.mp (habs.trans (toInt_emod_two_pow d))
  · simpa [addressSum] using hea (.sib ss none (some b) d)
  · simpa [addressSum] using hea (.sib ss (some i) none d)
  · simpa [addressSum] using hea (.sib ss none none d)

/-- Settles O23: the overrides that count in 64-bit mode are those of FS and GS. -/
theorem linearAddressIn64BitMode : Obligations.LinearAddressIn64BitMode := by
  intro s overrides m ea n hlong
  refine ⟨fun o ho hmem honly => ⟨?_, linear_of_long_fs_gs hlong ho⟩, fun hnone => ?_⟩
  · rw [operandSegment_of_long hlong]
    refine chooseOverride_of_only (by simpa [hmem] using ho) fun q hq => ?_
    rw [List.mem_filter] at hq
    exact honly q hq.1 (by simpa using hq.2)
  · have hfilter : overrides.filter (fun o => o == .fs || o == .gs) = [] :=
      List.filter_eq_nil_iff.mpr fun q hq => by simp [hnone q hq]
    have hseg : s.operandSegment overrides m = defaultSegment m := by
      rw [operandSegment_of_long hlong, hfilter]; rfl
    exact ⟨hseg, linear_of_long_flat hlong (by simpa [hseg] using defaultSegment_ne_fs_gs m)⟩

/-- Settles O24: all overrides count in 32-bit modes. -/
theorem linearAddressIn32BitModes : Obligations.LinearAddressIn32BitModes := by
  rintro s w vl len e bcst m _ hlong rfl
  have hseg : (s.memRef w vl len e bcst m).seg = chooseOverride (defaultSegment m) e.overrides :=
    operandSegment_of_not_long hlong _ m
  refine ⟨linear_toNat_of_not_long hlong _, fun hnil => ?_, fun o ho honly => ?_, fun hne => ?_⟩
  · rw [hseg, hnil]; rfl
  · rw [hseg]; exact chooseOverride_of_only ho honly
  · rw [hseg]; exact chooseOverride_mem _ hne

/-- Settles O25: `LA_BITS` is 57 or 48. -/
theorem canonicalMeansEqualUpperBits : Obligations.CanonicalMeansEqualUpperBits := by
  intro s a
  refine canonical_iff ?_ a
  rcases laBits_cases s with h | h <;> rw [h] <;> decide

/-! ## Faults and refusals of the read (R37, R42) -/

/-- Settles O38: a fault that is reported is that of a byte that cannot be read, which is masked off; where it is
suppressed, nothing else stops the form. -/
theorem maskedOffFaultIsOpen : Obligations.MaskedOffFaultIsOpen := by
  intro i s bcst m r hrm hr hen haddr hac hneeded hdev
  have hx := exec_of_mem hrm hr hen haddr
  cases hf : s.memFault r (s.byteActive i.fields.w i.fields.vl i.fields.e bcst) with
  | some f =>
    rw [hf] at hx
    obtain ⟨j, hj, hbf⟩ := memFault_byteFault hac hf
    refine .inl ⟨f, j, hx, hj, ?_, hbf⟩
    rw [Bool.eq_false_iff]
    intro hact
    obtain ⟨hok, hadm⟩ := hneeded j hj hact
    exact not_byteFault hok (fun c => by rw [hadm]; exact Translation.noConfusion) f hbf
  | none =>
    have hno : s.touchesDevice r = false := by
      rw [Bool.eq_false_iff, ne_eq, touchesDevice_iff]
      rintro ⟨j, hj, -, hd⟩
      exact hdev j hj hd
    rw [hf, hno] at hx
    exact .inr ⟨_, hx, completed_rotateEffect _ _⟩

/-- Settles O39: whatever is suppressed, the byte is among those whose faults are reported. -/
theorem unmaskedFaultIsReported : Obligations.UnmaskedFaultIsReported := by
  intro i s bcst m r k g hrm hr hen haddr hk hact hg
  obtain ⟨offs, hkoffs, hoffs, hmem⟩ := memFault_of_needed hk hact
  obtain ⟨f, hf⟩ := bytesFault_ne_none hkoffs hg.cause
  have hx := exec_of_mem hrm hr hen haddr
  rw [hmem, hf] at hx
  refine ⟨f, hx, bytesFault_of_bad_address hkoffs hf, ?_⟩
  rcases bytesFault_byteFault hf with ⟨j, hj, hbf⟩ | hac
  · exact .inl ⟨j, hoffs j hj, hbf⟩
  · exact .inr hac

/-- Settles O40: no byte of the operand faults, and one in a device is enough. -/
theorem deviceOperandIsRefused : Obligations.DeviceOperandIsRefused := by
  intro i s bcst m r k hrm hr hen haddr hac hbytes hk hdev
  have hx := exec_of_mem hrm hr hen haddr
  have htouch : s.touchesDevice r = true := (touchesDevice_iff s r).mpr ⟨k, hk, (hbytes k hk).1, hdev⟩
  cases hf : s.memFault r (s.byteActive i.fields.w i.fields.vl i.fields.e bcst) with
  | some f =>
    obtain ⟨j, hj, hbf⟩ := memFault_byteFault hac hf
    exact absurd hbf (not_byteFault (hbytes j hj).1 (hbytes j hj).2 f)
  | none => rwa [hf, htouch] at hx

end Sys2Proof.Machine
end

section
/-! PROOFS. The encoding round trip (30_encoding.md R50 to R75): the decoder's checks and its assembly, read off the
bytes of an encoding and off bytes that were accepted. -/

namespace Sys2Proof

/-! ## The checks of a form -/

/-- The checks accept a form that meets all of them (30_encoding.md R70, R71, R74); the converse of `checkForm_ok`. -/
theorem checkForm_of_valid {cs : CodeSize} {legacy : List Byte} {p0 p1 p2 modrm : Byte} {vl : VLen}
    (hlegacy : legacy.any (isForbiddenLegacy cs) = false) (hp0 : p0.getLsbD 3 = false) (hp1 : p1.getLsbD 2 = true)
    (hvl : vlenOf p2 = some vl) (hz : (p2.getLsbD 7 && field3 p2 0 == 0#3) = false)
    (hb : (field2 modrm == 3#2 && p2.getLsbD 4) = false) (hv : cs ≠ .bits64 → p2.getLsbD 3 = true) :
    checkForm cs legacy p0 p1 p2 modrm = .ok vl := by
  have hv : (cs != .bits64 && !p2.getLsbD 3) = false := by
    by_cases hcs : cs = .bits64
    · simp [hcs]
    · simp [hv hcs]
  unfold checkForm
  rw [hlegacy, hp0, hp1, hvl]
  simp only [hz, hb, hv]
  rfl

/-- A form whose length and checks pass, and whose ignored bits are stored as the strict reading wants them, is the
instruction assembled from its bytes. -/
theorem decodeForm_of_ok {strict : Bool} {cs : CodeSize} {legacy : List Byte} {opA : Bool} {p0 p1 p2 modrm : Byte}
    {t : Tail} {vl : VLen} (hlen : legacy.length + 6 + t.len ≤ 15)
    (hcheck : checkForm cs legacy p0 p1 p2 modrm = .ok vl)
    (hign : ignoredBitStored cs opA p0 p1 modrm t = false) :
    decodeForm strict cs legacy opA p0 p1 p2 modrm t =
      .instr (assemble cs opA vl (legacy.filterMap SegReg.ofByte) p0 p1 p2 modrm t).toInstr := by
  simp only [decodeForm, if_neg (Nat.not_lt.mpr hlen), hcheck, hign, Bool.and_false]
  rfl

/-! ## Well-formed parts -/

/-- What well-formed parts are, named. -/
theorem Fields.wf_iff {cs : CodeSize} {f : Fields} :
    f.wf cs = true ↔ f.e.wf = true ∧ VReg.valid cs f.dst = true ∧ f.rm.wf cs = true ∧ f.op.wf cs = true ∧
      f.len ≤ 15 := by
  simp [Fields.wf, and_assoc]

/-- The slots `R':R:reg` and `V':vvvv` hold registers that exist. -/
theorem Fields.valid_slots {cs : CodeSize} {f : Fields} (h : f.wf cs = true) :
    VReg.valid cs f.regSlot = true ∧ VReg.valid cs f.vvvvSlot = true := by
  obtain ⟨-, hdst, -, hop, -⟩ := Fields.wf_iff.mp h
  have hzero : VReg.valid cs 0#5 = true := by cases cs <;> decide
  obtain ⟨w, vl, e, dst, rm, op⟩ := f
  cases op with
  | a imm => exact ⟨hzero, hdst⟩
  | b src1 => exact ⟨hdst, hop⟩

/-- In 32-bit modes only vector registers 0 to 7 exist (30_encoding.md R74). -/
theorem VReg.valid_iff_of_ne {cs : CodeSize} (hcs : cs ≠ .bits64) (r : VReg) :
    VReg.valid cs r = true ↔ r.getLsbD 4 = false ∧ r.getLsbD 3 = false := by
  have hcs : (cs == .bits64) = false := by simpa using hcs
  simp [VReg.valid, hcs]

/-- Zeroing needs a writemask (30_encoding.md R66, R71), as the decoder tests it. -/
theorem Evex.wf_iff {e : Evex} : e.wf = true ↔ (e.z && e.aaa == 0#3) = false := by
  simp [Evex.wf, imp_iff_not_or]

/-- What the decoder reads from the byte P2 of an encoding (30_encoding.md R55). -/
theorem p2_of_fields (f : Fields) :
    vlenOf f.p2 = some f.vl ∧ f.p2.getLsbD 7 = f.e.z ∧ f.p2.getLsbD 4 = f.rm.encoding.bcst ∧
      f.p2.getLsbD 3 = (!f.vvvvSlot.getLsbD 4) ∧ field3 f.p2 0 = f.e.aaa := by
  refine ⟨vlenOf_byteOf f.vl _ _ _ _ _ _, ?_⟩
  simp [Fields.p2]

/-- The checks accept the bytes of well-formed parts. -/
theorem checkForm_encode {cs : CodeSize} {legacy : List Byte} {f : Fields} (h : f.wf cs = true)
    (hlegacy : legacy.any (isForbiddenLegacy cs) = false) :
    checkForm cs legacy f.p0 f.p1 f.p2 f.modrm = .ok f.vl := by
  obtain ⟨he, -, -, -, -⟩ := Fields.wf_iff.mp h
  obtain ⟨hvl, hz, hb, hv, haaa⟩ := p2_of_fields f
  refine checkForm_of_valid hlegacy (by simp [Fields.p0]) (by simp [Fields.p1]) hvl ?_ ?_ fun hcs => ?_
  · rw [hz, haaa]; exact Evex.wf_iff.mp he
  · rw [field2_modrm, hb]; exact bcst_of_reg f.rm
  · rw [hv, ((VReg.valid_iff_of_ne hcs _).mp (Fields.valid_slots h).2).1]; rfl

/-- No ignored bit is stored as 0 (30_encoding.md R73, R74). -/
theorem ignoredBitStored_eq_false_iff {cs : CodeSize} {opA : Bool} {p0 p1 modrm : Byte} {t : Tail} :
    ignoredBitStored cs opA p0 p1 modrm t = false ↔
      (opA = true → p0.getLsbD 7 = true ∧ p0.getLsbD 4 = true) ∧
      (field2 modrm ≠ 3#2 → field3 modrm 0 ≠ 4#3 → p0.getLsbD 6 = true) ∧
      (field2 modrm = 0#2 → (field3 modrm 0 = 5#3 ∨ (field3 modrm 0 = 4#3 ∧ field3 t.sib 0 = 5#3)) →
        p0.getLsbD 5 = true) ∧
      (cs ≠ .bits64 → p0.getLsbD 5 = true ∧ p0.getLsbD 4 = true ∧ p1.getLsbD 6 = true) := by
  simp only [ignoredBitStored, Bool.or_eq_false_iff, Bool.and_eq_false_imp, Bool.and_eq_true, Bool.or_eq_true,
    bne_iff_ne, beq_iff_eq, Bool.not_eq_false', and_imp, and_assoc]

/-- In 64-bit mode every register number has its own bits; in 32-bit modes B, R' and the top bit of vvvv, which the
decoder does not look at there, are 0 in well-formed parts (30_encoding.md R74). -/
theorem topBits_of_wf {cs : CodeSize} {f : Fields} (h : f.wf cs = true) (hcs : cs ≠ .bits64) :
    f.rm.encoding.b = false ∧ f.regSlot.getLsbD 4 = false ∧ f.vvvvSlot.getLsbD 3 = false := by
  obtain ⟨-, -, hrm, -, -⟩ := Fields.wf_iff.mp h
  obtain ⟨hreg, hvvvv⟩ := Fields.valid_slots h
  exact ⟨(x_of_wf32 hcs hrm).2, ((VReg.valid_iff_of_ne hcs _).mp hreg).1, ((VReg.valid_iff_of_ne hcs _).mp hvvvv).2⟩

/-- What the decoder reads from the byte P0 of an encoding (30_encoding.md R53). -/
theorem p0_of_fields (f : Fields) :
    f.p0.getLsbD 7 = (!f.regSlot.getLsbD 3) ∧ f.p0.getLsbD 6 = (!f.rm.encoding.x) ∧
      f.p0.getLsbD 5 = (!f.rm.encoding.b) ∧ f.p0.getLsbD 4 = (!f.regSlot.getLsbD 4) := by
  simp [Fields.p0]

/-- What the decoder reads from the byte P1 of an encoding (30_encoding.md R54). -/
theorem p1_of_fields (f : Fields) :
    f.p1.getLsbD 7 = (f.w == .qword) ∧ f.p1.getLsbD 6 = (!f.vvvvSlot.getLsbD 3) ∧
      f.p1.getLsbD 5 = (!f.vvvvSlot.getLsbD 2) ∧ f.p1.getLsbD 4 = (!f.vvvvSlot.getLsbD 1) ∧
      f.p1.getLsbD 3 = (!f.vvvvSlot.getLsbD 0) := by
  simp [Fields.p1]

/-- What the decoder reads from ModRM.reg of an encoding (30_encoding.md R58). -/
theorem modrm_of_fields (f : Fields) :
    f.modrm.getLsbD 5 = f.regSlot.getLsbD 2 ∧ f.modrm.getLsbD 4 = f.regSlot.getLsbD 1 ∧
      f.modrm.getLsbD 3 = f.regSlot.getLsbD 0 := by
  simp [Fields.modrm]

/-- Op/En A holds the `/0` of its opcode in `R':R:ModRM.reg` (30_encoding.md R57, R59). -/
theorem Fields.regSlot_of_isA {f : Fields} (h : f.op.isA = true) : f.regSlot = 0#5 := by
  obtain ⟨w, vl, e, dst, rm, op⟩ := f
  cases op with
  | a imm => rfl
  | b src1 => cases h

/-- The encoder stores every ignored bit as 1 (30_encoding.md R73, R74). -/
theorem ignoredBitStored_encode {cs : CodeSize} {f : Fields} {t : Tail} (h : f.wf cs = true)
    (ht : TailOf cs f.rm f.op t) :
    ignoredBitStored cs f.op.isA f.p0 f.p1 f.modrm t = false := by
  obtain ⟨h7, h6, h5, h4⟩ := p0_of_fields f
  obtain ⟨-, hv, -⟩ := p1_of_fields f
  rw [ignoredBitStored_eq_false_iff, field2_modrm, field3_modrm, h7, h6, h5, h4, hv]
  refine ⟨fun hA => ?_, fun hmd hrm => ?_, fun hmd hrm => ?_, fun hcs => ?_⟩
  · rw [Fields.regSlot_of_isA hA]; decide
  · rw [ht.noX hmd hrm]; rfl
  · rw [ht.noB hmd hrm]; rfl
  · obtain ⟨hb, hr, hvvvv⟩ := topBits_of_wf h hcs
    rw [hb, hr, hvvvv]; decide

theorem bits5_getLsbD (r : BitVec 5) :
    bits5 (r.getLsbD 4) (r.getLsbD 3) (r.getLsbD 2) (r.getLsbD 1) (r.getLsbD 0) = r := by
  simp

/-- A bit that the decoder reads only in 64-bit mode, and that is 0 in well-formed parts elsewhere. -/
theorem long_and_eq {cs : CodeSize} {b : Bool} (h : cs ≠ .bits64 → b = false) : ((cs == .bits64) && b) = b := by
  by_cases hcs : cs = .bits64
  · simp [hcs]
  · simp [h hcs]

/-- The bytes of well-formed parts are assembled back into those parts (30_encoding.md R53 to R61). -/
theorem assemble_encode {cs : CodeSize} {f : Fields} {t : Tail} (h : f.wf cs = true) (ht : TailOf cs f.rm f.op t) :
    assemble cs f.op.isA f.vl f.e.overrides f.p0 f.p1 f.p2 f.modrm t = f := by
  obtain ⟨h7, h6, h5, h4⟩ := p0_of_fields f
  obtain ⟨hw, hv3, hv2, hv1, hv0⟩ := p1_of_fields f
  obtain ⟨-, hz, hbc, hv4, haaa⟩ := p2_of_fields f
  obtain ⟨hr2, hr1, hr0⟩ := modrm_of_fields f
  have hb := long_and_eq fun hcs => (topBits_of_wf h hcs).1
  have hr4 := long_and_eq fun hcs => (topBits_of_wf h hcs).2.1
  have hv3' := long_and_eq fun hcs => (topBits_of_wf h hcs).2.2
  unfold assemble
  simp only [h7, h6, h5, h4, hw, hv3, hv2, hv1, hv0, hz, hbc, hv4, haaa, hr2, hr1, hr0, Bool.not_not, hb, hr4, hv3',
    bits5_getLsbD, field2_modrm, field3_modrm, ht.operand, ht.imm]
  obtain ⟨w, vl, e, dst, rm, op⟩ := f
  cases op <;> cases w <;> rfl

/-- The bytes of well-formed parts pass the decoder's checks and give the parts back, under either reading. -/
theorem decodeForm_encode (strict : Bool) {cs : CodeSize} {f : Fields} {t : Tail} (h : f.wf cs = true)
    (ht : TailOf cs f.rm f.op t) :
    decodeForm strict cs (f.e.overrides.map SegReg.toByte) f.op.isA f.p0 f.p1 f.p2 f.modrm t = .instr f.toInstr := by
  have hlen : f.len ≤ 15 := (Fields.wf_iff.mp h).2.2.2.2
  rw [decodeForm_of_ok _ (checkForm_encode h (any_forbidden_overrides cs _)) (ignoredBitStored_encode h ht),
    filterMap_toByte, assemble_encode h ht]
  rw [ht.len, List.length_map]
  unfold Fields.len at hlen
  omega

/-- Settles O2: the decoder comes to its checks with the parts encoded, which pass them and are put together again. -/
theorem decodeOfEncodeIsInstruction : Obligations.DecodeOfEncodeIsInstruction := by
  intro strict cs i rest hwf
  obtain ⟨t, ht, hdecode⟩ := decode_legacy_encode strict (legacy := i.fields.e.overrides.map SegReg.toByte) (by simp)
    (by simp) hwf (by simp) rest
  rw [encode_append, hdecode, decodeForm_encode strict hwf ht, toInstr_fields]

/-! ## The encoding of what was accepted -/

/-- A byte put together from the bits of `b` is `b`. -/
theorem byteOf_eq {b : Byte} {b7 b6 b5 b4 b3 b2 b1 b0 : Bool} (h7 : b.getLsbD 7 = b7) (h6 : b.getLsbD 6 = b6)
    (h5 : b.getLsbD 5 = b5) (h4 : b.getLsbD 4 = b4) (h3 : b.getLsbD 3 = b3) (h2 : b.getLsbD 2 = b2)
    (h1 : b.getLsbD 1 = b1) (h0 : b.getLsbD 0 = b0) : byteOf b7 b6 b5 b4 b3 b2 b1 b0 = b := by
  subst h7 h6 h5 h4 h3 h2 h1 h0
  exact byteOf_bits b

theorem field2_bits (b : Byte) : (field2 b).getLsbD 1 = b.getLsbD 7 ∧ (field2 b).getLsbD 0 = b.getLsbD 6 := by
  revert b; decide

theorem field3_bits (b : Byte) :
    ((field3 b 0).getLsbD 2 = b.getLsbD 2 ∧ (field3 b 0).getLsbD 1 = b.getLsbD 1 ∧
      (field3 b 0).getLsbD 0 = b.getLsbD 0) ∧
    (field3 b 3 = 0#3 → b.getLsbD 5 = false ∧ b.getLsbD 4 = false ∧ b.getLsbD 3 = false) := by
  revert b; decide

section
variable {cs : CodeSize} {opA : Bool} {vl : VLen} {overrides : List SegReg} {p0 p1 p2 op modrm : Byte} {t : Tail}
  {tail : List Byte} {f : Fields}

/-- The slot `R':R:ModRM.reg` of assembled parts holds the bits it was read from, where the ignored bits of Op/En A are
stored as 1. -/
theorem regSlot_assemble (hop : opEnOf p0 p1 op modrm = some opA)
    (hign : ignoredBitStored cs opA p0 p1 modrm t = false)
    (hf : f = assemble cs opA vl overrides p0 p1 p2 modrm t) :
    f.regSlot.getLsbD 4 = (!p0.getLsbD 4) ∧ f.regSlot.getLsbD 3 = (!p0.getLsbD 7) ∧
      f.regSlot.getLsbD 2 = modrm.getLsbD 5 ∧ f.regSlot.getLsbD 1 = modrm.getLsbD 4 ∧
      f.regSlot.getLsbD 0 = modrm.getLsbD 3 := by
  obtain ⟨hA, -, -, h32⟩ := ignoredBitStored_eq_false_iff.mp hign
  subst hf
  cases opA with
  | true =>
    obtain ⟨h7, h4⟩ := hA rfl
    obtain ⟨-, -, -, -, -, -, hreg⟩ := opEnOf_some hop
    obtain ⟨h5, h4', h3⟩ := (field3_bits modrm).2 (hreg rfl)
    rw [h7, h4, h5, h4', h3, Fields.regSlot_of_isA rfl]
    decide
  | false =>
    have hlong : ((cs == .bits64) && !p0.getLsbD 4) = !p0.getLsbD 4 := long_and_eq fun hcs => by
      simp [(h32 hcs).2.1]
    rw [← hlong]
    exact bits5_bits _ _ _ _ _

/-- The slot `V':vvvv` of assembled parts holds the bits it was read from, where in 32-bit modes P1[6] is stored as
1. -/
theorem vvvvSlot_assemble (hp1 : cs ≠ .bits64 → p1.getLsbD 6 = true)
    (hf : f = assemble cs opA vl overrides p0 p1 p2 modrm t) :
    f.vvvvSlot.getLsbD 4 = (!p2.getLsbD 3) ∧ f.vvvvSlot.getLsbD 3 = (!p1.getLsbD 6) ∧
      f.vvvvSlot.getLsbD 2 = (!p1.getLsbD 5) ∧ f.vvvvSlot.getLsbD 1 = (!p1.getLsbD 4) ∧
      f.vvvvSlot.getLsbD 0 = (!p1.getLsbD 3) := by
  have hlong : ((cs == .bits64) && !p1.getLsbD 6) = !p1.getLsbD 6 := long_and_eq fun hcs => by simp [hp1 hcs]
  have hslot : f.vvvvSlot = bits5 (!p2.getLsbD 3) ((cs == .bits64) && !p1.getLsbD 6) (!p1.getLsbD 5) (!p1.getLsbD 4)
      (!p1.getLsbD 3) := by
    subst hf; cases opA <;> rfl
  rw [hslot, hlong]
  exact bits5_bits _ _ _ _ _

/-- The ModRM:r/m operand of assembled parts encodes to the bits and bytes it was read from. -/
theorem rmEncoding_assemble (ht : TailRead opA (field2 modrm) (field3 modrm 0) tail t)
    (hign : ignoredBitStored cs opA p0 p1 modrm t = false) (hb : (field2 modrm == 3#2 && p2.getLsbD 4) = false)
    (hf : f = assemble cs opA vl overrides p0 p1 p2 modrm t) :
    f.rm.encoding = ⟨!p0.getLsbD 6, !p0.getLsbD 5, p2.getLsbD 4, field2 modrm, field3 modrm 0,
      (if hasSib (field2 modrm) (field3 modrm 0) then [t.sib] else []) ++ t.disp.bytes⟩ := by
  obtain ⟨-, hnoX, hnoB, h32⟩ := ignoredBitStored_eq_false_iff.mp hign
  have hlong : ((cs == .bits64) && !p0.getLsbD 5) = !p0.getLsbD 5 := long_and_eq fun hcs => by simp [(h32 hcs).1]
  have henc := rmOperand_encoding (cs := cs) (x := !p0.getLsbD 6) (b := !p0.getLsbD 5) (bcst := p2.getLsbD 4) ht
    (fun hmd hrm => by simp [hnoX hmd hrm]) (fun hmd hrm => by simp [hnoB hmd hrm])
    (fun hmd => by simpa [hmd] using hb)
  subst hf
  rw [← henc, ← hlong]
  rfl

/-- The six core bytes of parts assembled from bytes without an ignored bit stored as 0 are those bytes. -/
theorem coreBytes_assemble {legacy : List Byte} (hop : opEnOf p0 p1 op modrm = some opA)
    (ht : TailRead opA (field2 modrm) (field3 modrm 0) tail t)
    (hacc : Accepted true cs legacy opA p0 p1 p2 modrm t vl)
    (hf : f = assemble cs opA vl overrides p0 p1 p2 modrm t) :
    f.coreBytes = [0x62#8, p0, p1, p2, op, modrm] := by
  have hign := hacc.ignored rfl
  obtain ⟨-, -, -, h32⟩ := ignoredBitStored_eq_false_iff.mp hign
  obtain ⟨hr4, hr3, hr2, hr1, hr0⟩ := regSlot_assemble hop hign hf
  obtain ⟨hv4, hv3, hv2, hv1, hv0⟩ := vvvvSlot_assemble (fun hcs => (h32 hcs).2.2) hf
  have henc := rmEncoding_assemble ht hign hacc.bcst hf
  obtain ⟨hpp1, hpp0, hm2, hm1, hm0, hopcode, -⟩ := opEnOf_some hop
  have hA : f.op.isA = opA := by subst hf; cases opA <;> rfl
  have hw : (f.w == .qword) = p1.getLsbD 7 := by subst hf; simp only [assemble]; cases p1.getLsbD 7 <;> rfl
  have hvl : f.vl.encoding = (p2.getLsbD 6, p2.getLsbD 5) := by subst hf; exact vlen_encoding hacc.vlen
  have hz : f.e.z = p2.getLsbD 7 := by subst hf; rfl
  have haaa : f.e.aaa = field3 p2 0 := by subst hf; rfl
  obtain ⟨hmd1, hmd0⟩ := field2_bits modrm
  obtain ⟨⟨hrm2, hrm1, hrm0⟩, -⟩ := field3_bits modrm
  obtain ⟨⟨ha2, ha1, ha0⟩, -⟩ := field3_bits p2
  have hp0 : f.p0 = p0 := by
    rw [Fields.p0, hr3, hr4, henc, hA]
    exact byteOf_eq (by simp) (by simp) (by simp) (by simp) hacc.p0_3 hm2 hm1 hm0
  have hp1 : f.p1 = p1 := by
    rw [Fields.p1, hw, hv3, hv2, hv1, hv0]
    exact byteOf_eq rfl (by simp) (by simp) (by simp) (by simp) hacc.p1_2 hpp1 hpp0
  have hp2 : f.p2 = p2 := by
    rw [Fields.p2, hz, haaa, hvl, henc, hv4, ha2, ha1, ha0]
    exact byteOf_eq rfl rfl rfl rfl (by simp) rfl rfl rfl
  have hmodrm : f.modrm = modrm := by
    rw [Fields.modrm, henc, hr2, hr1, hr0]
    exact byteOf_eq hmd1.symm hmd0.symm rfl rfl rfl hrm2.symm hrm1.symm hrm0.symm
  rw [Fields.coreBytes, hp0, hp1, hp2, hmodrm, Fields.opcode, hA, hopcode]

/-- The bytes after ModRM of assembled parts stand at the head of those that were read. -/
theorem tailBytes_assemble {legacy : List Byte} (ht : TailRead opA (field2 modrm) (field3 modrm 0) tail t)
    (hacc : Accepted true cs legacy opA p0 p1 p2 modrm t vl)
    (hf : f = assemble cs opA vl overrides p0 p1 p2 modrm t) :
    ∃ rest, tail = f.rm.encoding.bytes ++ (f.op.bytes ++ rest) := by
  obtain ⟨rest, hrest⟩ := ht.bytes_eq
  have himm : f.op.bytes = if opA then [t.imm] else [] := by subst hf; cases opA <;> rfl
  refine ⟨rest, ?_⟩
  rw [rmEncoding_assemble ht (hacc.ignored rfl) hacc.bcst hf, himm, hrest, List.append_assoc]

end

/-- Settles O3: the parts assembled from the bytes encode to them, override by override, core byte by core byte, and
after ModRM. -/
theorem strictDecodeReadsTheEncoding : Obligations.StrictDecodeReadsTheEncoding := by
  intro cs bytes i hdec
  obtain ⟨legacy, p0, p1, p2, op, modrm, tail, opA, t, vl, rfl, hleg, haddr, -, -, hop, ht, hacc, rfl⟩ :=
    decode_instr hdec
  set f := assemble cs opA vl (legacy.filterMap SegReg.ofByte) p0 p1 p2 modrm t with hf
  have hcore := coreBytes_assemble hop (readTail_some ht) hacc hf
  obtain ⟨rest, rfl⟩ := tailBytes_assemble (readTail_some ht) hacc hf
  have hover : f.e.overrides.map SegReg.toByte = legacy := legacy_eq_overrides hleg haddr hacc.legacy_ok
  have hbytes : legacy ++ 0x62#8 :: p0 :: p1 :: p2 :: op :: modrm :: (f.rm.encoding.bytes ++ (f.op.bytes ++ rest)) =
      encode f.toInstr ++ rest := by
    rw [encode_append, fields_toInstr, hcore, hover]; rfl
  have hlen : f.toInstr.length = (encode f.toInstr).length := (length_fieldsEncode _).symm
  rw [hbytes, hlen, List.take_left]

/-! ## What was accepted is well-formed -/

/-- A register number whose top two bits are 0 in 32-bit modes exists there (30_encoding.md R74). -/
theorem valid_bits5 {cs : CodeSize} {b4 b3 b2 b1 b0 : Bool} (h : cs ≠ .bits64 → b4 = false ∧ b3 = false) :
    VReg.valid cs (bits5 b4 b3 b2 b1 b0) = true := by
  by_cases hcs : cs = .bits64
  · subst hcs; rfl
  · obtain ⟨h4, h3, -⟩ := bits5_bits b4 b3 b2 b1 b0
    rw [VReg.valid_iff_of_ne hcs, h4, h3]
    exact h hcs

/-- An accepted instruction is one an encoding of at most 15 bytes can name. -/
theorem wf_assemble {strict : Bool} {cs : CodeSize} {legacy : List Byte} {opA : Bool} {p0 p1 p2 modrm : Byte}
    {tail : List Byte} {t : Tail} {vl : VLen} {overrides : List SegReg}
    (ht : TailRead opA (field2 modrm) (field3 modrm 0) tail t)
    (hacc : Accepted strict cs legacy opA p0 p1 p2 modrm t vl)
    (hp0 : cs ≠ .bits64 → p0.getLsbD 7 = true ∧ p0.getLsbD 6 = true) (h16 : cs = .bits16 → field2 modrm = 3#2)
    (hover : overrides.length = legacy.length) :
    (assemble cs opA vl overrides p0 p1 p2 modrm t).wf cs = true := by
  have hlen := len_assemble vl overrides p1 p2 ht (fun hcs => (hp0 hcs).2) h16
  have hrm := (rmOperand_wf (x := !p0.getLsbD 6) (b := cs == .bits64 && !p0.getLsbD 5) (bcst := p2.getLsbD 4) ht
    (fun hcs => by simp [hcs, (hp0 hcs).2]) h16).1
  have hreg : VReg.valid cs (bits5 (cs == .bits64 && !p0.getLsbD 4) (!p0.getLsbD 7) (modrm.getLsbD 5)
      (modrm.getLsbD 4) (modrm.getLsbD 3)) = true :=
    valid_bits5 fun hcs => by simp [hcs, (hp0 hcs).1]
  have hvvvv : VReg.valid cs (bits5 (!p2.getLsbD 3) (cs == .bits64 && !p1.getLsbD 6) (!p1.getLsbD 5)
      (!p1.getLsbD 4) (!p1.getLsbD 3)) = true :=
    valid_bits5 fun hcs => by simp [hcs, hacc.vPrime hcs]
  refine Fields.wf_iff.mpr ⟨Evex.wf_iff.mpr hacc.zeroing, ?_, hrm, ?_, ?_⟩
  · cases opA
    · exact hreg
    · exact hvvvv
  · cases opA
    · exact hvvvv
    · rfl
  · rw [hlen, hover]; exact hacc.short

/-- Settles O4: the checks of the decoder are those of well-formedness, and the bytes counted are bytes read. -/
theorem decodedInstructionIsWellFormed : Obligations.DecodedInstructionIsWellFormed := by
  intro strict cs bytes i hdec
  obtain ⟨legacy, p0, p1, p2, op, modrm, tail, opA, t, vl, rfl, hleg, haddr, hp0, h16, -, ht, hacc, rfl⟩ :=
    decode_instr hdec
  have hover := length_filterMap_ofByte hleg haddr hacc.legacy_ok
  have hmd : cs = .bits16 → field2 modrm = 3#2 := fun hcs => h16 (by simp [hcs, usesAddressing16, haddr])
  have htail := readTail_some ht
  constructor
  · rw [Instr.wellFormed, fields_toInstr]
    exact wf_assemble htail hacc hp0 hmd hover
  · rw [Instr.length, fields_toInstr, len_assemble vl _ p1 p2 htail (fun hcs => (hp0 hcs).2) hmd, hover]
    have := htail.len_le
    simp only [List.length_append, List.length_cons]
    omega

end Sys2Proof
end

section
/-! PROOFS. The opcode table (30_encoding.md R56, R57): the row an encoding selects. -/

namespace Sys2Proof

/-- The bits of `L'L` in their place in P2 (30_encoding.md R68). -/
def VLen.tableByte : VLen → Byte
  | .l128 => 0x00#8
  | .l256 => 0x20#8
  | .l512 => 0x40#8

/-- EVEX.W in its place in P1, with `pp = 01` (30_encoding.md R54, R56). -/
def ElemWidth.tableByte : ElemWidth → Byte
  | .dword => 0x01#8
  | .qword => 0x81#8

/-- The pattern of every row, from its element width, operand encoding and vector length. -/
theorem pattern_of_mem {r : OpcodeRow} (h : r ∈ opcodeTable) :
    r.pattern = [0x62#8, if r.opA then 0x01#8 else 0x02#8, r.w.tableByte, r.vl.tableByte,
      if r.opA then 0x72#8 else 0x14#8, 0x00#8] := by
  revert r; decide

/-- The mask of every row. -/
theorem mask_of_mem {r : OpcodeRow} (h : r ∈ opcodeTable) :
    r.mask = [0xFF#8, 0x07#8, 0x83#8, 0x60#8, 0xFF#8, if r.opA then 0x38#8 else 0x00#8] := by
  revert r; decide

theorem byteOf_and_maps (b7 b6 b5 b4 isA : Bool) :
    byteOf b7 b6 b5 b4 false false (!isA) isA &&& 0x07#8 = if isA then 0x01#8 else 0x02#8 := by
  revert b7 b6 b5 b4 isA; decide

theorem byteOf_and_width (w : ElemWidth) (b6 b5 b4 b3 : Bool) :
    byteOf (w == .qword) b6 b5 b4 b3 true false true &&& 0x83#8 = w.tableByte := by
  cases w <;> revert b6 b5 b4 b3 <;> decide

theorem byteOf_and_length (vl : VLen) (b7 b4 b3 b2 b1 b0 : Bool) :
    byteOf b7 vl.encoding.1 vl.encoding.2 b4 b3 b2 b1 b0 &&& 0x60#8 = vl.tableByte := by
  cases vl <;> revert b7 b4 b3 b2 b1 b0 <;> decide

/-- The core bytes under a mask of the table: what is left of ModRM depends on the mask's last byte. -/
theorem zipWith_coreBytes (f : Fields) (m : Byte) :
    List.zipWith (fun b m => b &&& m) f.coreBytes [0xFF#8, 0x07#8, 0x83#8, 0x60#8, 0xFF#8, m] =
      [0x62#8, if f.op.isA then 0x01#8 else 0x02#8, f.w.tableByte, f.vl.tableByte,
        if f.op.isA then 0x72#8 else 0x14#8, f.modrm &&& m] := by
  have hp0 : f.p0 &&& 0x07#8 = if f.op.isA then 0x01#8 else 0x02#8 := byteOf_and_maps _ _ _ _ _
  have hp1 : f.p1 &&& 0x83#8 = f.w.tableByte := byteOf_and_width _ _ _ _ _
  have hp2 : f.p2 &&& 0x60#8 = f.vl.tableByte := byteOf_and_length _ _ _ _ _ _ _
  have hop : f.opcode &&& 0xFF#8 = if f.op.isA then 0x72#8 else 0x14#8 := by
    unfold Fields.opcode; cases f.op.isA <;> decide
  simp only [Fields.coreBytes, List.zipWith_cons_cons, List.zipWith_nil_left, hp0, hp1, hp2, hop]
  rfl

theorem modrm_and_reg_of_isA {f : Fields} (h : f.op.isA = true) : f.modrm &&& 0x38#8 = 0x00#8 := by
  have hbits : ∀ b7 b6 b2 b1 b0 : Bool, byteOf b7 b6 false false false b2 b1 b0 &&& 0x38#8 = 0x00#8 := by decide
  rw [Fields.modrm, Fields.regSlot_of_isA h]
  exact hbits _ _ _ _ _

/-- A row is selected by the core bytes of its own width, operand encoding and length, and by no others. -/
theorem selects_coreBytes {r : OpcodeRow} (h : r ∈ opcodeTable) (f : Fields) :
    r.selects f.coreBytes = (r.w == f.w && r.opA == f.op.isA && r.vl == f.vl) := by
  rw [OpcodeRow.selects, mask_of_mem h, zipWith_coreBytes, pattern_of_mem h]
  by_cases hA : r.opA = f.op.isA
  · have hreg : f.modrm &&& (if f.op.isA then 0x38#8 else 0x00#8) = 0x00#8 := by
      cases hr : f.op.isA with
      | true => exact modrm_and_reg_of_isA hr
      | false => simp
    have hw : (f.w.tableByte == r.w.tableByte) = (r.w == f.w) := by cases f.w <;> cases r.w <;> decide
    have hvl : (f.vl.tableByte == r.vl.tableByte) = (r.vl == f.vl) := by cases f.vl <;> cases r.vl <;> decide
    simp [hreg, hA, ← hw, ← hvl]
  · have hne : (r.opA == f.op.isA) = false := by simpa using hA
    rw [hne]
    revert hA
    cases r.opA <;> cases f.op.isA <;> simp

/-- Settles O5: the table has one row for each width, operand encoding and length. -/
theorem encodingSelectsItsTableRow : Obligations.EncodingSelectsItsTableRow := by
  intro i
  have honce : ∀ w opA vl, (opcodeTable.filter fun r => r.w == w && r.opA == opA && r.vl == vl).map
      (fun r => (r.w, r.opA, r.vl)) = [(w, opA, vl)] := by
    intro w opA vl; cases w <;> cases opA <;> cases vl <;> decide
  rw [selectedRows, List.filter_congr fun r hr => selects_coreBytes hr i.fields]
  exact honce _ _ _

end Sys2Proof
end

section
/-! PROOFS. What is not an instruction (30_encoding.md R70 to R75): invalid opcodes, refusals, the length, the bits that
are ignored, and 32-bit modes. -/

namespace Sys2Proof.Machine

/-! ## Invalid opcodes (R70, R71, R74) -/

theorem checkForm_error_of_ne_ok {cs : CodeSize} {legacy : List Byte} {p0 p1 p2 modrm : Byte}
    (h : ∀ vl, checkForm cs legacy p0 p1 p2 modrm ≠ .ok vl) : ∃ c, checkForm cs legacy p0 p1 p2 modrm = .error c := by
  cases hc : checkForm cs legacy p0 p1 p2 modrm with
  | error c => exact ⟨c, rfl⟩
  | ok vl => exact absurd hc (h vl)

theorem checkForm_error_of_forbidden {cs : CodeSize} {legacy : List Byte} {p0 p1 p2 modrm : Byte}
    (h : legacy.any (isForbiddenLegacy cs) = true) : ∃ c, checkForm cs legacy p0 p1 p2 modrm = .error c := by
  refine checkForm_error_of_ne_ok fun vl hok => ?_
  rw [(checkForm_ok hok).1] at h
  cases h

/-- A form that fails a check and is not too long is #UD. -/
theorem decodeForm_ud {strict : Bool} {cs : CodeSize} {legacy : List Byte} {opA : Bool} {p0 p1 p2 modrm : Byte}
    {t : Tail} (hlen : legacy.length + 6 + t.len ≤ 15) (h : ∃ c, checkForm cs legacy p0 p1 p2 modrm = .error c) :
    ∃ c, decodeForm strict cs legacy opA p0 p1 p2 modrm t = .ud c := by
  obtain ⟨c, hc⟩ := h
  exact ⟨c, by simp only [decodeForm, if_neg (Nat.not_lt.mpr hlen), hc]⟩

/-- The same for a memory form with 16-bit addresses. -/
theorem decodeForm16_ud {cs : CodeSize} {legacy : List Byte} {opA : Bool} {p0 p1 p2 modrm : Byte}
    (hlen : legacy.length + 6 + opA.toNat ≤ 15) (h : ∃ c, checkForm cs legacy p0 p1 p2 modrm = .error c) :
    ∃ c, decodeForm16 cs legacy opA p0 p1 p2 modrm = .ud c := by
  obtain ⟨c, hc⟩ := h
  exact ⟨c, by simp only [decodeForm16, if_neg (Nat.not_lt.mpr hlen), hc]⟩

/-- A form without legacy bytes that fails a check is #UD, whichever addresses it uses. -/
theorem decodeEvex_ud {strict : Bool} {cs : CodeSize} {opA : Bool} {p0 p1 p2 op modrm : Byte} {tail : List Byte}
    (hop : opEnOf p0 p1 op modrm = some opA) (htail : 6 ≤ tail.length)
    (h : ∃ c, checkForm cs [] p0 p1 p2 modrm = .error c) :
    ∃ c, decodeEvex strict cs [] p0 (p1 :: p2 :: op :: modrm :: tail) = .ud c := by
  by_cases h16 : usesAddressing16 cs [] = true ∧ field2 modrm ≠ 3#2
  · rw [decodeEvex_form16 hop h16.1 h16.2]
    exact decodeForm16_ud (by cases opA <;> decide) h
  · obtain ⟨t, ht, hlen⟩ := readTail_isSome (opA := opA) (md := field2 modrm) (rm := field3 modrm 0) htail
    rw [decodeEvex_form hop (by tauto), ht]
    exact decodeForm_ud (by simp only [List.length_nil]; omega) h

theorem top_bits_iff (b : Byte) : b.extractLsb' 6 2 = 3#2 ↔ b.getLsbD 7 = true ∧ b.getLsbD 6 = true := by
  revert b; decide

/-- Decoding where 62H is the first byte: in 32-bit modes P0 says whether it begins an EVEX instruction (30_encoding.md R74). -/
theorem decode_62 (strict : Bool) (cs : CodeSize) (p0 : Byte) (rest : List Byte) :
    decode strict cs (0x62#8 :: p0 :: rest) =
      if cs ≠ .bits64 ∧ p0.extractLsb' 6 2 ≠ 3#2 then .refused .notInScope else decodeEvex strict cs [] p0 rest := by
  have htop : (p0[7] = false ∨ p0[6] = false) ↔ ¬ p0.extractLsb' 6 2 = 3#2 := by revert p0; decide
  simp [decode, htop]

/-- Settles O7: each of the five conditions fails a check. -/
theorem reservedEncodingsAreInvalidOpcodes : Obligations.ReservedEncodingsAreInvalidOpcodes := by
  intro strict opA p0 p1 p2 op modrm tail hop htail hbad
  rw [decode_62, if_neg (by simp)]
  refine decodeEvex_ud hop htail (checkForm_error_of_ne_ok fun vl hok => ?_)
  obtain ⟨-, hp0, hp1, hvl, hz, hb, -⟩ := checkForm_ok hok
  rcases hbad with h | h | ⟨h6, h5⟩ | ⟨h7, haaa⟩ | ⟨hmd, h4⟩
  · rw [hp0] at h; cases h
  · rw [hp1] at h; cases h
  · rw [vlenOf, h6, h5] at hvl; cases hvl
  · rw [h7, (field3_eq_extract p2).1, haaa] at hz; cases hz
  · rw [h4, field2_eq_extract, hmd] at hb; cases hb

/-- Settles O11: P0 decides whether 62H begins an EVEX instruction, and the check of V' is the last one. -/
theorem evexIn32BitModes : Obligations.EvexIn32BitModes := by
  intro cs strict opA p0 p1 p2 op modrm tail hcs
  refine ⟨fun htop => ?_, fun htop hop htail hv => ?_⟩
  · rw [decode_62, if_pos ⟨hcs, htop⟩]
  · rw [decode_62, if_neg fun h => h.2 htop]
    refine decodeEvex_ud hop htail (checkForm_error_of_ne_ok fun vl hok => ?_)
    obtain ⟨-, -, -, -, -, -, hv'⟩ := checkForm_ok hok
    rw [hv' hcs] at hv
    cases hv

theorem md_of_not_isReg {rm : RmOperand} (h : isReg rm = false) : rm.encoding.md ≠ 3#2 := by
  cases rm with
  | reg r => cases h
  | mem bc m =>
    cases m with
    | ripRel d => simp [RmOperand.encoding]
    | abs32 d => simp [RmOperand.encoding]
    | base b d => cases d <;> simp [RmOperand.encoding, Disp.md]
    | sib ss idx bs d => cases bs <;> cases d <;> simp [RmOperand.encoding, Disp.md]

/-- A forbidden byte among the bytes before a well-formed instruction's core bytes makes it #UD, if all together are at
most 15 bytes. -/
theorem decode_forbidden {strict : Bool} {cs : CodeSize} {legacy : List Byte} {f : Fields} (rest : List Byte)
    (hwf : f.wf cs = true) (hleg : ∀ b ∈ legacy, isLegacy cs b = true)
    (hforb : legacy.any (isForbiddenLegacy cs) = true) (hlen : legacy.length + 6 + (f.rm.len + f.op.len) ≤ 15) :
    ∃ c, decode strict cs (legacy ++ (f.coreBytes ++ (f.rm.encoding.bytes ++ (f.op.bytes ++ rest)))) = .ud c := by
  by_cases h16 : cs = .bits32 ∧ legacy.any isAddressSize = true ∧ isReg f.rm = false
  · obtain ⟨rfl, haddr, hmem⟩ := h16
    have hmd : field2 f.modrm ≠ 3#2 := by rw [field2_modrm]; exact md_of_not_isReg hmem
    have hop : f.op.isA.toNat = f.op.len := by cases f.op <;> rfl
    have hdec := (decode_evex (strict := strict) (rest := f.p1 :: f.p2 :: f.opcode :: f.modrm ::
      (f.rm.encoding.bytes ++ (f.op.bytes ++ rest))) hleg (fun _ => hforb) fun hcs => p0_top_of_wf32 hcs hwf).trans
      (decodeEvex_form16 (opEnOf_coreBytes f) haddr hmd)
    obtain ⟨c, hc⟩ := decodeForm16_ud (opA := f.op.isA) (by omega) (checkForm_error_of_forbidden hforb)
    exact ⟨c, hdec.trans hc⟩
  · have hreg : cs = .bits32 → legacy.any isAddressSize = true → isReg f.rm = true := by
      simpa using h16
    obtain ⟨t, ht, hdec⟩ := decode_legacy_encode strict hleg (fun _ => hforb) hwf hreg rest
    rw [hdec]
    exact decodeForm_ud (by rw [ht.len]; exact hlen) (checkForm_error_of_forbidden hforb)

/-- Settles O6: the bytes before the instruction and its own overrides are the legacy bytes. -/
theorem forbiddenLegacyByteIsInvalidOpcode : Obligations.ForbiddenLegacyByteIsInvalidOpcode := by
  intro strict cs pre b i rest hwf hlen hpre hb hforb
  have hleg : ∀ c ∈ pre ++ i.fields.e.overrides.map SegReg.toByte, isLegacy cs c = true := by
    intro c hc
    rcases List.mem_append.mp hc with hc | hc
    · exact (isLegacy_iff cs c).mpr (hpre c hc)
    · obtain ⟨r, -, rfl⟩ := List.mem_map.mp hc
      exact isLegacy_toByte cs r
  have hany : (pre ++ i.fields.e.overrides.map SegReg.toByte).any (isForbiddenLegacy cs) = true :=
    List.any_eq_true.mpr ⟨b, List.mem_append_left _ hb, (isForbiddenLegacy_iff cs b).mpr hforb⟩
  rw [List.append_assoc, encode_append, ← List.append_assoc]
  refine decode_forbidden rest hwf hleg hany ?_
  rw [Instr.length, Fields.len] at hlen
  rw [List.length_append, List.length_map]
  omega

/-! ## Refusals (R70, R72) -/

/-- What the opcode test looks at, in the terms of 30_encoding.md R56. -/
theorem opEnOf_eq_none_iff (p0 p1 op modrm : Byte) :
    opEnOf p0 p1 op modrm = none ↔
      (p1.extractLsb' 0 2 ≠ 1#2 ∨
        ¬ ((p0.extractLsb' 0 3 = 1#3 ∧ op = 0x72#8 ∧ modrm.extractLsb' 3 3 = 0#3) ∨
           (p0.extractLsb' 0 3 = 2#3 ∧ op = 0x14#8))) := by
  have hpp : (p1.getLsbD 1, p1.getLsbD 0) = (false, true) ↔ p1.extractLsb' 0 2 = 1#2 := by revert p1; decide
  simp only [opEnOf, (field3_eq_extract p0).1, (field3_eq_extract modrm).2, ne_eq, hpp]
  split_ifs <;> simp_all

theorem any_isForbiddenLegacy_eq_false {cs : CodeSize} {pre : List Byte} (h : ∀ c ∈ pre, ¬ ForbiddenByte cs c) :
    pre.any (isForbiddenLegacy cs) = false :=
  List.any_eq_false.mpr fun c hc hf => h c hc ((isForbiddenLegacy_iff cs c).mp hf)

theorem any_isAddressSize_eq_false {pre : List Byte} (h : 0x67#8 ∉ pre) : pre.any isAddressSize = false := by
  rw [Bool.eq_false_iff, ne_eq, any_isAddressSize]
  exact h

/-- Settles O8: the tests of R75 in their order. -/
theorem otherInstructionsAreRefused : Obligations.OtherInstructionsAreRefused := by
  intro strict pre hpre
  have hleg : ∀ b ∈ pre, isLegacy .bits64 b = true := fun b hb => (isLegacy_iff _ b).mpr (hpre b hb)
  refine ⟨fun b rest hb h62 => ?_, fun p0 rest h67 hforb => ?_, fun p0 p1 p2 op modrm tail h67 hforb hp0 hp1 hop => ?_⟩
  · have hb : isLegacy .bits64 b = false := by rw [Bool.eq_false_iff, ne_eq, isLegacy_iff]; exact hb
    obtain ⟨htake, hdrop⟩ := takeWhile_legacy_append hleg hb rest
    simp only [decode, htake, hdrop, if_pos h62, any_isAddressSize]
  · obtain ⟨htake, hdrop⟩ := takeWhile_legacy hleg (p0 :: rest)
    simp [decode, htake, hdrop, (any_isAddressSize pre).mpr h67, any_isForbiddenLegacy_eq_false hforb]
  · have haddr := any_isAddressSize_eq_false h67
    rw [decode_evex hleg (by simp [haddr]) (by simp)]
    simp only [decodeEvex, (opEnOf_eq_none_iff _ _ _ _).mpr hop, any_isForbiddenLegacy_eq_false hforb, hp0, hp1]
    rfl

/-! ## The length (R69) -/

/-- Fifteen bytes that can be fetched and that hold no whole instruction are #GP(0) (60_exceptions.md R126). -/
theorem step_of_fifteen_short {s : State} {bs : List Byte} (hlen : bs.length = 15) (hcode : s.CodeAt bs)
    (hshort : decode Config.strictIgnoredBits s.codeSize bs = .short) : step s = .fault .gp := by
  have hfetch := fetchBytes_all s hcode
  rw [hlen] at hfetch
  rw [step_of_short (by rw [hfetch]; exact hshort), hfetch]
  rfl

/-- Settles O9: the decoder measures before it judges, and asks for all the bytes before it measures. -/
theorem overlongInstructionIsTooLong : Obligations.OverlongInstructionIsTooLong := by
  intro strict cs pre opA p0 p1 p2 op modrm tail hpre hop htail hlong
  obtain ⟨hleg, haddr, hp0, h16⟩ := hpre.decoder
  obtain ⟨t, ht, -⟩ := readTail_isSome (opA := opA) (md := field2 modrm) (rm := field3 modrm 0) htail
  rw [lengthByFormula_eq ht] at hlong
  refine ⟨decode_tooLong hleg haddr hp0 hop h16 ht hlong, ?_⟩
  rintro s rfl hcode
  refine step_of_fifteen_short ?_ hcode (decode_take_short hleg haddr hp0 hop h16 ht hlong)
  have := (readTail_some ht).len_le
  simp only [List.length_take, List.length_append, List.length_cons]
  omega

/-- Settles O48: no byte of the fifteen is 62H, so that no instruction begins among them. -/
theorem fifteenOverrideBytesAreTooLong : Obligations.FifteenOverrideBytesAreTooLong := by
  intro s overrides hlen hcode
  refine step_of_fifteen_short (by rw [List.length_map, hlen]) hcode ?_
  have hdrop : (overrides.map SegReg.toByte).dropWhile (isLegacy s.codeSize) = [] :=
    List.dropWhile_eq_nil_iff.mpr (by simp)
  simp only [decode, hdrop]

/-! ## Ignored bits (R73, R74) -/

/-- Under the lax reading two pairs of bytes P0, P1 are decoded alike if they select the same operand encoding, have the
same reserved bits, and are assembled to the same parts. -/
theorem decodeEvex_lax_congr {cs : CodeSize} {legacy : List Byte} {p0 q0 p1 q1 p2 op modrm : Byte} {tail : List Byte}
    (hop : opEnOf q0 q1 op modrm = opEnOf p0 p1 op modrm) (hp0 : q0.getLsbD 3 = p0.getLsbD 3)
    (hp1 : q1.getLsbD 2 = p1.getLsbD 2)
    (hasm : ∀ opA vl overrides t, opEnOf p0 p1 op modrm = some opA →
      TailRead opA (field2 modrm) (field3 modrm 0) tail t →
      assemble cs opA vl overrides q0 q1 p2 modrm t = assemble cs opA vl overrides p0 p1 p2 modrm t) :
    decodeEvex false cs legacy q0 (q1 :: p2 :: op :: modrm :: tail) =
      decodeEvex false cs legacy p0 (p1 :: p2 :: op :: modrm :: tail) := by
  have hcheck : checkForm cs legacy q0 q1 p2 modrm = checkForm cs legacy p0 p1 p2 modrm := by
    simp only [checkForm, hp0, hp1]
  cases hsel : opEnOf p0 p1 op modrm with
  | none => simp only [decodeEvex, hop, hsel, hp0, hp1]
  | some opA =>
    by_cases h16 : usesAddressing16 cs legacy = true ∧ field2 modrm ≠ 3#2
    · rw [decodeEvex_form16 (hop.trans hsel) h16.1 h16.2, decodeEvex_form16 hsel h16.1 h16.2]
      simp only [decodeForm16, hcheck]
    · rw [decodeEvex_form (hop.trans hsel) (by tauto), decodeEvex_form hsel (by tauto)]
      cases ht : readTail opA (field2 modrm) (field3 modrm 0) tail with
      | none => rfl
      | some t =>
        have hasm := fun vl overrides => hasm opA vl overrides t hsel (readTail_some ht)
        simp only [decodeForm, hcheck, hasm, Bool.false_and]

/-- X is ignored where the ModRM:r/m operand is memory without SIB, B where it has neither a base register nor a
register in ModRM.rm (30_encoding.md R73). -/
theorem rmOperand_congr {cs : CodeSize} {x y b c bcst : Bool} {md : BitVec 2} {rm : BitVec 3} {t : Tail}
    (hx : x = y ∨ (md ≠ 3#2 ∧ rm ≠ 4#3))
    (hb : b = c ∨ (md = 0#2 ∧ (rm = 5#3 ∨ (rm = 4#3 ∧ field3 t.sib 0 = 5#3)))) :
    rmOperand cs x b bcst md rm t = rmOperand cs y c bcst md rm t := by
  have hmem (hmd : md ≠ 3#2) : memOperand cs x b md rm t = memOperand cs y c md rm t := by
    unfold memOperand
    by_cases hrm : rm = 4#3
    · obtain rfl : x = y := by tauto
      rcases hb with rfl | ⟨rfl, h5 | ⟨-, h5⟩⟩
      · rfl
      · rw [hrm] at h5; cases h5
      · simp only [hrm, h5, if_true, and_self]
    · rcases hb with rfl | ⟨rfl, h5 | ⟨h4, -⟩⟩
      · simp only [if_neg hrm]
      · simp [h5]
      · exact absurd h4 hrm
  unfold rmOperand
  by_cases hmd : md = 3#2
  · obtain rfl : x = y := by tauto
    obtain rfl : b = c := by
      refine hb.resolve_right fun h => ?_
      rw [hmd] at h
      exact absurd h.1 (by decide)
    rfl
  · rw [if_neg hmd, if_neg hmd, hmem hmd]

/-- In the assembly P0 is used for the ModRM:r/m operand, and for `R':R:ModRM.reg` in Op/En B only (30_encoding.md R59,
R60). -/
theorem assemble_congr_p0 {cs : CodeSize} {opA : Bool} {vl : VLen} {overrides : List SegReg}
    {p0 q0 p1 p2 modrm : Byte} {t : Tail}
    (hreg : opA = false → q0.getLsbD 7 = p0.getLsbD 7 ∧ q0.getLsbD 4 = p0.getLsbD 4)
    (hrm : rmOperand cs (!q0.getLsbD 6) (cs == .bits64 && !q0.getLsbD 5) (p2.getLsbD 4) (field2 modrm) (field3 modrm 0)
        t =
      rmOperand cs (!p0.getLsbD 6) (cs == .bits64 && !p0.getLsbD 5) (p2.getLsbD 4) (field2 modrm) (field3 modrm 0) t) :
    assemble cs opA vl overrides q0 p1 p2 modrm t = assemble cs opA vl overrides p0 p1 p2 modrm t := by
  cases opA with
  | true => simp only [assemble, hrm, if_true]
  | false => simp only [assemble, hrm, hreg rfl]

/-- In 32-bit modes the assembly uses neither B and R' nor P1[6] (30_encoding.md R74). -/
theorem assemble_congr_32 {cs : CodeSize} (hcs : cs ≠ .bits64) {opA : Bool} {vl : VLen} {overrides : List SegReg}
    {p0 q0 p1 q1 p2 modrm : Byte} {t : Tail} (h0 : ∀ j, j ≠ 5 → j ≠ 4 → q0.getLsbD j = p0.getLsbD j)
    (h1 : ∀ j, j ≠ 6 → q1.getLsbD j = p1.getLsbD j) :
    assemble cs opA vl overrides q0 q1 p2 modrm t = assemble cs opA vl overrides p0 p1 p2 modrm t := by
  have hlong : (cs == .bits64) = false := by simpa using hcs
  simp only [assemble, hlong, Bool.false_and, h0 7 (by decide) (by decide), h0 6 (by decide) (by decide),
    h1 7 (by decide), h1 5 (by decide), h1 4 (by decide), h1 3 (by decide)]

/-- The SIB byte, where there is one, is the first byte after ModRM (30_encoding.md R69). -/
theorem sib_of_tailRead {opA : Bool} {md : BitVec 2} {rm : BitVec 3} {sib : Byte} {rest : List Byte} {t : Tail}
    (h : TailRead opA md rm (sib :: rest) t) (hsib : hasSib md rm = true) : t.sib = sib := by
  obtain ⟨rest', hrest⟩ := h.bytes_eq
  rw [if_pos hsib] at hrest
  exact (List.cons.inj hrest).1.symm

/-- The operand encoding is selected by the map in P0 and `pp` in P1 (30_encoding.md R56). -/
theorem opEnOf_congr {p0 q0 p1 q1 op modrm : Byte} (h0 : ∀ j, j ≤ 2 → q0.getLsbD j = p0.getLsbD j)
    (h1 : ∀ j, j ≤ 1 → q1.getLsbD j = p1.getLsbD j) : opEnOf q0 q1 op modrm = opEnOf p0 p1 op modrm := by
  have hmap : field3 q0 0 = field3 p0 0 := by simp only [field3, h0 _ (show 0 + 2 ≤ 2 by decide),
    h0 _ (show 0 + 1 ≤ 2 by decide), h0 0 (by decide)]
  unfold opEnOf
  rw [hmap, h1 1 le_rfl, h1 0 (by decide)]

/-- Settles O10: the ignored bits are none that the checks look at, and the assembly does not use them. -/
theorem ignoredBitsHaveNoEffect : Obligations.IgnoredBitsHaveNoEffect := by
  constructor
  · intro opA p0 q0 p1 p2 op modrm tail hop hbits
    simp only [← field2_eq_extract, ← (field3_eq_extract _).1] at hbits
    have hlow : ∀ j, j ≤ 3 → q0.getLsbD j = p0.getLsbD j := fun j hj => by
      rcases hbits j with h | ⟨h, -⟩ | ⟨h, -⟩ | ⟨h, -⟩
      · exact h
      all_goals omega
    rw [decode_62, decode_62, if_neg (by simp), if_neg (by simp)]
    refine decodeEvex_lax_congr (opEnOf_congr (fun j hj => hlow j (by omega)) fun _ _ => rfl) (hlow 3 le_rfl) rfl ?_
    intro opA' vl overrides t hop' ht
    obtain rfl : opA = opA' := Option.some.inj (hop.symm.trans hop')
    refine assemble_congr_p0 (fun hA => ?_) (rmOperand_congr ?_ ?_)
    · exact ⟨by simpa [hA] using hbits 7, by simpa [hA] using hbits 4⟩
    · rcases hbits 6 with h | ⟨h, -⟩ | ⟨-, h⟩ | ⟨h, -⟩
      · exact .inl (by rw [h])
      · omega
      · exact .inr h
      · omega
    · rcases hbits 5 with h | ⟨h, -⟩ | ⟨h, -⟩ | ⟨-, hmd, h | ⟨h, sib, rest, rfl, h5⟩⟩
      · exact .inl (by rw [h])
      · omega
      · omega
      · exact .inr ⟨hmd, .inl h⟩
      · exact .inr ⟨hmd, .inr ⟨h, by rw [sib_of_tailRead ht (by rw [hmd, h]; decide)]; exact h5⟩⟩
  · intro cs p0 q0 p1 q1 p2 op modrm tail hcs hq0 hq1
    have h0 : ∀ j, j ≠ 5 → j ≠ 4 → q0.getLsbD j = p0.getLsbD j := fun j h5 h4 => by simpa [h5, h4] using hq0 j
    have h1 : ∀ j, j ≠ 6 → q1.getLsbD j = p1.getLsbD j := fun j h6 => by simpa [h6] using hq1 j
    have htop : q0.extractLsb' 6 2 = 3#2 ↔ p0.extractLsb' 6 2 = 3#2 := by
      rw [top_bits_iff, top_bits_iff, h0 7 (by decide) (by decide), h0 6 (by decide) (by decide)]
    have hevex := decodeEvex_lax_congr (cs := cs) (legacy := []) (p2 := p2) (op := op) (modrm := modrm) (tail := tail)
      (opEnOf_congr (fun j hj => h0 j (by omega) (by omega)) fun j hj => h1 j (by omega)) (h0 3 (by decide) (by decide))
      (h1 2 (by decide)) fun opA vl overrides t _ _ => assemble_congr_32 hcs h0 h1
    simp only [decode_62, ne_eq, htop, hevex]

/-! ## Memory forms with 16-bit addresses (log 9) -/

theorem codeSize_eq_bits16 {s : State}
    (h : (s.mode = .mode32 ∧ s.csD = false) ∨ s.mode = .real ∨ s.mode = .virtual8086) :
    s.codeSize = .bits16 := by
  rcases h with ⟨h, hd⟩ | h | h <;> simp [State.codeSize, *]

theorem enableFault_of_real_or_virtual8086 {s : State} (h : s.mode = .real ∨ s.mode = .virtual8086) (vl : VLen) :
    s.enableFault vl = some .ud := by
  rcases h with h | h <;> simp [State.enableFault, h]

/-- Bytes that can be fetched stand at the head of those that are. -/
theorem fetchBytes_of_codeAt {s : State} {bs : List Byte} (h : s.CodeAt bs) (hlen : bs.length ≤ 15) :
    ∃ rest, (s.fetchBytes 15 0).1 = bs ++ rest :=
  ⟨_, (fetchBytes_append s bs 15 0 hlen fun j hj => by rw [Nat.zero_add]; exact h j hj).1⟩

/-- Settles O42: the six bytes to ModRM decide, whatever is fetched after them. -/
theorem sixteenBitMemoryFormIsNotRead : Obligations.SixteenBitMemoryFormIsNotRead := by
  intro s overrides opA p0 p1 p2 op modrm vl hop hlen htop hmem hp0 hp1 hvl hz hv hcode
  have hmd : field2 modrm ≠ 3#2 := by rwa [field2_eq_extract]
  have hcheck : checkForm .bits16 (overrides.map SegReg.toByte) p0 p1 p2 modrm = .ok vl := by
    refine checkForm_of_valid (any_forbidden_overrides _ _) hp0 hp1 hvl ?_ (by simp [hmd]) fun _ => hv
    rw [(field3_eq_extract p2).1]
    simpa using hz
  have hcount : (overrides.map SegReg.toByte).length + 6 + opA.toNat ≤ 15 := by
    cases opA <;> simpa using hlen
  have hsix : (overrides.map SegReg.toByte ++ [0x62#8, p0, p1, p2, op, modrm]).length ≤ 15 := by
    rw [List.length_append]
    exact (Nat.le_add_right _ _).trans hcount
  have hbits : p0.getLsbD 7 = true ∧ p0.getLsbD 6 = true := (top_bits_iff p0).mp htop
  have hdec (h16 : s.codeSize = .bits16) :
      decode Config.strictIgnoredBits s.codeSize (s.fetchBytes 15 0).1 = .addressing16 vl := by
    obtain ⟨rest, hfetch⟩ := fetchBytes_of_codeAt hcode hsix
    rw [hfetch, h16, List.append_assoc, List.cons_append, List.cons_append,
      decode_evex (by simp) (by simp) fun _ => hbits]
    refine (decodeEvex_form16 hop (by simp [usesAddressing16]) hmd).trans ?_
    simp only [decodeForm16, if_neg (Nat.not_lt.mpr hcount), hcheck]
  refine ⟨fun hmode hD hen => ?_, fun hmode => ?_⟩
  · rw [step_of_addressing16 (hdec (codeSize_eq_bits16 (.inl ⟨hmode, hD⟩))), (enableFault_eq_none_iff s vl).mpr hen]
  · rw [step_of_addressing16 (hdec (codeSize_eq_bits16 (.inr hmode))), enableFault_of_real_or_virtual8086 hmode]

end Sys2Proof.Machine
end

section
/-! SUPPORT. The laws of the rotate, the bits of a new value, and the next program counter (40_rotate_common.md R82 to
R91). -/

namespace Sys2Proof.Machine

/-! ## The laws of the rotate (R82, R83, R88) -/

/-- A rotate by 0 is the identity. -/
@[simp] theorem ror_zero {w : Nat} (v : BitVec w) : ror w v 0 = v := by
  refine BitVec.eq_of_getLsbD_eq fun p hp => ?_
  rw [getLsbD_ror, decide_eq_true hp, Bool.true_and, Nat.add_zero, Nat.mod_eq_of_lt hp]

/-- A count that the width divides rotates nothing (40_rotate_common.md R82). -/
theorem ror_of_mod_eq_zero {w : Nat} (v : BitVec w) {c : Nat} (h : c % w = 0) : ror w v c = v := by
  rw [ror_congr_mod v (h.trans (Nat.zero_mod w).symm), ror_zero]

/-- Rotates compose by adding their counts: bit `p` comes from `p + b`, and that one from `p + b + a`. -/
theorem ror_ror {w : Nat} (v : BitVec w) (a b : Nat) : ror w (ror w v a) b = ror w v (a + b) := by
  refine BitVec.eq_of_getLsbD_eq fun p hp => ?_
  have hpb : (p + b) % w < w := Nat.mod_lt _ (Nat.zero_lt_of_lt hp)
  have hsum : ((p + b) % w + a) % w = (p + (a + b)) % w := by
    rw [Nat.mod_add_mod, Nat.add_right_comm, Nat.add_assoc]
  rw [getLsbD_ror, getLsbD_ror, getLsbD_ror, decide_eq_true hpb, Bool.true_and, hsum]

/-- The complement of the count to the width undoes a rotate. -/
theorem ror_ror_complement {w : Nat} (hw : 0 < w) (v : BitVec w) (a : Nat) : ror w (ror w v a) (w - a % w) = v := by
  rw [ror_ror]
  refine ror_of_mod_eq_zero v ?_
  have hle : a % w ≤ w := (Nat.mod_lt a hw).le
  rw [← Nat.mod_add_mod, Nat.add_sub_cancel' hle, Nat.mod_self]

/-- A value whose bits are all equal is a fixed point of every rotate. -/
theorem ror_of_constant_bits {w : Nat} {v : BitVec w} {b : Bool} (h : ∀ p, p < w → v.getLsbD p = b) (a : Nat) :
    ror w v a = v := by
  refine BitVec.eq_of_getLsbD_eq fun p hp => ?_
  have hmod : (p + a) % w < w := Nat.mod_lt _ (Nat.zero_lt_of_lt hp)
  rw [getLsbD_ror, decide_eq_true hp, Bool.true_and, h _ hmod, h p hp]

/-- Bit `p` of a rotate by the count cut to the width (40_rotate_common.md R80, R81). -/
theorem getLsbD_ror_mod {w : Nat} (v : BitVec w) (c : Nat) {p : Nat} (hp : p < w) :
    (ror w v c).getLsbD p = v.getLsbD ((p + c % w) % w) := by
  rw [getLsbD_ror, decide_eq_true hp, Bool.true_and, Nat.add_mod_mod]

/-! ## The writemask and the bits of a new value (R84 to R86) -/

/-- An element is computed without a writemask, or where its mask bit is 1. -/
theorem active_iff (s : State) (e : Evex) (j : Nat) :
    s.active e j = true ↔ e.aaa = 0#3 ∨ (s.readK e.aaa).getLsbD j = true := by
  simp [State.active]

/-- A vector whose bits from `n` upward are 0 is its low `n` bits. -/
theorem eq_and_lowMask {v : Vec} {n : Nat} (h : ∀ p, n ≤ p → v.getLsbD p = false) :
    v = (v &&& BitVec.ofNat 512 (2 ^ n - 1)) := by
  refine BitVec.eq_of_getLsbD_eq fun p hp => ?_
  rw [BitVec.getLsbD_and, BitVec.getLsbD_ofNat, Nat.testBit_two_pow_sub_one, decide_eq_true hp, Bool.true_and]
  by_cases hpn : p < n
  · rw [decide_eq_true hpn, Bool.and_true]
  · rw [h p (Nat.le_of_not_lt hpn), Bool.false_and]

/-- With nothing to compute, merging keeps every bit below the vector length (40_rotate_common.md R85). -/
theorem getLsbD_rotateVector_of_inactive {w : ElemWidth} {vl : VLen} (src : Vec) (count : Nat → Nat)
    {active : Nat → Bool} (old : Vec) (h : ∀ j, j < numElems w vl → active j = false) {p : Nat}
    (hp : p < vl.bits) :
    (rotateVector w vl src count active false old).getLsbD p = old.getLsbD p := by
  have hj : p / w.bits < numElems w vl := Nat.div_lt_of_lt_mul (by rwa [Nat.mul_comm, numElems_mul])
  have hbit := getLsbD_rotateVector src count active false old hj (Nat.mod_lt p (bits_pos w))
  rwa [Nat.div_add_mod', h _ hj, if_neg Bool.false_ne_true, if_neg Bool.false_ne_true] at hbit

/-! ## The next program counter and the step (R90, R91) -/

/-- The program counter moves by `len` modulo 2^64 in 64-bit mode and modulo 2^32 in other modes. -/
theorem nextRip_toNat (s : State) (len : Nat) :
    (s.nextRip len).toNat = (s.rip.toNat + len) % (if s.mode = .mode64 then 2 ^ 64 else 2 ^ 32) := by
  have hdvd : (if s.mode = .mode64 then 2 ^ 64 else 2 ^ 32) ∣ 2 ^ 64 := by split <;> decide
  have htrunc := truncAddr_toNat s (s.rip + BitVec.ofNat 64 len)
  simp only [long_iff, BitVec.toNat_add, BitVec.toNat_ofNat, Nat.add_mod_mod, Nat.mod_mod_of_dvd _ hdvd] at htrunc
  exact htrunc

/-- A step runs what the decoder reads from the bytes fetched (40_rotate_common.md R91). -/
theorem step_of_decode {s : State} {i : Instr}
    (h : decode Config.strictIgnoredBits s.codeSize (s.fetchBytes 15 0).1 = .instr i) : step s = exec i s := by
  simp only [step, State.instrAt, h]

end Sys2Proof.Machine
end

section
/-! PROOFS. The rotate and what the forms share (40_rotate_common.md): the rotate's bits and laws, the element loop, the
bits above the vector length, the program counter, and the step. -/

namespace Sys2Proof.Machine

/-! ## The rotate (R80 to R83, R88) -/

/-- Settles O12: the model's rotate is R80's formula at width 32. -/
theorem rotateDoublewordBits : Obligations.RotateDoublewordBits :=
  fun v c => ⟨rfl, fun _ hp => getLsbD_ror_mod v c hp⟩

/-- Settles O13: the model's rotate is R81's formula at width 64. -/
theorem rotateQuadwordBits : Obligations.RotateQuadwordBits :=
  fun v c => ⟨rfl, fun _ hp => getLsbD_ror_mod v c hp⟩

/-- Settles O14: each law holds at every width above 0. -/
theorem rotateLaws : Obligations.RotateLaws := by
  intro w v a b
  refine ⟨ror_zero v, ror_of_mod_eq_zero v (Nat.mod_self _), ror_congr_mod v (Nat.mod_mod _ _).symm, ror_ror v a b,
    ror_ror_complement (bits_pos w) v a, ror_of_constant_bits (b := false) (fun p _ => ?_) a,
    ror_of_constant_bits (b := true) (fun p hp => ?_) a⟩
  · exact BitVec.getLsbD_zero
  · rw [BitVec.getLsbD_allOnes, decide_eq_true hp]

/-! ## The element loop and the bits above it (R84 to R86) -/

/-- Settles O19: element `j` of the new value is one of the three cases of R84. -/
theorem elementLoop : Obligations.ElementLoop := by
  intro i s t h
  obtain ⟨-, rfl⟩ := exec_next h
  rw [readZmm_completed_self]
  refine ⟨fun j hj => ?_, eq_and_lowMask fun p hp => getLsbD_rotateVector_of_ge _ _ _ _ _ hp⟩
  rw [elem_rotateVector _ _ _ _ _ hj, newElem]
  simp only [active_iff]
  cases i.fields.e.z <;> rfl

/-- Settles O20: nothing is packed above the last element; where no element is computed, merging packs the old ones. -/
theorem upperBitsAreZeroed : Obligations.UpperBitsAreZeroed := by
  intro i s t h
  obtain ⟨-, rfl⟩ := exec_next h
  rw [readZmm_completed_self]
  refine ⟨fun p hp => getLsbD_rotateVector_of_ge _ _ _ _ _ hp, fun hz hmask => ⟨fun p hp => ?_,
    fun n hn => readZmm_completed_ne hn, completed_sameElsewhere i.fields s⟩⟩
  rw [hz]
  exact getLsbD_rotateVector_of_inactive _ _ _ hmask hp

/-! ## The program counter and the step (R90, R91) -/

/-- Settles O28: a completed form has moved the program counter by the length its encoding has. -/
theorem programCounterFallsThrough : Obligations.ProgramCounterFallsThrough := by
  intro i s t h
  obtain ⟨-, rfl⟩ := exec_next h
  rw [completed_rip, nextRip_toNat, encode, length_fieldsEncode]

/-- Settles O43, from what the step does with the decoder's answer. -/
theorem stepRunsTheDecodedInstruction : Obligations.StepRunsTheDecodedInstruction :=
  fun _ _ => step_of_decode

/-- Settles O44: the encoding's bytes head those fetched, and decode to the instruction whatever follows them. -/
theorem stepRunsTheEncodedInstruction : Obligations.StepRunsTheEncodedInstruction := by
  intro s i hwf hcode
  have hlen : (encode i).length ≤ 15 := by
    obtain ⟨-, -, -, -, hmax⟩ := Fields.wf_iff.mp hwf
    rwa [encode, length_fieldsEncode]
  obtain ⟨rest, hfetch⟩ := fetchBytes_of_codeAt hcode hlen
  refine step_of_decode ?_
  rw [hfetch]
  exact decodeOfEncodeIsInstruction _ _ _ rest hwf

end Sys2Proof.Machine
end

section
/-! SUPPORT. The completion of a form whose operand can be read (40_rotate_common.md R91). -/

namespace Sys2Proof.Machine

/-- An enabled form, of any mnemonic and length, whose ModRM:r/m operand can be read completes with the effect of R84 to
R86 and R90. -/
theorem exec_rotateEffect_of_readable {i : Instr} {s : State} (he : s.Enabled i.fields.vl)
    (hr : s.OperandReadable i.fields.w i.fields.vl i.length i.fields.e i.fields.rm) :
    ∃ t, exec i s = .next t ∧ RotateEffect i.fields s t :=
  ⟨completed i.fields s, exec_of_readable he hr, completed_rotateEffect i.fields s⟩

end Sys2Proof.Machine
end

section
/-! PROOFS. VPRORD (41_vprord.md): it completes with its result and its frame. -/

namespace Sys2Proof.Machine

/-- Settles O15: in each vector length `src` is the ModRM:r/m operand, of doublewords, that is assumed readable. -/
theorem vprordCompletes : Obligations.VprordCompletes := by
  intro e dst src imm s i hi he hr
  rcases hi with rfl | rfl | rfl <;> exact exec_rotateEffect_of_readable he hr

end Sys2Proof.Machine
end

section
/-! PROOFS. VPRORVD (42_vprorvd.md): it completes with its result and its frame. -/

namespace Sys2Proof.Machine

/-- Settles O16: in each vector length the counts `cnt` are the ModRM:r/m operand, of doublewords, that is assumed
readable; the vector rotated, `src`, is a register, of which nothing need be assumed. -/
theorem vprorvdCompletes : Obligations.VprorvdCompletes := by
  intro e dst src cnt s i hi he hr
  rcases hi with rfl | rfl | rfl <;> exact exec_rotateEffect_of_readable he hr

end Sys2Proof.Machine
end

section
/-! PROOFS. VPRORQ (43_vprorq.md): it completes with its result and its frame. -/

namespace Sys2Proof.Machine

/-- Settles O17: in each vector length `src` is the ModRM:r/m operand, of quadwords, that is assumed readable; it is the
vector rotated, and the count is in the encoding. -/
theorem vprorqCompletes : Obligations.VprorqCompletes := by
  intro e dst src imm s i hi he hr
  rcases hi with rfl | rfl | rfl <;> exact exec_rotateEffect_of_readable he hr

end Sys2Proof.Machine
end

section
/-! PROOFS. VPRORVQ (44_vprorvq.md): it completes with its result and its frame. -/

namespace Sys2Proof.Machine

/-- Settles O18: in each vector length the counts `cnt` are the ModRM:r/m operand, of quadwords, that is assumed readable;
the vector rotated, `src`, is a register, of which nothing need be assumed. -/
theorem vprorvqCompletes : Obligations.VprorvqCompletes := by
  intro e dst src cnt s i hi he hr
  rcases hi with rfl | rfl | rfl <;> exact exec_rotateEffect_of_readable he hr

end Sys2Proof.Machine
end

section
/-! SUPPORT. The enabling state by its register bits, the page-fault code, what #AC asks for, the fetch in 64-bit mode,
and where a run stops (60_exceptions.md R121 to R131). -/

namespace Sys2Proof.Machine

/-! ## The enabling state by its register bits (60_exceptions.md R121, R122) -/

/-- A slice of a word is all ones when each of its bits is. -/
theorem extractLsb'_eq_allOnes_iff {w : Nat} (v : BitVec w) (start len : Nat) :
    v.extractLsb' start len = BitVec.allOnes len ↔ ∀ j, j < len → v.getLsbD (start + j) = true := by
  rw [BitVec.eq_of_getLsbD_eq_iff]
  refine forall₂_congr fun j hj => ?_
  simp [hj]

/-- The bits of XCR0 that the forms need are the two slices of 10_state.md R21. -/
theorem xcr0Enabled_iff (s : State) :
    s.xcr0Enabled = true ↔ s.xcr0.extractLsb' 5 3 = 7#3 ∧ s.xcr0.extractLsb' 1 2 = 3#2 := by
  have hhigh := extractLsb'_eq_allOnes_iff s.xcr0 5 3
  have hlow := extractLsb'_eq_allOnes_iff s.xcr0 1 2
  simp only [Nat.forall_lt_succ_right, Nat.not_lt_zero, false_implies, implies_true, true_and] at hhigh hlow
  rw [show (7#3) = BitVec.allOnes 3 from rfl, show (3#2) = BitVec.allOnes 2 from rfl, hhigh, hlow]
  simp only [State.xcr0Enabled, Bool.and_eq_true]
  tauto

/-- The CPUID flags of a form (00_scope.md R2). -/
theorem hasForm_iff (s : State) (vl : VLen) :
    s.hasForm vl = true ↔
      s.cpuid7ebx.getLsbD 16 = true ∧ (vl = .l512 ∨ s.cpuid7ebx.getLsbD 31 = true) := by
  simp only [State.hasForm, State.hasAvx512f, State.hasAvx512vl, Bool.and_eq_true, Bool.or_eq_true, beq_iff_eq]

/-- The register bits give no cause of #UD for a form of vector length `vl`: those of `State.Enabled` but CR0.TS, which
is the cause of #NM (60_exceptions.md R121). -/
def State.NoUdCause (s : State) (vl : VLen) : Prop :=
  (s.mode = .mode64 ∨ s.mode = .mode32) ∧ s.cr4.getLsbD 18 = true ∧ s.xcr0.extractLsb' 5 3 = 7#3 ∧
    s.xcr0.extractLsb' 1 2 = 3#2 ∧ s.cpuid7ebx.getLsbD 16 = true ∧
    (vl = .l512 ∨ s.cpuid7ebx.getLsbD 31 = true)

theorem noUdCause_iff (s : State) (vl : VLen) :
    s.NoUdCause vl ↔
      (s.mode = .mode64 ∨ s.mode = .mode32) ∧ s.cr4OSXSAVE = true ∧ s.xcr0Enabled = true ∧ s.hasForm vl = true := by
  rw [xcr0Enabled_iff, hasForm_iff, and_assoc]
  rfl

/-- A cause of #UD comes before CR0.TS is looked at. -/
theorem enableFault_of_udCause {s : State} {vl : VLen} (h : ¬ s.NoUdCause vl) : s.enableFault vl = some .ud := by
  refine if_pos (by_contra fun hno => h ((noUdCause_iff s vl).mpr ?_))
  simp only [Bool.or_eq_true, beq_iff_eq, Bool.not_eq_true', not_or, Bool.not_eq_false] at hno
  obtain ⟨⟨⟨⟨hreal, hvirtual⟩, hosxsave⟩, hxcr0⟩, hform⟩ := hno
  refine ⟨?_, hosxsave, hxcr0, hform⟩
  cases hmode : s.mode with
  | real => exact absurd hmode hreal
  | virtual8086 => exact absurd hmode hvirtual
  | mode32 => exact .inr rfl
  | mode64 => exact .inl rfl

/-- Without a cause of #UD, CR0.TS = 1 is #NM. -/
theorem enableFault_of_taskSwitched {s : State} {vl : VLen} (h : s.NoUdCause vl) (hts : s.cr0.getLsbD 3 = true) :
    s.enableFault vl = some .nm := by
  obtain ⟨hmode, hosxsave, hxcr0, hform⟩ := (noUdCause_iff s vl).mp h
  refine (if_neg ?_).trans (if_pos hts)
  rcases hmode with hmode | hmode <;> simp [hmode, hosxsave, hxcr0, hform]

/-- The enabling state raises nothing but #UD and #NM. -/
theorem enableFault_some {s : State} {vl : VLen} {f : Fault} (h : s.enableFault vl = some f) : f = .ud ∨ f = .nm := by
  rcases enableFault_cases s vl with he | he | he <;> rw [he] at h <;> cases h
  · exact .inl rfl
  · exact .inr rfl

/-- An invalid encoding is #UD before the enabling state is looked at. -/
theorem step_of_decode_ud {s : State} {c : UdCause}
    (h : decode Config.strictIgnoredBits s.codeSize (s.fetchBytes 15 0).1 = .ud c) : step s = .fault .ud := by
  simp only [step, State.instrAt, h]
  rfl

/-! ## The page-fault code (60_exceptions.md R127) -/

theorem getLsbD_pageFaultCode (p us rsvd id : Bool) :
    (pageFaultCode p us rsvd id).getLsbD 0 = p ∧ (pageFaultCode p us rsvd id).getLsbD 1 = false ∧
      (pageFaultCode p us rsvd id).getLsbD 2 = us ∧ (pageFaultCode p us rsvd id).getLsbD 3 = rsvd ∧
      (pageFaultCode p us rsvd id).getLsbD 4 = id := by
  revert p us rsvd id; decide

/-- The code takes five bits. -/
theorem getLsbD_pageFaultCode_of_ge (p us rsvd id : Bool) {j : Nat} (hj : 5 ≤ j) :
    (pageFaultCode p us rsvd id).getLsbD j = false := by
  have hlt : (pageFaultCode p us rsvd id).toNat < 2 ^ 5 := by revert p us rsvd id; decide
  exact Nat.testBit_lt_two_pow (hlt.trans_le (Nat.pow_le_pow_right (by decide) hj))

/-- The code with which `Translate` refuses a byte: P and RSVD are those of the region that holds the address (log 6). -/
theorem translate_pageFault {s : State} {kind : AccessKind} {a : Word64} {c : BitVec 32}
    (h : s.translate kind a = .pageFault c) :
    c = pageFaultCode (s.map.find? fun r => r.holds a.toNat).isSome s.userLevel
      ((s.map.find? fun r => r.holds a.toNat).any Region.rsvd) (kind == .fetch) := by
  unfold State.translate at h
  cases hfind : s.map.find? fun r => r.holds a.toNat with
  | none =>
    simp only [hfind] at h
    split at h
    · exact (Translation.pageFault.inj h).symm
    · cases h
  | some r =>
    simp only [hfind] at h
    split at h
    next hrsvd =>
      rw [Bool.and_eq_true] at hrsvd
      rw [Option.any_some, hrsvd.2]
      exact (Translation.pageFault.inj h).symm
    next hrsvd =>
      split at h
      next hrights =>
        rw [Bool.and_eq_true] at hrights
        rw [hrights.1, Bool.true_and, Bool.not_eq_true] at hrsvd
        rw [Option.any_some, hrsvd]
        exact (Translation.pageFault.inj h).symm
      next => split at h <;> cases h

/-! ## The memory operand (60_exceptions.md R125 to R128) -/

/-- In 64-bit mode an address is good when it is canonical (20_memory.md R39). -/
theorem addressOk_of_long {s : State} (h : s.long = true) (r : MemRef) (k : Nat) :
    s.addressOk r k = canonical s.laBits (s.linear r + BitVec.ofNat 64 k) := by
  rw [State.addressOk, if_pos h, State.byteAddr, truncAddr_of_long h]

/-- In 32-bit modes an address is bad past the limit and through a null or unreadable segment (log 27). -/
theorem addressOk_eq_false_iff_of_not_long {s : State} (h : s.long = false) (r : MemRef) (k : Nat) :
    s.addressOk r k = false ↔
      (s.segment r.seg).limit.toNat < r.ea.toNat + k ∨ (s.segment r.seg).null = true ∨
        (s.segment r.seg).readable = false := by
  simp only [State.addressOk, h, Bool.false_eq_true, if_false, Bool.and_eq_false_iff, Bool.not_eq_false',
    decide_eq_false_iff_not, Nat.not_le]
  tauto

/-- The fault of a byte is #SS, #GP or #PF. -/
theorem not_byteFault_ac (s : State) (r : MemRef) (j : Nat) : ¬ s.ByteFault r j .ac := by
  rintro (⟨-, hseg⟩ | ⟨c, -, hpf⟩)
  · unfold segmentFault at hseg
    split at hseg <;> cases hseg
  · cases hpf

/-- A form that raises #AC does so for a memory operand that is not aligned, under alignment checking. -/
theorem exec_ac {i : Instr} {s : State} (h : exec i s = .fault .ac) :
    s.alignmentChecking = true ∧ ∃ bcst m, i.fields.rm = .mem bcst m ∧
      ¬ operandBytes i.fields.w i.fields.vl bcst ∣
        (s.linear (s.memRef i.fields.w i.fields.vl i.length i.fields.e bcst m)).toNat := by
  rcases exec_cases i s with ⟨f, hen, hx⟩ | ⟨-, stop, hstop, hx⟩ | ⟨-, -, hx⟩
  · rw [hx] at h
    rcases enableFault_some hen with rfl | rfl <;> cases h
  · rw [hx] at h
    obtain ⟨bcst, m, hrm, ⟨-, -, rfl⟩ | ⟨f, hf, rfl⟩ | ⟨-, -, rfl⟩⟩ := readRm_error hstop
    · cases h
    · cases h
      obtain ⟨offs, -, hbytes⟩ := memFault_some hf
      rcases bytesFault_byteFault hbytes with ⟨j, -, hbf⟩ | ⟨-, hcheck, hdvd⟩
      · exact absurd hbf (not_byteFault_ac s _ j)
      · exact ⟨hcheck, bcst, m, hrm, hdvd⟩
    · cases h
  · rw [hx] at h; cases h

/-! ## The fetch in 64-bit mode (10_state.md R13, 60_exceptions.md R129) -/

theorem fetchAddr_of_long {s : State} (h : s.long = true) (k : Nat) : s.fetchAddr k = s.rip + BitVec.ofNat 64 k := by
  rw [State.fetchAddr, if_pos h]

/-- The first byte stands at the program counter. -/
theorem fetchAddr_zero_of_long {s : State} (h : s.long = true) : s.fetchAddr 0 = s.rip := by
  rw [fetchAddr_of_long h]; exact BitVec.add_zero _

theorem fetchAddressOk_of_long {s : State} (h : s.long = true) (k : Nat) :
    s.fetchAddressOk k = canonical s.laBits (s.fetchAddr k) := by
  rw [State.fetchAddressOk, if_pos h]

/-! ## Where a run stops (70_reset_and_hazards.md R158) -/

/-- The end of a run that stops in the state `t`. -/
def Stop.runEnd (t : State) : Stop → RunEnd
  | .fault f => .faulted t f
  | .refuse r => .refused t r

/-- A step that completes is the first of a run. -/
theorem core_run_succ {s u : State} (h : step s = .next u) (k : Nat) : core.run (k + 1) s = core.run k u := by
  have hstep : core.step s = .next u := h
  simp only [Host.Core.run, hstep]

/-- A run that stops does so at the step of the state in which it ends, which is reached by steps that complete. -/
theorem runFrom_stop {stopAt : Word64} {n : Nat} {s t : State} {stop : Stop}
    (h : runFrom stopAt n s = stop.runEnd t) :
    step t = stop.result ∧ ∃ k, k < n ∧ core.run k s = .next t := by
  induction n generalizing s with
  | zero => cases stop <;> cases h
  | succ n ih =>
    rw [runFrom] at h
    cases hstep : step s with
    | next u =>
      simp only [hstep] at h
      split at h
      · cases stop <;> cases h
      · obtain ⟨hstop, k, hk, hrun⟩ := ih h
        exact ⟨hstop, k + 1, Nat.succ_lt_succ hk, (core_run_succ hstep k).trans hrun⟩
    | fault f =>
      rw [hstep] at h
      cases stop <;> cases h
      exact ⟨hstep, 0, Nat.succ_pos n, rfl⟩
    | refused r =>
      rw [hstep] at h
      cases stop <;> cases h
      exact ⟨hstep, 0, Nat.succ_pos n, rfl⟩

end Sys2Proof.Machine
end

section
/-! PROOFS. Exceptions (60_exceptions.md): those of the enabling state, of the memory operand and of the fetch, and where
a run stops for one. -/

namespace Sys2Proof.Machine

/-! ## The table of exceptions (R129, R132) -/

/-- Settles O31, exception by exception. -/
theorem faultVectorsAndErrorCodes : Obligations.FaultVectorsAndErrorCodes := by
  refine ⟨⟨rfl, rfl⟩, ⟨rfl, rfl⟩, ⟨rfl, rfl⟩, ⟨rfl, rfl⟩, fun _ _ => ⟨rfl, rfl, rfl⟩, ⟨rfl, rfl⟩, fun f hf => ?_⟩
  cases f with
  | pf code a => exact absurd rfl hf
  | _ => rfl

/-! ## The enabling state (R121, R122, R124) -/

/-- Settles O29: each of the conditions is a cause of #UD. -/
theorem disabledFormIsInvalidOpcode : Obligations.DisabledFormIsInvalidOpcode := by
  intro i s hcause
  refine exec_of_enableFault (enableFault_of_udCause ?_)
  rintro ⟨hmode, hosxsave, hhigh, hlow, havx512f, havx512vl⟩
  rcases hcause with h | h | h | h | h | h | ⟨hvl, h⟩
  · simp [h] at hmode
  · simp [h] at hmode
  · rw [hosxsave] at h; cases h
  · exact h hhigh
  · exact h hlow
  · rw [havx512f] at h; cases h
  · rw [h] at havx512vl; exact havx512vl.elim hvl Bool.false_ne_true

/-- Settles O30: the enabling state decides before the operand is read, and the decoder before the form is executed. -/
theorem taskSwitchedIsDeviceNotAvailable : Obligations.TaskSwitchedIsDeviceNotAvailable := by
  refine ⟨rfl, rfl, fun i s hts => exec_of_enableFault ?_, fun s c _ hdec => step_of_decode_ud hdec⟩
  split
  next hno => exact enableFault_of_taskSwitched hno hts
  next hcause => exact enableFault_of_udCause hcause

/-- Settles O32: a register can always be read. -/
theorem registerFormFaults : Obligations.RegisterFormFaults := by
  intro i s n hreg
  rcases exec_cases i s with ⟨f, hen, hx⟩ | ⟨-, stop, hstop, -⟩ | ⟨-, -, hx⟩
  · rcases enableFault_some hen with rfl | rfl
    · exact .inl hx
    · exact .inr (.inl hx)
  · obtain ⟨bcst, m, hmem, -⟩ := readRm_error hstop
    rw [hreg] at hmem; cases hmem
  · exact .inr (.inr ⟨_, hx⟩)

/-! ## The memory operand (R125 to R128) -/

/-- Settles O33: the byte has a bad address by the rules of its mode, and its fault is never suppressed. -/
theorem badOperandAddressFaults : Obligations.BadOperandAddressFaults := by
  intro i s bcst m r k hrm hr hen hk hact hbad
  have hmode : s.long = true ∨ s.csD = true := by
    rcases hbad with ⟨h64, -⟩ | ⟨-, hD, -⟩
    · exact .inl ((long_iff s).mpr h64)
    · exact .inr hD
  have hok : s.addressOk r k = false := by
    rcases hbad with ⟨h64, hcan⟩ | ⟨h32, -, hseg⟩
    · rw [addressOk_of_long ((long_iff s).mpr h64), hcan]
    · exact (addressOk_eq_false_iff_of_not_long ((long_eq_false_iff s).mpr (by rw [h32]; decide)) r k).mpr hseg
  obtain ⟨f, hx, hf, -⟩ := unmaskedFaultIsReported i s bcst m r k _ hrm hr hen hmode hk hact (.inl ⟨hok, rfl⟩)
  rw [hx, hf hok]
  simp only [segmentFault, beq_iff_eq]

/-- Settles O34: the fault of some byte is reported, and with good addresses it is a page fault. -/
theorem refusedOperandByteIsPageFault : Obligations.RefusedOperandByteIsPageFault := by
  intro i s bcst m r k c hrm hr hen haddr hac hok hk hact hc
  obtain ⟨f, hx, -, ⟨j, hj, hbf⟩ | ⟨-, hcheck, -⟩⟩ :=
    unmaskedFaultIsReported i s bcst m r k _ hrm hr hen haddr hk hact (.inr ⟨c, hc, rfl⟩)
  · rcases hbf with ⟨hbad, -⟩ | ⟨d, hd, rfl⟩
    · rw [hok j hj] at hbad; cases hbad
    · exact ⟨j, d, hj, hd, hx⟩
  · rw [hac] at hcheck; cases hcheck

/-- Settles O35: the bits of the one code with which `Translate` refuses. -/
theorem pageFaultCodeBits : Obligations.PageFaultCodeBits := by
  intro s kind a c hc
  rw [translate_pageFault hc]
  obtain ⟨hP, hW, hU, hR, hI⟩ := getLsbD_pageFaultCode (s.map.find? fun r => r.holds a.toNat).isSome s.userLevel
    ((s.map.find? fun r => r.holds a.toNat).any Region.rsvd) (kind == .fetch)
  refine ⟨hW, ?_, ?_, ?_, ?_, fun j hj => getLsbD_pageFaultCode_of_ge _ _ _ _ hj⟩
  · rw [hU, State.userLevel, beq_iff_eq]
  · rw [hI, beq_iff_eq]
  · rw [hP, Option.isSome_eq_false_iff, Option.isNone_iff_eq_none]
  · rw [hR, Option.any_eq_true]

/-- Settles O36: what #AC asks for. -/
theorem alignmentCheckOnlyWhenEnabled : Obligations.AlignmentCheckOnlyWhenEnabled := by
  intro i s hoff hac
  obtain ⟨hcheck, bcst, m, hrm, hmis⟩ := exec_ac hac
  simp only [State.alignmentChecking, State.cr0AM, State.rflagsAC, State.userLevel, Bool.and_eq_true,
    beq_iff_eq] at hcheck
  obtain ⟨⟨hAM, hAC⟩, hcpl⟩ := hcheck
  rcases hoff with h | h | h | h
  · rw [hAM] at h; cases h
  · rw [hAC] at h; cases h
  · exact h hcpl
  · exact hmis (h bcst m hrm)

/-- Settles O37: no byte of the operand faults, so that #AC is the only fault the read can have. -/
theorem misalignedOperandFaultsOrCompletes : Obligations.MisalignedOperandFaultsOrCompletes := by
  intro i s bcst m r hrm hr hen haddr _ hbytes _
  have hx := exec_of_mem hrm hr hen haddr
  cases hf : s.memFault r (s.byteActive i.fields.w i.fields.vl i.fields.e bcst) with
  | some f =>
    rw [hf] at hx
    obtain ⟨offs, hoffs, hbf⟩ := memFault_some hf
    rcases bytesFault_byteFault hbf with ⟨j, hj, hfault⟩ | ⟨rfl, -, -⟩
    · obtain ⟨hok, hadm⟩ := hbytes j (hoffs j hj)
      exact absurd hfault (not_byteFault hok (fun c => by rw [hadm]; exact Translation.noConfusion) f)
    · exact .inl hx
  | none =>
    have hno : s.touchesDevice r = false := by
      rw [Bool.eq_false_iff, ne_eq, touchesDevice_iff]
      rintro ⟨j, hj, -, hdev⟩
      rw [(hbytes j hj).2] at hdev; cases hdev
    rw [hf, hno] at hx
    exact .inr ⟨_, hx, completed_rotateEffect _ _⟩

/-! ## The fetch (R127, R129, R130) -/

/-- Settles O45: a byte is judged by its place, then by its address, then by `Translate`. -/
theorem fetchFaultsStopTheStep : Obligations.FetchFaultsStopTheStep := by
  intro s hmode
  have hlong : s.long = true := (long_iff s).mpr hmode
  refine ⟨fun hnot => ?_, fun c hcan hc => ?_, fun k hk hbad => ?_, fun k c hlt hcan hc => ?_⟩
  · refine step_of_first_byte (fetchByte_of_bad_address (.inl rfl) ?_)
    rwa [fetchAddressOk_of_long hlong, fetchAddr_zero_of_long hlong]
  · have hbyte := fetchByte_of_good_address (s := s) (k := 0) (.inl rfl) (by
      rwa [fetchAddressOk_of_long hlong, fetchAddr_zero_of_long hlong])
    rw [fetchAddr_zero_of_long hlong, hc] at hbyte
    exact step_of_first_byte hbyte
  · refine fetchByte_of_not_placed hk.ne' ?_
    rw [Bool.eq_false_iff, ne_eq, fetchPlaced_iff_of_long hlong]
    rintro ⟨hlt, hcan⟩
    rcases hbad with hge | hnot
    · omega
    · rw [hnot] at hcan; cases hcan
  · have hbyte := fetchByte_of_good_address (.inr ((fetchPlaced_iff_of_long hlong k).mpr ⟨hlt, hcan⟩)) (by
      rwa [fetchAddressOk_of_long hlong, fetchAddr_of_long hlong])
    rwa [fetchAddr_of_long hlong, hc] at hbyte

/-- Settles O47: the bytes before the one that cannot be fetched hold no whole instruction, and the decoder asks for all
of them before it judges. -/
theorem unfetchableByteStopsTheStep : Obligations.UnfetchableByteStopsTheStep := by
  intro s pre opA p0 p1 p2 op modrm tail k stop hpre hop htail hk hlen hcode hstop
  obtain ⟨hleg, haddr, hp0, h16⟩ := hpre.decoder
  obtain ⟨t, ht, -⟩ := readTail_isSome (opA := opA) (md := field2 modrm) (rm := field3 modrm 0) htail
  rw [lengthByFormula_eq ht] at hlen
  have hcount : ((pre ++ 0x62#8 :: p0 :: p1 :: p2 :: op :: modrm :: tail).take k).length = k := by
    have hle := (readTail_some ht).len_le
    simp only [List.length_take, List.length_append, List.length_cons]
    omega
  have hfetch := fetchBytes_stop s (n := 15) (by rwa [hcount]) hcode (by rwa [hcount])
  rw [step_of_short (by rw [hfetch]; exact decode_take_short hleg haddr hp0 hop h16 ht hlen), hfetch]
  rfl

/-! ## Runs (R131) -/

/-- Settles O53: both ends are stops. -/
theorem runFaultsBeforeTheInstruction : Obligations.RunFaultsBeforeTheInstruction := by
  intro p n s t hplaced
  have hrun : runProgram p n s = runFrom (s.programEnd p) n (s.startProgram p) := if_pos hplaced
  rw [hrun]
  exact ⟨fun f hf => runFrom_stop (stop := .fault f) hf, fun r hr => runFrom_stop (stop := .refuse r) hr⟩

end Sys2Proof.Machine
end

section
/-! SUPPORT. Bytes stored at rising addresses, the bytes of a placed program, the loading of an instruction, and where a
run ends normally (10_state.md R13, 70_reset_and_hazards.md R152, R158). -/

namespace Sys2Proof.Machine

/-! ## Bytes at rising addresses (00_scope.md R9) -/

/-- Offsets below 2^64 lead to different addresses, whatever the wrap. -/
theorem add_ofNat_ne (a : Word64) {j k : Nat} (hjk : j < k) (hk : k < 2 ^ 64) :
    a + BitVec.ofNat 64 j ≠ a + BitVec.ofNat 64 k := by
  intro h
  have hoff := congrArg BitVec.toNat (add_left_cancel h)
  simp only [BitVec.toNat_ofNat, Nat.mod_eq_of_lt hk, Nat.mod_eq_of_lt (hjk.trans hk)] at hoff
  omega

/-- Bytes stored at rising addresses are bytes stored each at its offset. -/
theorem Memory.writeBytes_eq_writeEach (m : Memory) (a : Word64) (i : Nat) (bs : List Byte) :
    m.writeBytes (a + BitVec.ofNat 64 i) bs = m.writeEach (fun k => a + BitVec.ofNat 64 k) i bs := by
  induction bs generalizing m i with
  | nil => rfl
  | cons b rest ih =>
    have hnext : a + BitVec.ofNat 64 i + 1 = a + BitVec.ofNat 64 (i + 1) := by
      rw [BitVec.ofNat_add, ← add_assoc]; rfl
    rw [Memory.writeBytes, Memory.writeEach, hnext, ih]

theorem Memory.writeBytes_eq_writeEach_zero (m : Memory) (a : Word64) (bs : List Byte) :
    m.writeBytes a bs = m.writeEach (fun k => a + BitVec.ofNat 64 k) 0 bs := by
  rw [← writeBytes_eq_writeEach]
  exact congrArg (m.writeBytes · bs) (BitVec.add_zero a).symm

/-- Bytes stored at rising addresses read back, also across the wrap, if no two have one address. -/
theorem Memory.read_writeBytes {m : Memory} (hw : m.wf = true) (a : Word64) {bs : List Byte}
    (hlen : bs.length ≤ 2 ^ 64) {k : Nat} (hk : k < bs.length) :
    (m.writeBytes a bs).read (a + BitVec.ofNat 64 k) = bs[k] := by
  have h := read_writeEach hw (addr := fun k => a + BitVec.ofNat 64 k) 0 bs (fun j k hjk hk => by
    simpa only [Nat.zero_add] using add_ofNat_ne a hjk (hk.trans_le hlen)) hk
  rwa [← writeBytes_eq_writeEach_zero, Nat.zero_add] at h

theorem Memory.read_writeBytes_ne (m : Memory) {a b : Word64} {bs : List Byte}
    (h : ∀ k, k < bs.length → b ≠ a + BitVec.ofNat 64 k) : (m.writeBytes a bs).read b = m.read b := by
  rw [writeBytes_eq_writeEach_zero]
  exact m.read_writeEach_ne 0 bs fun k hk => by simpa only [Nat.zero_add] using h k hk

/-! ## A program that is placed (10_state.md R13) -/

theorem programPlaced_iff (s : State) (p : Program) :
    s.programPlaced p = true ↔
      s.truncAddr p.base = p.base ∧ ∀ k, k < p.bytes.length → (s.atProgram p).fetchPlaced k = true := by
  simp [State.programPlaced]

/-- Bytes below the wrap of the program counter stand at different addresses, in every mode. -/
theorem fetchAddr_ne {s : State} {j k : Nat} (hjk : j < k) (hk : s.fetchPlaced k = true) :
    s.fetchAddr j ≠ s.fetchAddr k := by
  cases hlong : s.long with
  | true =>
    obtain ⟨hlt, -⟩ := (fetchPlaced_iff_of_long hlong k).mp hk
    rw [fetchAddr_of_long hlong, fetchAddr_of_long hlong]
    exact add_ofNat_ne s.rip hjk (by omega)
  | false =>
    have hlt := (fetchPlaced_iff_of_not_long hlong k).mp hk
    intro h
    have haddr := congrArg BitVec.toNat h
    rw [fetchAddr_toNat_of_not_long hlong, fetchAddr_toNat_of_not_long hlong] at haddr
    omega

/-! ## The loading of an instruction (70_reset_and_hazards.md R152, R158; log 1) -/

/-- A byte that can be fetched is the byte that stands there. -/
theorem fetchByte_of_fetchable {s : State} {k : Nat} (h : s.fetchable k = true) :
    s.fetchByte k = .ok (s.mem.read (s.fetchAddr k)) := by
  unfold State.fetchable at h
  cases hb : s.fetchByte k with
  | error stop => rw [hb] at h; cases h
  | ok b =>
    unfold State.fetchByte at hb
    split_ifs at hb
    split at hb
    · cases hb
    · cases hb
    · exact hb.symm

/-- Whether a byte can be fetched does not depend on what memory holds. -/
theorem loadCode_fetchable (s : State) (base : Word64) (bs : List Byte) (k : Nat) :
    (s.loadCode base bs).fetchable k = s.fetchable k := by
  have hplaced : (s.loadCode base bs).fetchPlaced k = s.fetchPlaced k := rfl
  have haddr : (s.loadCode base bs).fetchAddressOk k = s.fetchAddressOk k := rfl
  have htrans : (s.loadCode base bs).translate .fetch ((s.loadCode base bs).fetchAddr k) =
      s.translate .fetch (s.fetchAddr k) := rfl
  unfold State.fetchable State.fetchByte
  rw [hplaced, haddr, htrans]
  split_ifs
  · rfl
  · rfl
  · cases s.translate .fetch (s.fetchAddr k) <;> rfl

/-- Bytes loaded at the program counter stand there for the fetch, where it can fetch at all. -/
theorem codeAt_loadCode {s : State} (hlong : s.long = true) (hw : s.mem.wf = true) {bs : List Byte}
    (hlen : bs.length ≤ 2 ^ 64) (hf : ∀ k, k < bs.length → s.fetchable k = true) :
    (s.loadCode s.rip bs).CodeAt bs := by
  intro k hk
  rw [fetchByte_of_fetchable (by rw [loadCode_fetchable]; exact hf k hk), fetchAddr_of_long (by rwa [loadCode_long]),
    loadCode_rip, loadCode_mem, Memory.read_writeBytes hw s.rip hlen hk]

/-- In the launched machine the 15 bytes at the program counter of reset can be fetched. -/
theorem reset_launch_fetchable : (List.range 15).all State.reset.launch.fetchable = true := by decide

/-- After reset loading launches the machine and leaves the program counter where it is. -/
theorem reset_loadAtFetch (bs : List Byte) :
    State.reset.loadAtFetch bs = State.reset.launch.loadCode State.reset.launch.rip bs := by
  have hnot : State.reset.launched = false := by decide
  have hready : State.reset.launch.fetchReady = State.reset.launch := if_pos reset_launch_fetchable
  simp only [State.loadAtFetch, hnot, Bool.false_eq_true, if_false, hready]

/-- The encoding of a well-formed instruction has at most 15 bytes (30_encoding.md R69). -/
theorem length_encode_le {cs : CodeSize} {i : Instr} (h : i.wellFormed cs = true) : (encode i).length ≤ 15 := by
  obtain ⟨-, -, -, -, hmax⟩ := Fields.wf_iff.mp h
  rwa [encode, length_fieldsEncode]

/-! ## Where a run ends normally (70_reset_and_hazards.md R158) -/

/-- After `k` steps that complete, none of which falls through to `stopAt`, the next one completes in `t` and does. -/
def FallsThroughAfter (stopAt : Word64) (k : Nat) (s t : State) : Prop :=
  ∃ u, core.run k s = .next u ∧ step u = .next t ∧ t.rip = stopAt ∧
    ∀ j v, 0 < j → j ≤ k → core.run j s = .next v → v.rip ≠ stopAt

theorem fallsThroughAfter_zero {stopAt : Word64} {s u t : State} (h : step s = .next u) :
    FallsThroughAfter stopAt 0 s t ↔ u = t ∧ u.rip = stopAt := by
  constructor
  · rintro ⟨w, hrun, hstep, hend, -⟩
    cases hrun
    cases h.symm.trans hstep
    exact ⟨rfl, hend⟩
  · rintro ⟨rfl, hend⟩
    exact ⟨s, rfl, h, hend, fun j _ hpos hle => by omega⟩

/-- After a step that completes there is one step less to the fall-through. -/
theorem fallsThroughAfter_succ {stopAt : Word64} {k : Nat} {s u t : State} (h : step s = .next u) :
    FallsThroughAfter stopAt (k + 1) s t ↔ u.rip ≠ stopAt ∧ FallsThroughAfter stopAt k u t := by
  constructor
  · rintro ⟨w, hrun, hstep, hend, hfirst⟩
    rw [core_run_succ h] at hrun
    exact ⟨hfirst 1 u one_pos (by omega) (core_run_succ h 0), w, hrun, hstep, hend, fun j v _ hle hv =>
      hfirst (j + 1) v j.succ_pos (by omega) ((core_run_succ h j).trans hv)⟩
  · rintro ⟨hne, w, hrun, hstep, hend, hfirst⟩
    refine ⟨w, (core_run_succ h k).trans hrun, hstep, hend, fun j v hpos hle hv => ?_⟩
    obtain ⟨j, rfl⟩ := Nat.exists_eq_add_one_of_ne_zero hpos.ne'
    rw [core_run_succ h] at hv
    rcases Nat.eq_zero_or_pos j with rfl | hj
    · cases hv; exact hne
    · exact hfirst j v hj (by omega) hv

/-- A run of one step or more that comes through has a first step that completes. -/
theorem exists_step_of_core_run_succ {s w : State} {k : Nat} (h : core.run (k + 1) s = .next w) :
    ∃ u, step s = .next u := by
  cases hstep : core.step s with
  | next u => exact ⟨u, hstep⟩
  | fault _ | refused _ => simp only [Host.Core.run, hstep] at h; cases h

theorem FallsThroughAfter.exists_step {stopAt : Word64} {k : Nat} {s t : State} (h : FallsThroughAfter stopAt k s t) :
    ∃ u, step s = .next u := by
  obtain ⟨w, hrun, hstep, -⟩ := h
  cases k with
  | zero => cases hrun; exact ⟨t, hstep⟩
  | succ k => exact exists_step_of_core_run_succ hrun

/-- A run ends normally at the first fall-through to `stopAt`, and only there. -/
theorem runFrom_finished_iff {stopAt : Word64} {n : Nat} {s t : State} :
    runFrom stopAt n s = .finished t ↔ ∃ k, k < n ∧ FallsThroughAfter stopAt k s t := by
  induction n generalizing s with
  | zero => exact ⟨nofun, fun ⟨_, hk, _⟩ => absurd hk (Nat.not_lt_zero _)⟩
  | succ n ih =>
    cases hstep : step s with
    | next u =>
      rw [Nat.exists_lt_succ_left]
      simp only [runFrom, hstep, fallsThroughAfter_zero hstep, fallsThroughAfter_succ hstep]
      by_cases hend : u.rip = stopAt <;> simp [hend, ih]
    | fault _ | refused _ =>
      refine ⟨fun h => ?_, fun ⟨_, _, h⟩ => ?_⟩
      · simp only [runFrom, hstep] at h; cases h
      · obtain ⟨u, hu⟩ := h.exists_step
        cases hstep.symm.trans hu

end Sys2Proof.Machine
end

section
/-! PROOFS. Reset, loading and runs (70_reset_and_hazards.md R152 to R158): loaded bytes, the launch, a placed program,
and the normal end of a run. -/

namespace Sys2Proof.Machine

/-- Settles O59: the bytes are at most as many as there are addresses, so that no two share one. -/
theorem loadedBytesReadBack : Obligations.LoadedBytesReadBack := fun m a _ hw hlen =>
  ⟨fun _ hk => Memory.read_writeBytes hw a hlen hk, fun _ hb => m.read_writeBytes_ne hb⟩

/-- Settles O60: the launched machine is in 64-bit mode and can fetch the 15 bytes at its program counter, where the
encoding now stands. -/
theorem loadedInstructionRunsNext : Obligations.LoadedInstructionRunsNext := by
  intro i hwf
  have hlen := length_encode_le hwf
  have hlong : State.reset.launch.long = true := by decide
  have hsize : State.reset.launch.codeSize = .bits64 := by decide
  rw [reset_loadAtFetch]
  refine stepRunsTheEncodedInstruction _ i (by rwa [loadCode_codeSize, hsize])
    (codeAt_loadCode hlong (by decide) (by omega) fun k hk => ?_)
  exact List.all_eq_true.mp reset_launch_fetchable k (List.mem_range.mpr (by omega))

/-- Settles O56: placed bytes stand at different addresses, and a placed base is not cut. -/
theorem programStandsAtItsBase : Obligations.ProgramStandsAtItsBase := by
  intro p s hplaced hw
  obtain ⟨hbase, hbytes⟩ := (programPlaced_iff s p).mp hplaced
  refine ⟨fun k hk => ?_, fun a ha => ?_, ?_, ?_⟩
  · have h := Memory.read_writeEach hw (addr := (s.atProgram p).fetchAddr) 0 p.bytes (fun j k hjk hk => by
      simpa only [Nat.zero_add] using fetchAddr_ne hjk (hbytes k hk)) hk
    rwa [Nat.zero_add] at h
  · exact s.mem.read_writeEach_ne 0 p.bytes fun k hk => by rw [Nat.zero_add]; exact ha k hk
  · rw [startProgram_rip, hbase]
  · rw [State.programEnd, nextRip_toNat, atProgram_rip, hbase, atProgram_mode]

/-- Settles O54, by induction on the number of steps. -/
theorem runFinishesByFallThrough : Obligations.RunFinishesByFallThrough := by
  intro p n s t hplaced
  have hrun : runProgram p n s = runFrom (s.programEnd p) n (s.startProgram p) := if_pos hplaced
  rw [hrun, runFrom_finished_iff]
  simp only [FallsThroughAfter, exists_and_left]

end Sys2Proof.Machine
end

section
/-! PROOFS. The words written out in the spec (30_encoding.md section 8, 95_test_vectors.md section 2.3). -/

namespace Sys2Proof

/-- Bytes that are the encoding of a well-formed instruction decode to it: O2 with nothing after the encoding. -/
theorem decode_of_eq_encode (strict : Bool) {cs : CodeSize} {i : Instr} {bytes : List Byte}
    (hwf : i.wellFormed cs = true) (hbytes : encode i = bytes) : decode strict cs bytes = .instr i := by
  simpa only [hbytes, List.append_nil] using decodeOfEncodeIsInstruction strict cs i [] hwf

/-- Settles O1: each word is the encoding of its instruction, which is well-formed. -/
theorem decodeOfSampleEncodings : Obligations.DecodeOfSampleEncodings :=
  ⟨decode_of_eq_encode false (by decide) (by decide), decode_of_eq_encode false (by decide) (by decide),
    decode_of_eq_encode false (by decide) (by decide), decode_of_eq_encode false (by decide) (by decide),
    decode_of_eq_encode false (by decide) (by decide)⟩

end Sys2Proof
end

section
/-! PROOFS. Memory operands with 16-bit addressing (00_scope.md section 3, log 9). -/

namespace Sys2Proof.Machine

/-- In code with D = 0 outside 64-bit mode no memory operand is read; `readRm_mem` is the other case. -/
theorem readRm_mem_of_addressing16 {s : State} {w : ElemWidth} {vl : VLen} {len : Nat} {e : Evex} {bcst : Bool}
    {m : MemOp} (hlong : s.long = false) (hD : s.csD = false) :
    s.readRm w vl len e (.mem bcst m) = .error (.refuse .addressing16) := by
  simp [State.readRm, hlong, hD]

/-- Settles O41: an enabled form depends on its ModRM:r/m operand alone, and this one is not read. -/
theorem sixteenBitAddressingIsRefused : Obligations.SixteenBitAddressingIsRefused := by
  intro i s bcst m hrm henabled hmode hD
  have hlong : s.long = false := (long_eq_false_iff s).mpr (by simp [hmode])
  rw [exec_of_enabled henabled, hrm, readRm_mem_of_addressing16 hlong hD]
  rfl

end Sys2Proof.Machine
end
